-- ==== Sys2Proof/Word.lean ====
section
/-! DEFINITION. Bytes and W-bit values (00_scope.md R7, R12, R14). -/

namespace Sys2Proof

/-- A byte (R12): frame bytes, payload bytes, CMD, CODE and ERR_MARKER. -/
abbrev Byte := BitVec 8

/-- `v` is a value of `w` bits: "an unsigned integer in 0 .. 2^W − 1" (R12). W is an open parameter (R7) and the pseudocode "computes
over mathematical natural numbers" (R14), so a W-bit register value is a `Nat`; the bound is part of the invariant `State.Inv` (log entry 18). -/
abbrev fits (w : Nat) (v : Nat) : Prop := v < 2 ^ w

end Sys2Proof
end

