-- ==== Sys2Proof/Config.lean ====
section
/-! DEFINITION. What an implementation fixes: the constants of 00_scope.md R8 and R9, the platform parameters of R7, R11 and
20_memory.md R49 as plain data, and the free values for what the spec leaves unspecified. -/

namespace Sys2Proof.Config

/-- SENTINEL, fixed at 0x00 (R8). -/
def sentinel : Byte := 0x00#8

/-- MAX_DATA, the largest number of data bytes in one chunk (R9). -/
def maxData : Nat := 254

/-- MAX_MARKER, the marker of a full chunk (R9). -/
def maxMarker : Nat := 255

/-- The free value a STATUS read shows in CODE while DONE = 0: "a model admits any value for the 8 bits of CODE" (R23).
Free: no body, one for each draw (log entry 9). -/
opaque freeCode : Nat → Byte

/-- The free value of an unspecified destination byte: "a model must admit any byte value there" (R53, R137).
Free: no body, one for each draw (log entry 10). -/
opaque freeByte : Nat → Byte

/-- The free value of `w` bits that stands where the spec gives a register, or padding beside one, no content (10_state.md R28, 20_memory.md R50).
Free: no body, one for each draw (log entries 5, 14 and 27). -/
opaque freeWord (w n : Nat) : BitVec w

/-- What stands at an address the platform backs (R45): ordinary memory, or a device with access side effects. -/
inductive MemKind where
  | ordinary
  | device
  deriving DecidableEq, Repr

/-- One entry of the platform's memory map: the `size` addresses from `base` on. BACKED (R49) is the list of them. -/
structure MapEntry where
  base : Nat
  size : Nat
  kind : MemKind
  readable : Bool
  writable : Bool
  deriving DecidableEq, Repr

/-- Where a platform places the twelve registers in a byte-addressed space, and REG_BYTE_ORDER (R11, R49, R50).
`base[r]` is the address of register r's first byte. An order lists, for each byte address of a register
counted up from its base, the significance of the byte there (0 the least): `[0, 1]` is little-endian. -/
structure RegWindow where
  base : List Nat
  statusOrder : List Nat
  wordOrder : List Nat
  deriving DecidableEq, Repr

/-- The platform parameters: W (R7), BACKED (R49) and the place of the registers (R49), all OPEN. No step changes them, and a
statement about every state holds for every value of them (log entries 1, 2 and 14). -/
structure Platform where
  width : Nat
  map : List MapEntry
  window : Option RegWindow
  deriving DecidableEq, Repr

/-- The platform of `State.reset`. DESIGN CHOICE (log entries 1, 2, 14): W = 32, every byte ordinary memory, no register window. -/
def Platform.standard : Platform where
  width := 32
  map := [{ base := 0, size := 2 ^ 32, kind := .ordinary, readable := true, writable := true }]
  window := none

end Sys2Proof.Config
end

