-- ==== Sys2Proof/Syntax.lean ====
section
/-! DEFINITION. The commands of the core: one constructor for each row of spec/opcode_table.json (30_encoding.md R61). -/

namespace Sys2Proof

/-- The six commands (R2, R61). "No command carries an immediate" (R63): every operand is an operand register. -/
inductive Instr where
  /-- ENCCAP: `encode_capacity(payload_len)` (R76). -/
  | enccap
  /-- ENC: `encode(payload, dest)`, checked (R88). -/
  | enc
  /-- ENCU: `encode_unchecked(payload, dest)` (R89). -/
  | encu
  /-- DECCAP: `decode_capacity(frame_len)` (R77). -/
  | deccap
  /-- DEC: `decode(frame, dest)`, checked (R105). -/
  | dec
  /-- DECU: `decode_unchecked(frame, dest)` (R106). -/
  | decu
  deriving DecidableEq, Repr

/-- The four commands that touch memory; "ENCCAP and DECCAP do not touch memory" (R41). -/
def Instr.isTransform : Instr → Bool
  | .enccap => false
  | .enc => true
  | .encu => true
  | .deccap => false
  | .dec => true
  | .decu => true

end Sys2Proof
end

