-- ==== Sys2Proof/WellFormed.lean ====
section
/-! DEFINITION. The checks on command words (30_encoding.md R60, R66) and on the platform parameters (00_scope.md R7, R11). -/

namespace Sys2Proof

/-- The fields of a command word in format CMD8 (R60): RSV[7:3], DIR[2], OP[1:0]. -/
structure CmdFields where
  rsv : BitVec 5
  dir : BitVec 1
  op : BitVec 2
  deriving DecidableEq, Repr

/-- "RSV[7:3]: must be 00000" (R60). -/
def CmdFields.rsvOk (f : CmdFields) : Bool := f.rsv == 0b00000#5

/-- OP 00 is reserved (R60). -/
def CmdFields.opOk (f : CmdFields) : Bool := f.op != 0b00#2

/-- A legal command word: reserved bits zero and OP not reserved (R60, R66). -/
def CmdFields.wf (f : CmdFields) : Bool := f.rsvOk && f.opOk

/-- The fields of each command (R61): OP 01 capacity, 10 checked, 11 unchecked; DIR 0 encode side, 1 decode side. -/
def Instr.fields : Instr → CmdFields
  | .enccap => { rsv := 0b00000#5, dir := 0b0#1, op := 0b01#2 }
  | .enc => { rsv := 0b00000#5, dir := 0b0#1, op := 0b10#2 }
  | .encu => { rsv := 0b00000#5, dir := 0b0#1, op := 0b11#2 }
  | .deccap => { rsv := 0b00000#5, dir := 0b1#1, op := 0b01#2 }
  | .dec => { rsv := 0b00000#5, dir := 0b1#1, op := 0b10#2 }
  | .decu => { rsv := 0b00000#5, dir := 0b1#1, op := 0b11#2 }

/-- An instruction is well-formed when its fields are a legal command word; no operand could be ill-formed (R63). -/
def Instr.wf (i : Instr) : Bool := i.fields.wf

namespace Config

/-- A map entry lies inside the address space of 2^W bytes (R40). -/
def MapEntry.wf (w : Nat) (e : MapEntry) : Bool := decide (e.base + e.size ≤ 2 ^ w)

/-- A register window places twelve registers, and its byte orders are permutations of the byte positions (R11, R21). -/
def RegWindow.wf (w : Nat) (r : RegWindow) : Bool :=
  r.base.length == 12 && r.statusOrder.isPerm (List.range 2) && r.wordOrder.isPerm (List.range ((w + 7) / 8))

/-- The platform parameters are admissible: "W ≥ 1" (R7), entries inside the address space, a proper window. -/
def Platform.wf (p : Platform) : Bool :=
  decide (1 ≤ p.width) && p.map.all (·.wf p.width) &&
    (match p.window with
     | none => true
     | some r => r.wf p.width)

end Config

end Sys2Proof
end

