-- ==== Sys2Proof/Decode.lean ====
section
/-! DEFINITION. The command decoder (30_encoding.md R62), total on all 256 words, and the encoder of R61. -/

namespace Sys2Proof

/-- Why a byte is no command (R66). Such a word still completes, with ILLEGAL_COMMAND (R120). -/
inductive DecodeError where
  /-- RSV[7:3] is not 00000. -/
  | reservedBits
  /-- OP is the reserved value 00. -/
  | reservedOp
  deriving DecidableEq, Repr

/-- Splits a command word into the fields of R60. -/
def cmdFields (c : Byte) : CmdFields where
  rsv := c.extractLsb' 3 5
  dir := c.extractLsb' 2 1
  op := c.extractLsb' 0 2

/-- `decode_cmd` of R62, with the reason of a refusal. -/
def decode (c : Byte) : Except DecodeError Instr :=
  let f := cmdFields c
  if f.rsv ≠ 0b00000#5 then .error .reservedBits
  else if f.op = 0b00#2 then .error .reservedOp
  else if f.op = 0b01#2 then
    if f.dir = 0b0#1 then .ok .enccap else .ok .deccap
  else if f.op = 0b10#2 then
    if f.dir = 0b0#1 then .ok .enc else .ok .dec
  else
    if f.dir = 0b0#1 then .ok .encu else .ok .decu

/-- `decode_cmd` of R62: `none` is ILLEGAL. -/
def decodeCmd (c : Byte) : Option Instr :=
  match decode c with
  | .ok i => some i
  | .error _ => none

/-- Puts the fields of R60 together: RSV in bits 7..3, DIR in bit 2, OP in bits 1..0. -/
def assembleFields (f : CmdFields) : Byte := f.rsv ++ f.dir ++ f.op

/-- The command word of each command (R61). -/
def encode (i : Instr) : Byte := assembleFields i.fields

/-- The instruction the decoder reads from an `nbits`-bit word numbered as spec/opcode_table.json numbers it. "Every command is one
8-bit word" (R67): a word of any other length, or one with bits above bit 7, is no command. -/
def decodeTableWord (nbits w : Nat) : Option Instr :=
  if nbits = 8 ∧ w < 2 ^ 8 then decodeCmd (BitVec.ofNat 8 w) else none

end Sys2Proof
end

