-- ==== Sys2Proof/Machine/State.lean ====
section
/-! DEFINITION. The machine's state as plain data (10_state.md, 70_reset_and_hazards.md R136), its faults (60_exceptions.md R122) and
its refusals. "No value" (R21, R28) is a state of a register the spec itself defines; it is `none` here (log entry 4). -/

namespace Sys2Proof.Machine

/-- STATUS (R23) without its hard-wired bits [15:10], which read as 0. CODE holds a value exactly when DONE = 1. -/
structure Status where
  code : Option Byte
  busy : Bool
  done : Bool
  deriving DecidableEq, Repr

/-- The operand registers SRC_BASE, SRC_LEN, DST_BASE and DST_LEN (R24), and the form of their latched copies (R38). -/
structure Operands where
  srcBase : Option Nat
  srcLen : Option Nat
  dstBase : Option Nat
  dstLen : Option Nat
  deriving DecidableEq, Repr

/-- The encoder's working registers E_I, E_C, E_M, E_L and E_LASTZ (R33). -/
structure EncRegs where
  i : Nat
  c : Nat
  m : Nat
  l : Nat
  lastz : Bool
  deriving DecidableEq, Repr

/-- D_STATE (R35). -/
inductive DecState where
  | readMarker
  | copyChunk
  | maybeInsertSentinel
  deriving DecidableEq, Repr

/-- The decoder's working registers D_STATE, D_I, D_O, D_P, D_MK and D_K (R35). -/
structure DecRegs where
  state : DecState
  i : Nat
  o : Nat
  p : Nat
  marker : Byte
  k : Nat
  deriving DecidableEq, Repr

/-- How far an operation in flight has come: started and no core step taken, or the working registers (R33, R35), which "hold values
only while STATUS.BUSY = 1" (R36). -/
inductive Work where
  | started
  | encoding (e : EncRegs)
  | decoding (d : DecRegs)
  deriving DecidableEq, Repr

/-- The operation in flight: the latched command byte and operands (R31, R38) and its working registers. -/
structure InFlight where
  cmd : Byte
  latched : Operands
  work : Work
  deriving DecidableEq, Repr

/-- One core's complete set of registers (R21, R33, R35, R39). -/
@[ext]
structure CodecCore where
  status : Status
  operands : Operands
  result : Option Nat
  errAt : Option Nat
  errMarker : Option Byte
  errLen : Option Nat
  errHave : Option Nat
  errWant : Option Nat
  op : Option InFlight
  deriving DecidableEq, Repr

/-- Platform memory as a list of (address, byte) pairs, addresses strictly rising, no entry equal to `Memory.blank`. -/
abbrev Memory := List Host.Cell

/-- What an unlisted address reads as. The spec gives memory no contents at power-on; DESIGN CHOICE 0x00 (log entry 3, unsafe). -/
def Memory.blank : Byte := 0x00#8

/-- What the outside world does next: the host, another agent on the memory, the platform's reset input, or time passing for the
core (log entries 6 and 7). A register is named by its 4-bit number (R21), an access by its width in bits (R50). -/
inductive HostEvent where
  /-- A host read of register number `reg`, `bits` wide. -/
  | read (reg : BitVec 4) (bits : Nat)
  /-- A host write of register number `reg`, `bits` wide. A write to CMD runs its operation as one atomic transition (R52). -/
  | write (reg : BitVec 4) (bits : Nat) (value : BitVec bits)
  /-- A CMD write whose operation is left in flight (R31 steps 1 and 2), so that later events fall while BUSY = 1. -/
  | issue (cmd : Byte)
  /-- A read of `count` bytes from byte address `addr` of the register window (R11, R50). -/
  | busRead (addr count : Nat)
  /-- A write of bytes from byte address `addr` of the register window on (R11, R50). -/
  | busWrite (addr : Nat) (bytes : List Byte)
  /-- The core takes one core step (R87, R101). -/
  | tick
  /-- The host reads STATUS until DONE = 1 (R70, R139 step 5). -/
  | poll
  /-- The host or another agent reads the memory byte at `addr`. -/
  | memRead (addr : Nat)
  /-- The host or another agent writes the memory byte at `addr`. -/
  | memWrite (addr : Nat) (value : Byte)
  /-- The platform's reset input to the addressed core (R137, R138). -/
  | reset
  /-- The host turns to core number `k` of the N_INST cores (R133). -/
  | select (k : Nat)
  deriving DecidableEq, Repr

/-- What the last host read returned (log entry 15). -/
inductive Reply where
  /-- A register's whole value (R50). -/
  | value (v : Nat)
  /-- The bytes of a register as they lie in the register window, lowest address first. -/
  | bytes (bs : List Byte)
  /-- A memory byte. -/
  | byte (b : Byte)
  deriving DecidableEq, Repr

/-- The machine: platform parameters, the N_INST cores (`before` ++ `core` :: `after`, so N_INST ≥ 1 holds by construction; the host
addresses `core`), platform memory, and the model's own fields `host`, `reply` and `fresh` (log entries 6, 15, 9 and 10). -/
@[ext]
structure State where
  plat : Config.Platform
  before : List CodecCore
  core : CodecCore
  after : List CodecCore
  mem : Memory
  host : List HostEvent
  reply : Option Reply
  fresh : Nat
  deriving DecidableEq, Repr

/-- The faults: the eleven of R122, each "an outcome the model gives no meaning", and one of the model's own. A fault ends the run
and leaves no state (R123). Each is safe: the model stops where the hardware's behaviour is unconstrained. -/
inductive Fault where
  /-- ENCU with DST_LEN < encode_capacity(n); DECU with n > 1 and DST_LEN < n − 1 (R124). Raised by ENCU, DECU. Safe. -/
  | uncheckedPrecondition
  /-- encode_capacity(n) ≥ 2^W (R75). Raised by ENCCAP, ENC, ENCU. Safe. -/
  | capacityOverflow
  /-- A region runs past address 2^W − 1 (R43). Raised by ENC, ENCU, DEC, DECU. Safe. -/
  | regionWrap
  /-- The source and destination regions intersect (R44). Raised by ENC, ENCU, DEC, DECU. Safe. -/
  | regionOverlap
  /-- A region holds an address that is not ordinary memory (R45). Raised by ENC, ENCU, DEC, DECU. Safe. -/
  | unbackedRegion
  /-- A CMD write while BUSY = 1 (R31, R140 H1). Raised by the host. Safe. -/
  | commandWhileBusy
  /-- An operand-register write while BUSY = 1 (R38, R140 H2). Raised by the host. Safe. -/
  | operandWriteWhileBusy
  /-- Another agent accesses either region while BUSY = 1 (R52, R140 H3), another core included (R133). Safe. -/
  | regionAccessWhileBusy
  /-- A host read of a register that holds no value (R28). Raised by the host. Safe. -/
  | readNoValue
  /-- An access to register number 0xC to 0xF (R29). Raised by the host. Safe. -/
  | reservedRegister
  /-- A register access that is not of the register's whole width: narrower (R50), or wider (log entry 25). Raised by the host. Safe. -/
  | partialRegisterAccess
  /-- The model's own: a host memory access to an address outside the 2^W addresses of R40, or to one the platform does not back with
  memory the access may reach (R45). Raised by `memRead`, `memWrite`. Safe (log entry 13). -/
  | noMemoryHere
  deriving DecidableEq, Repr

/-- The refusals: no meaning for what was asked. -/
inductive Refusal where
  /-- An instruction without a meaning in the model (none is left). Raised by `exec`. Safe. -/
  | notModelled (mnemonic : String)
  /-- A host memory access to a device byte, whose behaviour the spec does not give (R45, R132). Raised by `memRead`, `memWrite`. Safe. -/
  | deviceAccess
  /-- A byte-addressed register access where the platform places no register (R49, R50). Raised by `busRead`, `busWrite`. Safe. -/
  | noRegisterHere
  /-- The host addresses a core number that is not below N_INST (R10). Raised by `select`. Safe. -/
  | noSuchCore
  /-- The decoder's walk did not end within its bound of 3n core steps. Unreachable by R101 (log entry 23). Raised by DEC, DECU. Safe. -/
  | walkUnfinished
  deriving DecidableEq, Repr

/-- What a step of this machine answers. -/
abbrev Out := Host.Outcome State Fault Refusal

/-- No operand register holds a value (R136). -/
def Operands.empty : Operands := { srcBase := none, srcLen := none, dstBase := none, dstLen := none }

/-- A core after reset (R136): BUSY = 0, DONE = 0, every other register without a value, no operation in flight. -/
def CodecCore.reset : CodecCore where
  status := { code := none, busy := false, done := false }
  operands := Operands.empty
  result := none
  errAt := none
  errMarker := none
  errLen := none
  errHave := none
  errWant := none
  op := none

/-- The machine at power-on on platform `p` with `extra` more cores beside the addressed one and memory `m`. -/
def State.powerOn (p : Config.Platform) (extra : Nat) (m : Memory) : State where
  plat := p
  before := []
  core := CodecCore.reset
  after := List.replicate extra CodecCore.reset
  mem := m
  host := []
  reply := none
  fresh := 0

/-- The machine right after reset (R136), on the standard platform with one core and nothing listed in memory (log entries 1, 2, 3, 12). -/
def State.reset : State := State.powerOn Config.Platform.standard 0 []

end Sys2Proof.Machine
end

