-- ==== Sys2Proof/Machine/Ops.lean ====
section
/-! DEFINITION. The operations over memory (20_memory.md) and the completion of an operation (10_state.md R27, R31; 60_exceptions.md R121).

This hardware takes no exceptions: "Reporting an error is not a trap: No state is saved. No handler, vector, mode, mask or stack
exists" (R126), and "No return-from-error command exists" (R127). Its one shared way to report is `CodecCore.complete`, which is both
`raise E(fields)` and `finish(r)` of R121. -/

namespace Sys2Proof.Machine

/-! ### Memory -/

/-- The byte at `a`: the listed one, else `Memory.blank`. -/
def Memory.read : Memory → Nat → Byte
  | [], _ => Memory.blank
  | (b, v) :: rest, a => if a = b then v else Memory.read rest a

/-- The memory without an entry for `a`. -/
def Memory.erase (m : Memory) (a : Nat) : Memory := m.filter fun c => c.1 ≠ a

/-- The entry for `a` in front of `rest`, left out when it says what an unlisted address reads as. -/
def Memory.put (a : Nat) (v : Byte) (rest : Memory) : Memory :=
  if v = Memory.blank then rest else (a, v) :: rest

/-- Puts an entry for `a` before the first higher address. -/
def Memory.place : Memory → Nat → Byte → Memory
  | [], a, v => Memory.put a v []
  | (b, w) :: rest, a, v =>
    if a < b then Memory.put a v ((b, w) :: rest) else (b, w) :: Memory.place rest a v

/-- MemWrite(a, 1, v) (R15, R46): one byte stored, the canonical form kept. -/
def Memory.write (m : Memory) (a : Nat) (v : Byte) : Memory := Memory.place (m.erase a) a v

/-- The bytes at `a`, `a + 1`, … : `k` of them, lowest address first (R13, R46). -/
def Memory.readBytes (m : Memory) (a : Nat) : Nat → List Byte
  | 0 => []
  | k + 1 => m.read a :: Memory.readBytes m (a + 1) k

/-- Places bytes at `a`, `a + 1`, … (R71 `.bytes`). -/
def Memory.writeBytes (m : Memory) (a : Nat) : List Byte → Memory
  | [] => m
  | b :: bs => Memory.writeBytes (m.write a b) (a + 1) bs

/-- The canonical form: addresses strictly rising, and no entry equal to what an unlisted address reads as. -/
def Memory.wf (m : Memory) : Bool :=
  decide ((m.map (·.1)).Pairwise (· < ·)) && m.all fun c => decide (c.2 ≠ Memory.blank)

/-- Memory with the `k` bytes from `a` on unspecified: each holds a free value, number `f`, `f + 1`, … (R53, R137; log entry 10). -/
def Memory.scramble (m : Memory) (a : Nat) : Nat → Nat → Memory
  | 0, _ => m
  | k + 1, f => Memory.scramble (m.write a (Config.freeByte f)) (a + 1) k (f + 1)

/-- Makes the `k` bytes from `a` on unspecified; the free values drawn are counted. -/
def State.scramble (s : State) (a k : Nat) : State :=
  { s with mem := s.mem.scramble a k s.fresh, fresh := s.fresh + k }

/-- The free-value counter at `f`: the draws before number `f` have been made. -/
def State.drawn (s : State) (f : Nat) : State := { s with fresh := f }

/-! ### Outcomes and completion -/

/-- How an operation ends when it does not fault: OK with its result, or an error status with its fields (R65, R112, R114 to R120). -/
inductive OpOutcome where
  | ok (r : Nat)
  | emptyInput
  | bufferTooSmall (given want : Nat)
  | zeroMarker (pos : Nat)
  | zeroBinary (pos : Nat)
  | chunkOverflow (pos : Nat) (marker : Byte) (len : Nat)
  | invalidArgument
  | illegalCommand
  deriving DecidableEq, Repr

/-- STATUS.CODE (R65). -/
def OpOutcome.code : OpOutcome → Byte
  | .ok _ => 0x00#8
  | .emptyInput => 0x01#8
  | .bufferTooSmall _ _ => 0x02#8
  | .zeroMarker _ => 0x03#8
  | .zeroBinary _ => 0x04#8
  | .chunkOverflow _ _ _ => 0x05#8
  | .invalidArgument => 0x06#8
  | .illegalCommand => 0x07#8

/-- RESULT after the completion (R27): a value after OK only. -/
def OpOutcome.result : OpOutcome → Option Nat
  | .ok r => some r
  | .emptyInput => none
  | .bufferTooSmall _ _ => none
  | .zeroMarker _ => none
  | .zeroBinary _ => none
  | .chunkOverflow _ _ _ => none
  | .invalidArgument => none
  | .illegalCommand => none

/-- ERR_AT after the completion (R27, R102 to R104). -/
def OpOutcome.errAt : OpOutcome → Option Nat
  | .ok _ => none
  | .emptyInput => none
  | .bufferTooSmall _ _ => none
  | .zeroMarker pos => some pos
  | .zeroBinary pos => some pos
  | .chunkOverflow pos _ _ => some pos
  | .invalidArgument => none
  | .illegalCommand => none

/-- ERR_MARKER and ERR_LEN after the completion (R27, R103). -/
def OpOutcome.overflow : OpOutcome → Option (Byte × Nat)
  | .ok _ => none
  | .emptyInput => none
  | .bufferTooSmall _ _ => none
  | .zeroMarker _ => none
  | .zeroBinary _ => none
  | .chunkOverflow _ marker len => some (marker, len)
  | .invalidArgument => none
  | .illegalCommand => none

/-- ERR_HAVE and ERR_WANT after the completion (R27, R115). -/
def OpOutcome.tooSmall : OpOutcome → Option (Nat × Nat)
  | .ok _ => none
  | .emptyInput => none
  | .bufferTooSmall given want => some (given, want)
  | .zeroMarker _ => none
  | .zeroBinary _ => none
  | .chunkOverflow _ _ _ => none
  | .invalidArgument => none
  | .illegalCommand => none

/-- ZERO_MARKER, ZERO_BINARY and CHUNK_OVERFLOW: the errors found in the frame (R53, R125 step 4). -/
def OpOutcome.isFrameError : OpOutcome → Bool
  | .ok _ => false
  | .emptyInput => false
  | .bufferTooSmall _ _ => false
  | .zeroMarker _ => true
  | .zeroBinary _ => true
  | .chunkOverflow _ _ _ => true
  | .invalidArgument => false
  | .illegalCommand => false

/-- Completion (R31 step 4, R121): CODE and exactly the result registers of R27 are written, every other result register becomes no
value, BUSY = 0, DONE = 1, nothing is in flight. The operand registers are never written by the core (R24). -/
def CodecCore.complete (c : CodecCore) (o : OpOutcome) : CodecCore where
  status := { code := some o.code, busy := false, done := true }
  operands := c.operands
  result := o.result
  errAt := o.errAt
  errMarker := o.overflow.map (·.1)
  errLen := o.overflow.map (·.2)
  errHave := o.tooSmall.map (·.1)
  errWant := o.tooSmall.map (·.2)
  op := none

/-- The addressed core completes its operation; memory is as it stands. -/
def State.complete (s : State) (o : OpOutcome) : State := { s with core := s.core.complete o }

/-- A fault the latched operands establish is the outcome (R125 step 1), whatever `next` would do. -/
def unlessFault (f : Option Fault) (next : Out) : Out :=
  match f with
  | some x => .fault x
  | none => next

/-- `raise E(fields)` for an error status found before the transform's core procedure (R121, R125 steps 2 and 3), else `go`. -/
def State.raiseOr (s : State) (e : Option OpOutcome) (go : Out) : Out :=
  match e with
  | some o => .next (s.complete o)
  | none => go

end Sys2Proof.Machine
end

