-- ==== Sys2Proof/Machine/Flags.lean ====
section
/-! DEFINITION. The flags BUSY and DONE and the STATUS word (10_state.md R23, R37). The core has no condition codes and no
arithmetic flags (R37); E_LASTZ is a working register of the encoder. -/

namespace Sys2Proof.Machine

/-- The CODE field of a STATUS read: the code, or the free value `free` while it holds none (R23). -/
def Status.codeField (st : Status) (free : Byte) : Byte :=
  match st.code with
  | some c => c
  | none => free

/-- The STATUS word (R23): bits [15:10] read 0, DONE is bit 9, BUSY is bit 8, CODE is [7:0]. -/
def Status.word (st : Status) (free : Byte) : BitVec 16 :=
  0b000000#6 ++ BitVec.ofBool st.done ++ BitVec.ofBool st.busy ++ st.codeField free

/-- STATUS at the start of an operation (R31 step 2): BUSY = 1, DONE = 0, CODE without a value. -/
def Status.started : Status := { code := none, busy := true, done := false }

/-- Continues only while BUSY = 0; a CMD write while BUSY = 1 is `fault(CommandWhileBusy)` (R31, R140 H1). -/
def whenIdle (s : State) (next : Out) : Out :=
  if s.core.status.busy then .fault .commandWhileBusy else next

end Sys2Proof.Machine
end

