-- ==== Sys2Proof/Machine/Operands.lean ====
section
/-! DEFINITION. The operand registers as the commands read them (10_state.md R24, R38; 30_encoding.md R63) and the region checks
(20_memory.md R43 to R45, R52; 60_exceptions.md R133). -/

namespace Sys2Proof.Machine

/-- The four operands of a transform: the payload or frame is the `n` bytes at `src`, the destination the `d` bytes at `dst` (R24). -/
@[ext]
structure Transfer where
  src : Nat
  n : Nat
  dst : Nat
  d : Nat
  deriving DecidableEq, Repr

/-- The operands of a transform, if all four registers hold a value. -/
def Operands.transfer (o : Operands) : Option Transfer :=
  match o.srcBase, o.srcLen, o.dstBase, o.dstLen with
  | some src, some n, some dst, some d => some { src := src, n := n, dst := dst, d := d }
  | _, _, _, _ => none

/-- The operand registers holding a transform's operands. -/
def Transfer.operands (t : Transfer) : Operands :=
  { srcBase := some t.src, srcLen := some t.n, dstBase := some t.dst, dstLen := some t.d }

/-- What a command latches from an operand register it reads, and the free-value counter after it (R31 step 1): the register's value; a free
W-bit value where the register "holds no value" and so "has no defined content" (R28). DESIGN CHOICE (log entry 5, safe): the
fault R28 orders is that of a host read, and the spec states none for a command. -/
def latchWord (w f : Nat) : Option Nat → Nat × Nat
  | some v => (v, f)
  | none => ((Config.freeWord w f).toNat, f + 1)

/-- The one operand of ENCCAP and DECCAP (R24, R63), and the counter after it. -/
def Operands.readLength (o : Operands) (w f : Nat) : Nat × Nat := latchWord w f o.srcLen

/-- The four operands of a transform (R24, R63), and the counter after them. -/
def Operands.readTransfer (o : Operands) (w f : Nat) : Transfer × Nat :=
  let src := latchWord w f o.srcBase
  let n := latchWord w src.2 o.srcLen
  let dst := latchWord w n.2 o.dstBase
  let d := latchWord w dst.2 o.dstLen
  ({ src := src.1, n := n.1, dst := dst.1, d := d.1 }, d.2)

/-- Goes on with the operand of ENCCAP and DECCAP. -/
def withLength (o : Operands) (s : State) (next : Nat → State → Out) : Out :=
  let r := o.readLength s.plat.width s.fresh
  next r.1 (s.drawn r.2)

/-- Goes on with the operands of a transform. -/
def withTransfer (o : Operands) (s : State) (next : Transfer → State → Out) : Out :=
  let r := o.readTransfer s.plat.width s.fresh
  next r.1 (s.drawn r.2)

/-! ### Memory the platform backs (R45, R49) -/

/-- The map entry covers the address. -/
def mapCovers (e : Config.MapEntry) (a : Nat) : Bool := decide (e.base ≤ a ∧ a < e.base + e.size)

/-- What the platform has at an address: the first map entry that covers it (log entry 2). -/
def entryAt (p : Config.Platform) (a : Nat) : Option Config.MapEntry := p.map.find? fun e => mapCovers e a

/-- Ordinary memory that can be read (R45). -/
def readableAt (p : Config.Platform) (a : Nat) : Bool :=
  match entryAt p a with
  | some e => e.kind == .ordinary && e.readable
  | none => false

/-- Ordinary memory that can be written (R45). -/
def writableAt (p : Config.Platform) (a : Nat) : Bool :=
  match entryAt p a with
  | some e => e.kind == .ordinary && e.writable
  | none => false

/-! ### Regions -/

/-- Two regions overlap "when both lengths are non-zero and the address intervals intersect" (R44). -/
def overlaps (a k b l : Nat) : Bool := decide (0 < k ∧ 0 < l ∧ a < b + l ∧ b < a + k)

/-- A region runs past the top of the address space (R43). -/
def wraps (p : Config.Platform) (a k : Nat) : Bool := decide (2 ^ p.width < a + k)

/-- The operands of the transform a core has in flight, if it has one and all four registers were latched with a value. -/
def CodecCore.runningTransfer (c : CodecCore) : Option Transfer :=
  match c.op with
  | none => none
  | some fl =>
    match decodeCmd fl.cmd with
    | none => none
    | some i => if i.isTransform then fl.latched.transfer else none

/-- The regions (base, length) of a core's operation in flight (R41, R42): none unless it is a transform. -/
def CodecCore.runningRegions (c : CodecCore) : List (Nat × Nat) :=
  match c.runningTransfer with
  | none => []
  | some t => [(t.src, t.n), (t.dst, t.d)]

/-- The region meets a region of a running operation of one of the cores. -/
def meetsRunning (cores : List CodecCore) (a k : Nat) : Bool :=
  cores.any fun c => c.runningRegions.any fun r => overlaps a k r.1 r.2

/-- The cores beside the addressed one. -/
def State.others (s : State) : List CodecCore := s.before ++ s.after

/-- "every region of every running operation is disjoint from every other" (R133): `t` meets a region of another core's operation. -/
def meetsOthers (s : State) (t : Transfer) : Bool :=
  meetsRunning s.others t.src t.n || meetsRunning s.others t.dst t.d

/-- REGION_CHECKS() (R43 to R45), with the disjointness from other cores' operations (R52, R133). "Which fault is named does not
matter" (R125); the order here is log entry 20. `none`: the regions are admitted. -/
def regionFault (s : State) (t : Transfer) : Option Fault :=
  if wraps s.plat t.src t.n then some .regionWrap
  else if wraps s.plat t.dst t.d then some .regionWrap
  else if overlaps t.src t.n t.dst t.d then some .regionOverlap
  else if !(List.range t.n).all fun i => readableAt s.plat (t.src + i) then some .unbackedRegion
  else if !(List.range t.d).all fun i => writableAt s.plat (t.dst + i) then some .unbackedRegion
  else if meetsOthers s t then some .regionAccessWhileBusy
  else none

/-! ### The bytes of a transform -/

/-- SrcRead(i) (R15). -/
def Transfer.srcRead (t : Transfer) (m : Memory) (i : Nat) : Byte := m.read (t.src + i)

/-- DstWrite(i, v) (R15). -/
def Transfer.dstWrite (t : Transfer) (m : Memory) (i : Nat) (v : Byte) : Memory := m.write (t.dst + i) v

/-- Completion of a transform whose core procedure left memory `m`. After OK the destination bytes from RESULT on are unspecified, after a
frame error every destination byte, otherwise none (R53). -/
def State.settle (s : State) (t : Transfer) (o : OpOutcome) (m : Memory) : State :=
  let s1 := ({ s with mem := m } : State).complete o
  match o with
  | .ok r => s1.scramble (t.dst + r) (t.d - r)
  | .zeroMarker _ => s1.scramble t.dst t.d
  | .zeroBinary _ => s1.scramble t.dst t.d
  | .chunkOverflow _ _ _ => s1.scramble t.dst t.d
  | .emptyInput => s1
  | .bufferTooSmall _ _ => s1
  | .invalidArgument => s1
  | .illegalCommand => s1

end Sys2Proof.Machine
end

