-- ==== Sys2Proof/Machine/Capacity.lean ====
section
/-! DEFINITION. The frame capacity calculator: ENCCAP and DECCAP (40_capacity.md). -/

namespace Sys2Proof.Machine

/-- ⌈a / b⌉ for b > 0 (R14). -/
def ceilDiv (a b : Nat) : Nat := (a + (b - 1)) / b

/-- `encode_capacity(n) = n + ceil_div(n, 254) + 1` (R72). -/
def encodeCapacity (n : Nat) : Nat := n + ceilDiv n Config.maxData + 1

/-- `decode_capacity(n) = n − 1` for n ≥ 1; "It has no value for n = 0, and fails instead" (R73). -/
def decodeCapacity (n : Nat) : Option Nat := if n = 0 then none else some (n - 1)

/-- "encode_capacity(n) ≥ 2^W" is `fault(CapacityOverflow)` (R75). -/
def capacityFault (s : State) (n : Nat) : Option Fault :=
  if 2 ^ s.plat.width ≤ encodeCapacity n then some .capacityOverflow else none

/-- How ENCCAP completes (R76). -/
def enccapOutcome (n : Nat) : OpOutcome := .ok (encodeCapacity n)

/-- How DECCAP completes (R77, R119). -/
def deccapOutcome (n : Nat) : OpOutcome :=
  match decodeCapacity n with
  | none => .invalidArgument
  | some v => .ok v

/-- **ENCCAP** (R76), from the CMD write to completion as one transition (R52). -/
def execEnccap (s : State) : Out :=
  whenIdle s <| withLength s.core.operands s fun n s1 =>
    unlessFault (capacityFault s1 n) (.next (s1.complete (enccapOutcome n)))

/-- **DECCAP** (R77), from the CMD write to completion as one transition (R52). -/
def execDeccap (s : State) : Out :=
  whenIdle s <| withLength s.core.operands s fun n s1 => .next (s1.complete (deccapOutcome n))

end Sys2Proof.Machine
end

