-- ==== Sys2Proof/Machine/Decoder.lean ====
section
/-! DEFINITION. The decoder: DECODE_CORE and the commands DEC and DECU (42_decoder.md). -/

namespace Sys2Proof.Machine

/-- What one step of the state walk leads to (R96): the walk goes on, or it ends with an outcome. -/
inductive Walk where
  | running (d : DecRegs) (m : Memory)
  | ended (o : OpOutcome) (m : Memory)
  deriving DecidableEq, Repr

/-- READ_MARKER_STEP (R97), which reads D_I and D_O of the working registers and nothing else of them. -/
def readMarkerStep (t : Transfer) (i o : Nat) (m : Memory) : Walk :=
  let mk := t.srcRead m i
  if mk = 0x00#8 then .ended (.zeroMarker i) m
  else if t.n < (i + 1) + (mk.toNat - 1) then .ended (.chunkOverflow i mk t.n) m
  else .running { state := .copyChunk, i := i + 1, o := o, p := i, marker := mk, k := mk.toNat - 1 } m

/-- COPY_STEP (R98). The zero byte is tested before it would be stored; "That cannot be observed" (R98; log entry 24). -/
def copyStep (t : Transfer) (d : DecRegs) (m : Memory) : Walk :=
  if d.k = 0 then .running { d with state := .maybeInsertSentinel } m
  else
    let b := t.srcRead m d.i
    if b = Config.sentinel then .ended (.zeroBinary d.i) m
    else .running { d with i := d.i + 1, o := d.o + 1, k := d.k - 1 } (t.dstWrite m d.o b)

/-- MAYBE_INSERT_STEP (R99). -/
def maybeInsertStep (t : Transfer) (d : DecRegs) (m : Memory) : Walk :=
  if d.i = t.n then .ended (.ok d.o) m
  else if d.marker.toNat ≠ Config.maxMarker then
    .running { d with state := .readMarker, o := d.o + 1 } (t.dstWrite m d.o Config.sentinel)
  else .running { d with state := .readMarker } m

/-- One step of the state walk (R96), by D_STATE. -/
def decStep (t : Transfer) (d : DecRegs) (m : Memory) : Walk :=
  match d.state with
  | .readMarker => readMarkerStep t d.i d.o m
  | .copyChunk => copyStep t d m
  | .maybeInsertSentinel => maybeInsertStep t d m

/-- The first step of DECODE_CORE (R96): the one-byte frame [0x01] at once (R100), else D_I = 0, D_O = 0 and the first
READ_MARKER_STEP. D_P, D_MK and D_K hold no value before that step (R36). -/
def decFirst (t : Transfer) (m : Memory) : Walk :=
  if t.n = 1 ∧ t.srcRead m 0 = 0x01#8 then .ended (.ok 0) m else readMarkerStep t 0 0 m

/-- The loop of DECODE_CORE (R96) for at most `k` more steps; `none` if it has not ended by then. -/
def decLoop (t : Transfer) : Nat → Walk → Option (OpOutcome × Memory)
  | _, .ended o m => some (o, m)
  | 0, .running _ _ => none
  | k + 1, .running d m => decLoop t k (decStep t d m)

/-- DECODE_CORE(n) (R96), with the bound of R101: "The walk of a frame of length n takes at most 3n core steps". -/
def decodeCore (t : Transfer) (m : Memory) : Option (OpOutcome × Memory) := decLoop t (3 * t.n) (decFirst t m)

/-- The faults DEC's latched operands establish (R105, R125 step 1). -/
def decFault (s : State) (t : Transfer) : Option Fault := regionFault s t

/-- The faults DECU's latched operands establish (R106, R124, R125 step 1): those of DEC, and the precondition. -/
def decuFault (s : State) (t : Transfer) : Option Fault :=
  (decFault s t).or (if 1 < t.n ∧ t.d < t.n - 1 then some .uncheckedPrecondition else none)

/-- The error status DECU finds before DECODE_CORE: EMPTY_INPUT (R106, R114). -/
def decuError (t : Transfer) : Option OpOutcome := if t.n = 0 then some .emptyInput else none

/-- The error statuses DEC finds before DECODE_CORE: EMPTY_INPUT, then BUFFER_TOO_SMALL (R105, R125 steps 2 and 3). -/
def decError (t : Transfer) : Option OpOutcome :=
  (decuError t).or
    (match decodeCapacity t.n with
    | none => none
    | some want => if 1 < t.n ∧ t.d < want then some (.bufferTooSmall t.d want) else none)

/-- DECODE_CORE and the completion with its outcome (R105, R106). -/
def decodeAll (s : State) (t : Transfer) : Out :=
  match decodeCore t s.mem with
  | some r => .next (s.settle t r.1 r.2)
  | none => .refused .walkUnfinished

/-- **DEC** (R105), from the CMD write to completion as one transition (R52). -/
def execDec (s : State) : Out :=
  whenIdle s <| withTransfer s.core.operands s fun t s1 =>
    unlessFault (decFault s1 t) (s1.raiseOr (decError t) (decodeAll s1 t))

/-- **DECU** (R106), from the CMD write to completion as one transition (R52). -/
def execDecu (s : State) : Out :=
  whenIdle s <| withTransfer s.core.operands s fun t s1 =>
    unlessFault (decuFault s1 t) (s1.raiseOr (decuError t) (decodeAll s1 t))

end Sys2Proof.Machine
end

