-- ==== Sys2Proof/Machine/Encoder.lean ====
section
/-! DEFINITION. The encoder: ENCODE_CORE and the commands ENC and ENCU (41_encoder.md). -/

namespace Sys2Proof.Machine

/-- ENCODE_CORE step 2 (R83): E_M = 0, E_C = 1, E_L = 1, E_LASTZ = 0, E_I = 0. -/
def encInit : EncRegs := { i := 0, c := 1, m := 0, l := 1, lastz := false }

/-- NONSENTINEL_STEP(b) (R84), E_I already advanced. -/
def nonsentinelStep (t : Transfer) (b : Byte) (e : EncRegs) (m : Memory) : EncRegs × Memory :=
  let m1 := t.dstWrite m e.c b
  let c1 := e.c + 1
  let l1 := e.l + 1
  if l1 = Config.maxMarker then
    ({ e with c := c1 + 1, m := c1, l := 1, lastz := false }, t.dstWrite m1 e.m (BitVec.ofNat 8 l1))
  else
    ({ e with c := c1, l := l1, lastz := false }, m1)

/-- SENTINEL_STEP() (R85), E_I already advanced. -/
def sentinelStep (t : Transfer) (e : EncRegs) (m : Memory) : EncRegs × Memory :=
  ({ e with m := e.c, c := e.c + 1, l := 1, lastz := true }, t.dstWrite m e.m (BitVec.ofNat 8 e.l))

/-- One iteration of ENCODE_CORE step 3 (R83): one payload byte. -/
def encByteStep (t : Transfer) (e : EncRegs) (m : Memory) : EncRegs × Memory :=
  let b := t.srcRead m e.i
  let e1 := { e with i := e.i + 1 }
  if b ≠ Config.sentinel then nonsentinelStep t b e1 m else sentinelStep t e1 m

/-- Finalization (R83 step 4, R86): the frame length and the memory. -/
def encFinalize (t : Transfer) (e : EncRegs) (m : Memory) : Nat × Memory :=
  if 1 < e.l ∨ e.lastz = true then (e.c, t.dstWrite m e.m (BitVec.ofNat 8 e.l)) else (e.c - 1, m)

/-- The loop of ENCODE_CORE step 3 (R83), `k` payload bytes being left. -/
def encLoop (t : Transfer) : Nat → EncRegs → Memory → EncRegs × Memory
  | 0, e, m => (e, m)
  | k + 1, e, m =>
    let r := encByteStep t e m
    encLoop t k r.1 r.2

/-- ENCODE_CORE step 1 (R83): the empty payload gives the single byte 0x01 and length 1. -/
def encEmpty (t : Transfer) (m : Memory) : Nat × Memory := (1, t.dstWrite m 0 0x01#8)

/-- ENCODE_CORE(n) (R83): the frame length and the memory. -/
def encodeCore (t : Transfer) (m : Memory) : Nat × Memory :=
  if t.n = 0 then encEmpty t m
  else
    let r := encLoop t t.n encInit m
    encFinalize t r.1 r.2

/-- The faults ENC's latched operands establish (R88, R125 step 1). -/
def encFault (s : State) (t : Transfer) : Option Fault := (regionFault s t).or (capacityFault s t.n)

/-- The faults ENCU's latched operands establish (R89, R124, R125 step 1): those of ENC, and the precondition, "judged on the latched
lengths alone, before any memory access". -/
def encuFault (s : State) (t : Transfer) : Option Fault :=
  (encFault s t).or (if t.d < encodeCapacity t.n then some .uncheckedPrecondition else none)

/-- The error status ENC finds before ENCODE_CORE (R88). -/
def encError (t : Transfer) : Option OpOutcome :=
  if t.d < encodeCapacity t.n then some (.bufferTooSmall t.d (encodeCapacity t.n)) else none

/-- ENCODE_CORE and `finish` with its result (R88, R89). -/
def encodeAll (s : State) (t : Transfer) : State :=
  let r := encodeCore t s.mem
  s.settle t (.ok r.1) r.2

/-- **ENC** (R88), from the CMD write to completion as one transition (R52). -/
def execEnc (s : State) : Out :=
  whenIdle s <| withTransfer s.core.operands s fun t s1 =>
    unlessFault (encFault s1 t) (s1.raiseOr (encError t) (.next (encodeAll s1 t)))

/-- **ENCU** (R89), from the CMD write to completion as one transition (R52). -/
def execEncu (s : State) : Out :=
  whenIdle s <| withTransfer s.core.operands s fun t s1 => unlessFault (encuFault s1 t) (.next (encodeAll s1 t))

end Sys2Proof.Machine
end

