-- ==== Sys2Proof/Machine/CoreSteps.lean ====
section
/-! DEFINITION. An operation in flight: its start (10_state.md R31), its core steps (41_encoder.md R87, 42_decoder.md R101, 70 R144),
and illegal command words (30_encoding.md R66). Which lines fall into which core step is log entry 11. -/

namespace Sys2Proof.Machine

/-- R31 steps 1 and 2 on a core: the command and the operands `o` are latched, BUSY = 1, DONE = 0, CODE and every result register become
no value. The operand registers themselves are not written (R24). -/
def CodecCore.start (c : CodecCore) (cmd : Byte) (o : Operands) : CodecCore where
  status := Status.started
  operands := c.operands
  result := none
  errAt := none
  errMarker := none
  errLen := none
  errHave := none
  errWant := none
  op := some { cmd := cmd, latched := o, work := .started }

/-- An operation is in flight in the addressed core, no core step of it taken. -/
def State.start (s : State) (cmd : Byte) (o : Operands) : State := { s with core := s.core.start cmd o }

/-- The fault a sizing command's latched operand establishes (R125 step 1); a transform has none of its own here. -/
def lengthFault (i : Instr) (s : State) (n : Nat) : Option Fault :=
  match i with
  | .enccap => capacityFault s n
  | .deccap => none
  | .enc => none
  | .encu => none
  | .dec => none
  | .decu => none

/-- The fault a transform's latched operands establish (R125 step 1); a sizing command has none of these. -/
def transferFault (i : Instr) (s : State) (t : Transfer) : Option Fault :=
  match i with
  | .enccap => none
  | .deccap => none
  | .enc => encFault s t
  | .encu => encuFault s t
  | .dec => decFault s t
  | .decu => decuFault s t

/-- The start of a legal command: its operands are latched, and the faults they establish are taken (R125 step 1), "before any memory
access" (R43, R124). An operand register it does not read is latched as it is (R24). -/
def startCommand (cmd : Byte) (i : Instr) (s : State) : Out :=
  if i.isTransform then
    withTransfer s.core.operands s fun t s1 => unlessFault (transferFault i s1 t) (.next (s1.start cmd t.operands))
  else
    withLength s.core.operands s fun n s1 =>
      unlessFault (lengthFault i s1 n) (.next (s1.start cmd { s.core.operands with srcLen := some n }))

/-- A CMD write that leaves its operation in flight (R31). "The core reads no operand register" for an illegal word (R66). -/
def issueCmd (cmd : Byte) (s : State) : Out :=
  whenIdle s <|
    match decodeCmd cmd with
    | none => .next (s.start cmd s.core.operands)
    | some i => startCommand cmd i s

/-- Replaces the working registers of the operation in flight. -/
def State.withWork (s : State) (w : Work) : State :=
  { s with core := { s.core with op := s.core.op.map fun fl => { fl with work := w } } }

/-- The init step of ENC and ENCU (R87): step 1 or step 2 of ENCODE_CORE. -/
def encodeFirst (s : State) (t : Transfer) : State :=
  if t.n = 0 then
    let r := encEmpty t s.mem
    s.settle t (.ok r.1) r.2
  else s.withWork (.encoding encInit)

/-- A later step of ENC and ENCU (R87): one payload byte, or the finalization. -/
def encodeNext (s : State) (t : Transfer) (e : EncRegs) : State :=
  if e.i < t.n then
    let r := encByteStep t e s.mem
    ({ s with mem := r.2 } : State).withWork (.encoding r.1)
  else
    let r := encFinalize t e s.mem
    s.settle t (.ok r.1) r.2

/-- The state after a step of the walk (R96): the walk's registers, or the completion. -/
def State.afterWalk (s : State) (t : Transfer) : Walk → State
  | .running d m => ({ s with mem := m } : State).withWork (.decoding d)
  | .ended o m => s.settle t o m

/-- The first core step of a command over its latched operands. The faults they establish were taken at the CMD write. -/
def firstStep (i : Instr) (o : Operands) (s : State) : Out :=
  match i with
  | .enccap => withLength o s fun n s1 => .next (s1.complete (enccapOutcome n))
  | .enc => withTransfer o s fun t s1 => s1.raiseOr (encError t) (.next (encodeFirst s1 t))
  | .encu => withTransfer o s fun t s1 => .next (encodeFirst s1 t)
  | .deccap => withLength o s fun n s1 => .next (s1.complete (deccapOutcome n))
  | .dec => withTransfer o s fun t s1 => s1.raiseOr (decError t) (.next (s1.afterWalk t (decFirst t s1.mem)))
  | .decu => withTransfer o s fun t s1 => s1.raiseOr (decuError t) (.next (s1.afterWalk t (decFirst t s1.mem)))

/-- One core step of the addressed core. An idle core does nothing (R135, R138). -/
def coreStep (s : State) : Out :=
  match s.core.op with
  | none => .next s
  | some fl =>
    match fl.work with
    | .started =>
      match decodeCmd fl.cmd with
      | none => .next (s.complete .illegalCommand)
      | some i => firstStep i fl.latched s
    | .encoding e => withTransfer fl.latched s fun t s1 => .next (encodeNext s1 t e)
    | .decoding d => withTransfer fl.latched s fun t s1 => .next (s1.afterWalk t (decStep t d s1.mem))

/-- `k` core steps of the addressed core, up to the first fault. -/
def coreSteps : Nat → State → Out
  | 0, s => .next s
  | k + 1, s =>
    match coreStep s with
    | .next s1 => coreSteps k s1
    | .fault f => .fault f
    | .refused r => .refused r

/-- An illegal command word as one transition (R66, R120): no operand and no memory is read. -/
def execIllegal (s : State) : Out := whenIdle s (.next (s.complete .illegalCommand))

end Sys2Proof.Machine
end

