-- ==== Sys2Proof/Machine/Dispatch.lean ====
section
/-! DEFINITION. One arm per command (30_encoding.md R61). -/

namespace Sys2Proof.Machine

def exec (i : Instr) (s : State) : Host.Outcome State Fault Refusal :=
  match i with
  | .enccap => Sys2Proof.Machine.execEnccap s
  | .enc => Sys2Proof.Machine.execEnc s
  | .encu => Sys2Proof.Machine.execEncu s
  | .deccap => Sys2Proof.Machine.execDeccap s
  | .dec => Sys2Proof.Machine.execDec s
  | .decu => Sys2Proof.Machine.execDecu s

end Sys2Proof.Machine
end

