-- ==== Sys2Proof/Machine/HostBus.lean ====
section
/-! DEFINITION. What the outside world does to the machine: register reads and writes (10_state.md R21 to R31; 20_memory.md R50), the CMD
write, polling, memory accesses by other agents (R52), reset (70_reset_and_hazards.md R136 to R138) and the choice of a core (R133). -/

namespace Sys2Proof.Machine

/-- The twelve interface registers (R21). -/
inductive Reg where
  | cmd
  | status
  | srcBase
  | srcLen
  | dstBase
  | dstLen
  | result
  | errAt
  | errMarker
  | errLen
  | errHave
  | errWant
  deriving DecidableEq, Repr

/-- The registers in the order of their numbers 0x0 to 0xB (R21). -/
def Reg.all : List Reg :=
  [.cmd, .status, .srcBase, .srcLen, .dstBase, .dstLen, .result, .errAt, .errMarker, .errLen, .errHave, .errWant]

/-- The register with a number; `none` for the reserved numbers 0xC to 0xF (R29). -/
def Reg.ofNumber (k : BitVec 4) : Option Reg := Reg.all[k.toNat]?

/-- A register's width in bits (R21, R50), W being the platform's. -/
def Reg.width (w : Nat) : Reg → Nat
  | .cmd => 8
  | .status => 16
  | .srcBase => w
  | .srcLen => w
  | .dstBase => w
  | .dstLen => w
  | .result => w
  | .errAt => w
  | .errMarker => 8
  | .errLen => w
  | .errHave => w
  | .errWant => w

/-! ### Register reads -/

/-- The STATUS word a read returns, and the counter after it: CODE without a value draws a free value (R23). -/
def State.statusRead (s : State) : BitVec 16 × Nat :=
  (s.core.status.word (Config.freeCode s.fresh), if s.core.status.code.isNone then s.fresh + 1 else s.fresh)

/-- A register's value and the free-value counter after the read; `none` where it holds no value. CMD never holds one (R22, R28). -/
def State.regValue (s : State) : Reg → Option (Nat × Nat)
  | .cmd => none
  | .status => some (s.statusRead.1.toNat, s.statusRead.2)
  | .srcBase => s.core.operands.srcBase.map fun v => (v, s.fresh)
  | .srcLen => s.core.operands.srcLen.map fun v => (v, s.fresh)
  | .dstBase => s.core.operands.dstBase.map fun v => (v, s.fresh)
  | .dstLen => s.core.operands.dstLen.map fun v => (v, s.fresh)
  | .result => s.core.result.map fun v => (v, s.fresh)
  | .errAt => s.core.errAt.map fun v => (v, s.fresh)
  | .errMarker => s.core.errMarker.map fun v => (v.toNat, s.fresh)
  | .errLen => s.core.errLen.map fun v => (v, s.fresh)
  | .errHave => s.core.errHave.map fun v => (v, s.fresh)
  | .errWant => s.core.errWant.map fun v => (v, s.fresh)

/-- A whole read of a register, answered in the form `reply`; without a value it is `fault(ReadNoValue)` (R28). -/
def readReg (r : Reg) (reply : Nat → Reply) (s : State) : Out :=
  match s.regValue r with
  | none => .fault .readNoValue
  | some v => .next { s with reply := some (reply v.1), fresh := v.2 }

/-- A host read of register number `k`, `bits` wide (R28, R29). "partial-width register accesses have no meaning" (R50); DESIGN CHOICE
(log entry 25): nor has an access wider than the register. DESIGN CHOICE (log entry 28): the width is judged before whether the register holds
a value. -/
def hostRead (k : BitVec 4) (bits : Nat) (s : State) : Out :=
  match Reg.ofNumber k with
  | none => .fault .reservedRegister
  | some r =>
    if bits ≠ r.width s.plat.width then .fault .partialRegisterAccess else readReg r .value s

/-! ### Register writes -/

/-- A CMD write run as one atomic transition (R31, R52, R62). -/
def writeCmd (c : Byte) (s : State) : Out :=
  match decodeCmd c with
  | some i => exec i s
  | none => execIllegal s

/-- A write of an operand register (R24); while BUSY = 1 it is `fault(OperandWriteWhileBusy)` (R38, R140 H2). -/
def writeOperands (o : Operands) (s : State) : Out :=
  if s.core.status.busy then .fault .operandWriteWhileBusy
  else .next { s with core := { s.core with operands := o } }

/-- A whole write of a register. "A host write to a read-only register (STATUS, RESULT or ERR_*) is ignored" (R30). -/
def writeReg (r : Reg) (v : Nat) (s : State) : Out :=
  match r with
  | .cmd => writeCmd (BitVec.ofNat 8 v) s
  | .status => .next s
  | .srcBase => writeOperands { s.core.operands with srcBase := some v } s
  | .srcLen => writeOperands { s.core.operands with srcLen := some v } s
  | .dstBase => writeOperands { s.core.operands with dstBase := some v } s
  | .dstLen => writeOperands { s.core.operands with dstLen := some v } s
  | .result => .next s
  | .errAt => .next s
  | .errMarker => .next s
  | .errLen => .next s
  | .errHave => .next s
  | .errWant => .next s

/-- A host write of register number `k`, `bits` wide (R29), with the width rule of `hostRead` (R50, log entry 25). DESIGN CHOICE (log entry 28):
the width is judged before BUSY (R31, R38) and before a read-only register ignores the write (R30). -/
def hostWrite (k : BitVec 4) (bits : Nat) (v : BitVec bits) (s : State) : Out :=
  match Reg.ofNumber k with
  | none => .fault .reservedRegister
  | some r =>
    if bits ≠ r.width s.plat.width then .fault .partialRegisterAccess else writeReg r v.toNat s

/-! ### The byte-addressed register window (R11, R49, R50; log entry 14) -/

/-- How many bytes a register takes in a byte-addressed space. -/
def Reg.byteCount (w : Nat) (r : Reg) : Nat := (r.width w + 7) / 8

/-- The byte order of a register in the window (R11). -/
def byteOrder (win : Config.RegWindow) : Reg → List Nat
  | .cmd => [0]
  | .status => win.statusOrder
  | .srcBase => win.wordOrder
  | .srcLen => win.wordOrder
  | .dstBase => win.wordOrder
  | .dstLen => win.wordOrder
  | .result => win.wordOrder
  | .errAt => win.wordOrder
  | .errMarker => [0]
  | .errLen => win.wordOrder
  | .errHave => win.wordOrder
  | .errWant => win.wordOrder

/-- The value whose bytes lie in the order `order`, lowest address first. -/
def valueOfBytes : List Nat → List Byte → Nat
  | k :: ks, b :: bs => b.toNat * 256 ^ k + valueOfBytes ks bs
  | _, _ => 0

/-- The bytes of a value in the order `order`, lowest address first. -/
def bytesOfValue (order : List Nat) (v : Nat) : List Byte := order.map fun k => BitVec.ofNat 8 (v / 256 ^ k)

/-- The register whose first byte lies at the address. -/
def regAtAddress (win : Config.RegWindow) (addr : Nat) : Option Reg :=
  ((Reg.all.zip win.base).find? fun x => decide (x.2 = addr)).map (·.1)

/-- The access touches a byte of some register. -/
def touchesRegister (w : Nat) (win : Config.RegWindow) (addr count : Nat) : Bool :=
  (Reg.all.zip win.base).any fun x => overlaps addr count x.2 (x.1.byteCount w)

/-- A byte-addressed register access of `count` bytes: an access to a whole register goes on, "partial-width register accesses have no
meaning" (R50). DESIGN CHOICE (log entry 25): an access that covers a register and further bytes, or several registers, has none either.
DESIGN CHOICE (log entry 26): the one window reaches the registers of the core the host now addresses. DESIGN CHOICE (log entry 28): as in
`hostRead` and `hostWrite`, the extent of the access is judged first. -/
def atRegister (addr count : Nat) (s : State) (next : Config.RegWindow → Reg → Out) : Out :=
  match s.plat.window with
  | none => .refused .noRegisterHere
  | some win =>
    match regAtAddress win addr with
    | some r => if count = r.byteCount s.plat.width then next win r else .fault .partialRegisterAccess
    | none => if touchesRegister s.plat.width win addr count then .fault .partialRegisterAccess else .refused .noRegisterHere

/-- The bits of a register's bytes above its width: none for CMD, STATUS and ERR_MARKER. -/
def Reg.padding (w : Nat) (r : Reg) : Nat := 8 * r.byteCount w - r.width w

/-- What the bits above a register's width read as, and the free-value counter after it. The spec gives them no value: where there are
any, each read draws a free one. DESIGN CHOICE (log entry 27). -/
def paddingRead (pad f : Nat) : Nat × Nat := if pad = 0 then (0, f) else ((Config.freeWord pad f).toNat, f + 1)

/-- A host read of `count` bytes in the register window. -/
def busRead (addr count : Nat) (s : State) : Out :=
  atRegister addr count s fun win r =>
    let top := paddingRead (r.padding s.plat.width) s.fresh
    readReg r (fun v => .bytes (bytesOfValue (byteOrder win r) (top.1 * 2 ^ r.width s.plat.width + v))) (s.drawn top.2)

/-- A host write of bytes in the register window. Where a bit above the register's width is not 0 the spec does not say what value the
register takes: it is a free one. DESIGN CHOICE (log entry 27). -/
def busWrite (addr : Nat) (bs : List Byte) (s : State) : Out :=
  atRegister addr bs.length s fun win r =>
    let v := valueOfBytes (byteOrder win r) bs
    let k := r.width s.plat.width
    if v < 2 ^ k then writeReg r v s else writeReg r (Config.freeWord k s.fresh).toNat (s.drawn (s.fresh + 1))

/-! ### Polling -/

/-- One read of STATUS by a polling host (R70, R139 step 5). With DONE = 1 the poll ends and `rest` is left to do; otherwise the host
polls again, and a busy core takes a core step meanwhile (log entry 19). -/
def pollStatus (rest : List HostEvent) (s : State) : Out :=
  let s1 : State := { s with reply := some (.value s.statusRead.1.toNat), fresh := s.statusRead.2 }
  if s.core.status.done then .next { s1 with host := rest } else coreStep s1

/-! ### Memory accesses by the host or another agent -/

/-- All cores of the platform, in the order of their numbers. -/
def State.allCores (s : State) : List CodecCore := s.before ++ s.core :: s.after

/-- An access by another agent than a core. In a region of a running operation it is `fault(RegionAccessWhileBusy)`, whatever the platform has
there (R52, R122, R140 H3); elsewhere it goes to memory that is there and allows it (log entry 13). -/
def atMemory (a : Nat) (allowed : Config.MapEntry → Bool) (s : State) (next : Out) : Out :=
  if meetsRunning s.allCores a 1 then .fault .regionAccessWhileBusy
  else if 2 ^ s.plat.width ≤ a then .fault .noMemoryHere
  else
    match entryAt s.plat a with
    | none => .fault .noMemoryHere
    | some e =>
      match e.kind with
      | .device => .refused .deviceAccess
      | .ordinary => if allowed e then next else .fault .noMemoryHere

/-- A read of a memory byte by the host or another agent. -/
def memRead (a : Nat) (s : State) : Out :=
  atMemory a (·.readable) s (.next { s with reply := some (.byte (s.mem.read a)) })

/-- A write of a memory byte by the host or another agent. -/
def memWrite (a : Nat) (v : Byte) (s : State) : Out :=
  atMemory a (·.writable) s (.next { s with mem := s.mem.write a v })

/-! ### Reset and the choice of a core -/

/-- The reset input to the addressed core (R136, R137): its registers as after reset, and every destination byte of an abandoned
transform unspecified. Memory is otherwise not touched, nor are the other cores (log entry 16). -/
def resetCore (s : State) : State :=
  let s1 :=
    match s.core.runningTransfer with
    | none => s
    | some t => s.scramble t.dst t.d
  { s1 with core := CodecCore.reset }

/-- The host turns to core number `k` (R133). -/
def selectCore (k : Nat) (s : State) : Out :=
  match s.allCores[k]? with
  | none => .refused .noSuchCore
  | some c => .next { s with before := s.allCores.take k, core := c, after := s.allCores.drop (k + 1) }

/-! ### One event -/

/-- What the next event of the host's schedule does, `rest` being left after it. -/
def hostEvent (e : HostEvent) (rest : List HostEvent) (s : State) : Out :=
  let s1 : State := { s with host := rest }
  match e with
  | .read k bits => hostRead k bits s1
  | .write k bits v => hostWrite k bits v s1
  | .issue c => issueCmd c s1
  | .busRead addr count => busRead addr count s1
  | .busWrite addr bs => busWrite addr bs s1
  | .tick => coreStep s1
  | .poll => pollStatus rest s
  | .memRead a => memRead a s1
  | .memWrite a v => memWrite a v s1
  | .reset => .next (resetCore s1)
  | .select k => selectCore k s1

/-- The first busy core, by number. -/
def State.firstBusy (s : State) : Option Nat := s.allCores.findIdx? fun c => c.status.busy

/-- With nothing scheduled: a busy addressed core takes a core step, else another busy core is turned to, else the machine "is idle and
waits for a CMD write" (R138; log entry 17). -/
def idleStep (s : State) : Out :=
  if s.core.status.busy then coreStep s
  else
    match s.firstBusy with
    | some k => selectCore k s
    | none => .next s

/-! ### Placing a command for the next step -/

/-- The operands with a value given to each register that holds none: a one-byte source at 0 and three bytes of destination at 1
(R139 step 2; log entry 8). -/
def Operands.filled (o : Operands) : Operands where
  srcBase := o.srcBase <|> some 0
  srcLen := o.srcLen <|> some 1
  dstBase := o.dstBase <|> some 1
  dstLen := o.dstLen <|> some 3

/-- The state whose next step writes the command word `c` to CMD. -/
def placeCommand (c : Byte) (s : State) : State :=
  { s with
    host := .write 0x0#4 8 c :: s.host
    core := { s.core with operands := s.core.operands.filled } }

end Sys2Proof.Machine
end

