-- ==== Sys2Proof/Machine/Step.lean ====
section
/-! DEFINITION. One step of the machine. There is no program counter: "One CMD write causes exactly one operation" (10_state.md R25), so
the step takes the next event of the host's schedule (log entry 6). -/

namespace Sys2Proof.Machine

/-- One step: the next scheduled event, or the idle step when nothing is scheduled. -/
def step (s : State) : Host.Outcome State Fault Refusal :=
  match s.host with
  | [] => idleStep s
  | e :: rest => hostEvent e rest s

/-- `s` with a command word placed where the next step takes it: as the host's next CMD write. The operand registers that hold no value
get one (R139 step 2), so that the command's run right after reset can be evaluated (log entry 8). Every command is one 8-bit word (R67). -/
def State.withFetchWord (s : State) (_nbits w : Nat) : State := placeCommand (BitVec.ofNat 8 w) s

end Sys2Proof.Machine
end

