-- ==== Sys2Proof/Machine/Assembler.lean ====
section
/-! DEFINITION. The spec's assembler: command lines, the register writes they stand for, and the start-state directives
(30_encoding.md R69 to R71). -/

namespace Sys2Proof.Machine

/-- A command line (R69). -/
inductive Line where
  | enccap (n : Nat)
  | deccap (n : Nat)
  | enc (srcBase srcLen dstBase dstLen : Nat)
  | encu (srcBase srcLen dstBase dstLen : Nat)
  | dec (srcBase srcLen dstBase dstLen : Nat)
  | decu (srcBase srcLen dstBase dstLen : Nat)
  deriving DecidableEq, Repr

/-- A directive (R71): it describes a program's start state and is no command. -/
inductive Directive where
  | bytes (addr : Nat) (bs : List Byte)
  | fill (addr k : Nat) (v : Byte)
  deriving DecidableEq, Repr

/-- A line of assembler text: a command, a directive, or nothing but blanks and a comment. -/
inductive SourceLine where
  | command (l : Line)
  | directive (d : Directive)
  | blank
  deriving DecidableEq, Repr

/-- The command of a line (R70). -/
def Line.instr : Line → Instr
  | .enccap _ => .enccap
  | .deccap _ => .deccap
  | .enc _ _ _ _ => .enc
  | .encu _ _ _ _ => .encu
  | .dec _ _ _ _ => .dec
  | .decu _ _ _ _ => .decu

/-- A line's register writes before the CMD write, as (register number, value), in order (R70). -/
def Line.operandWrites : Line → List (BitVec 4 × Nat)
  | .enccap n => [(0x3#4, n)]
  | .deccap n => [(0x3#4, n)]
  | .enc a b c d => [(0x2#4, a), (0x3#4, b), (0x4#4, c), (0x5#4, d)]
  | .encu a b c d => [(0x2#4, a), (0x3#4, b), (0x4#4, c), (0x5#4, d)]
  | .dec a b c d => [(0x2#4, a), (0x3#4, b), (0x4#4, c), (0x5#4, d)]
  | .decu a b c d => [(0x2#4, a), (0x3#4, b), (0x4#4, c), (0x5#4, d)]

/-- The operands of a line are W-bit values. -/
def Line.fits (w : Nat) (l : Line) : Bool := l.operandWrites.all fun x => decide (Sys2Proof.fits w x.2)

/-- The host's accesses for a line (R70): the operand writes, the CMD write, and the wait for DONE = 1. -/
def Line.events (w : Nat) (l : Line) : List HostEvent :=
  (l.operandWrites.map fun x => HostEvent.write x.1 w (BitVec.ofNat w x.2)) ++
    [.write 0x0#4 8 (encode l.instr), .poll]

/-- The accesses of a program's command lines; `none` if an operand has more than W bits (log entry 21). -/
def assemble (w : Nat) (ls : List Line) : Option (List HostEvent) :=
  if ls.all (·.fits w) then some (ls.flatMap fun l => l.events w) else none

/-- A directive's effect on the start state's memory (R71). DESIGN CHOICE (log entry 21): the bytes are placed wherever they lie, with no check
against 2^W or the platform's map. -/
def Directive.place (m : Memory) : Directive → Memory
  | .bytes addr bs => m.writeBytes addr bs
  | .fill addr k v => m.writeBytes addr (List.replicate k v)

/-- A machine with a program: the directives placed in memory, the lines' accesses scheduled (R143). DESIGN CHOICE (log entry 21): the directives
are placed in order, so of two that name one address the later wins, and the schedule is that of the lines alone. -/
def State.loaded (s : State) (ds : List Directive) (es : List HostEvent) : State :=
  { s with mem := ds.foldl Directive.place s.mem, host := es }

/-! ### The text (R69, R71) -/

/-- A blank of assembler text. -/
def isBlank (c : Char) : Bool := c == ' ' || c == '\t'

/-- Text without blanks at either end. -/
def trimBlanks (cs : List Char) : List Char := ((cs.dropWhile isBlank).reverse.dropWhile isBlank).reverse

/-- Text without its comment: "`;` starts a comment" (R69). -/
def dropComment (cs : List Char) : List Char := cs.takeWhile fun c => c != ';'

/-- The value of a digit in base 10 or 16. -/
def digitValue (base : Nat) (c : Char) : Option Nat :=
  let v :=
    if '0' ≤ c ∧ c ≤ '9' then c.toNat - '0'.toNat
    else if 'a' ≤ c ∧ c ≤ 'f' then c.toNat - 'a'.toNat + 10
    else if 'A' ≤ c ∧ c ≤ 'F' then c.toNat - 'A'.toNat + 10
    else 16
  if v < base then some v else none

/-- The number digits stand for, most significant first. -/
def digitsValue (base : Nat) : List Char → Nat → Option Nat
  | [], acc => some acc
  | c :: cs, acc =>
    match digitValue base c with
    | some v => digitsValue base cs (acc * base + v)
    | none => none

/-- An operand: "unsigned numbers, in decimal or `0x` hexadecimal" (R69). -/
def parseNumber (cs : List Char) : Option Nat :=
  match trimBlanks cs with
  | [] => none
  | ['0', 'x'] => none
  | '0' :: 'x' :: ds => digitsValue 16 ds 0
  | ds => digitsValue 10 ds 0

/-- The fields of comma-separated text; `acc` is the field being read, reversed. -/
def splitCommas : List Char → List Char → List (List Char)
  | [], acc => [acc.reverse]
  | c :: cs, acc => if c = ',' then acc.reverse :: splitCommas cs [] else splitCommas cs (c :: acc)

/-- Every element, or `none` if one is missing. -/
def allSome {α : Type} : List (Option α) → Option (List α)
  | [] => some []
  | none :: _ => none
  | some a :: rest => (allSome rest).map (a :: ·)

/-- A byte-sized number; a greater one is rejected (log entry 21). -/
def parseByte (cs : List Char) : Option Byte :=
  match parseNumber cs with
  | some v => if v < 256 then some (BitVec.ofNat 8 v) else none
  | none => none

/-- Splits at the first `..=`, the range sign of R13. -/
def splitRange : List Char → List Char → Option (List Char × List Char)
  | [], _ => none
  | '.' :: '.' :: '=' :: rest, acc => some (acc.reverse, rest)
  | c :: cs, acc => splitRange cs (c :: acc)

/-- An item of a byte sequence: one byte, or an ascending range `a..=b` (R13). DESIGN CHOICE (log entry 21): a range with a > b holds no bytes. -/
def parseItem (cs : List Char) : Option (List Byte) :=
  match splitRange cs [] with
  | none => (parseByte cs).map fun b => [b]
  | some (a, b) =>
    match parseByte a, parseByte b with
    | some x, some y => some ((List.range (y.toNat + 1 - x.toNat)).map fun i => BitVec.ofNat 8 (x.toNat + i))
    | _, _ => none

/-- A byte sequence `[b0, b1, …]` (R13). -/
def parseBytes (cs : List Char) : Option (List Byte) :=
  match trimBlanks cs with
  | '[' :: rest =>
    match rest.reverse with
    | ']' :: inner =>
      let body := inner.reverse
      if (trimBlanks body).isEmpty then some []
      else (allSome ((splitCommas body []).map parseItem)).map (·.flatten)
    | _ => none
  | _ => none

/-- A line of `n` operands. -/
def parseOperands (cs : List Char) : Option (List Nat) := allSome ((splitCommas cs []).map parseNumber)

/-- A line of one operand. -/
def parseLength (mk : Nat → Line) (cs : List Char) : Option SourceLine :=
  match parseOperands cs with
  | some [n] => some (.command (mk n))
  | _ => none

/-- A line of four operands. -/
def parseTransfer (mk : Nat → Nat → Nat → Nat → Line) (cs : List Char) : Option SourceLine :=
  match parseOperands cs with
  | some [a, b, c, d] => some (.command (mk a b c d))
  | _ => none

/-- `.bytes addr, [b0, b1, …]` (R71). -/
def parseBytesDirective (cs : List Char) : Option SourceLine :=
  match parseNumber (cs.takeWhile fun c => c != ','), (cs.dropWhile fun c => c != ',') with
  | some addr, ',' :: rest => (parseBytes rest).map fun bs => .directive (.bytes addr bs)
  | _, _ => none

/-- `.fill addr, k, v` (R71). -/
def parseFillDirective (cs : List Char) : Option SourceLine :=
  match splitCommas cs [] with
  | [a, k, v] =>
    match parseNumber a, parseNumber k, parseByte v with
    | some addr, some count, some b => some (.directive (.fill addr count b))
    | _, _, _ => none
  | _ => none

/-- One line of assembler text (R69, R71); `none` if it is not one. -/
def parseLine (text : List Char) : Option SourceLine :=
  let cs := trimBlanks (dropComment text)
  let word := cs.takeWhile fun c => !isBlank c
  let rest := cs.dropWhile fun c => !isBlank c
  if cs.isEmpty then some .blank
  else if word = "ENCCAP".toList then parseLength .enccap rest
  else if word = "DECCAP".toList then parseLength .deccap rest
  else if word = "ENC".toList then parseTransfer .enc rest
  else if word = "ENCU".toList then parseTransfer .encu rest
  else if word = "DEC".toList then parseTransfer .dec rest
  else if word = "DECU".toList then parseTransfer .decu rest
  else if word = ".bytes".toList then parseBytesDirective rest
  else if word = ".fill".toList then parseFillDirective rest
  else none

end Sys2Proof.Machine
end

