-- ==== Sys2Proof/Safety.lean ====
section
/-! DEFINITION. What claims are stated in: the frame of a payload and the payload of a frame as functions of byte sequences
(41_encoder.md R91, 42_decoder.md R107), admitted operations (20_memory.md R43 to R45), the invariant of the machine, and safe runs
(60_exceptions.md R123, 70_reset_and_hazards.md R143). Nothing of the machine calls anything here. -/

namespace Sys2Proof.Machine

/-! ### The frame of a payload (R91) -/

/-- "split p at every 0x00 byte into k+1 segments s_0 .. s_k" (R91): the segments a 0x00 ended, and the last one. -/
def segments : List Byte → List (List Byte) × List Byte
  | [] => ([], [])
  | b :: bs =>
    let r := segments bs
    if b = 0x00#8 then ([] :: r.1, r.2)
    else
      match r.1 with
      | [] => ([], b :: r.2)
      | s :: ss => ((b :: s) :: ss, r.2)

/-- `[len(s) + 1] ++ s` (R91). -/
def shortChunk (s : List Byte) : List Byte := BitVec.ofNat 8 (s.length + 1) :: s

/-- `chunks_open(s)` (R91): a segment that a 0x00 ended. The first argument bounds the number of full chunks. -/
def chunksOpen : Nat → List Byte → List Byte
  | 0, s => shortChunk s
  | k + 1, s => if 254 ≤ s.length then 0xFF#8 :: s.take 254 ++ chunksOpen k (s.drop 254) else shortChunk s

/-- The loop of `chunks_last(s)` for a segment that is not empty (R91). -/
def chunksLastLoop : Nat → List Byte → List Byte
  | 0, s => shortChunk s
  | k + 1, s => if 254 < s.length then 0xFF#8 :: s.take 254 ++ chunksLastLoop k (s.drop 254) else shortChunk s

/-- `chunks_last(s)` (R91): the final segment. -/
def chunksLast (s : List Byte) : List Byte := if s.length = 0 then [0x01#8] else chunksLastLoop s.length s

/-- `enc(p)` (R91): the frame of the payload `p`. -/
def frameOf (p : List Byte) : List Byte :=
  ((segments p).1.flatMap fun s => chunksOpen s.length s) ++ chunksLast (segments p).2

/-! ### The payload of a frame (R107) -/

/-- A chunk: a marker and its data bytes (R17, R64). -/
structure Chunk where
  marker : Byte
  data : List Byte
  deriving DecidableEq, Repr

/-- A marker in 1..=255 followed by marker − 1 data bytes, none equal to 0x00 (R107). -/
def Chunk.wf (c : Chunk) : Bool :=
  decide (c.marker ≠ 0x00#8) && decide (c.data.length = c.marker.toNat - 1) && c.data.all fun b => decide (b ≠ 0x00#8)

/-- The bytes of a sequence of chunks. -/
def chunkBytes (cs : List Chunk) : List Byte := cs.flatMap fun c => c.marker :: c.data

/-- "the data of each chunk, with one 0x00 appended after every chunk c_j such that j < q and m_j ≠ 0xFF" (R107). -/
def payloadOf : List Chunk → List Byte
  | [] => []
  | [c] => c.data
  | c :: d :: cs => c.data ++ (if c.marker = 0xFF#8 then [] else [0x00#8]) ++ payloadOf (d :: cs)

/-! ### Operations the spec admits -/

/-- The addressed core is idle and its operand registers hold the transfer `t` (R24, R31). -/
structure Ready (s : State) (t : Transfer) : Prop where
  idle : s.core.status.busy = false
  operands : s.core.operands = { srcBase := some t.src, srcLen := some t.n, dstBase := some t.dst, dstLen := some t.d }

/-- The regions of `t` pass every check of R43, R44 and R45 and meet no running operation of another core (R52, R133). -/
structure Admitted (s : State) (t : Transfer) : Prop where
  srcFits : t.src + t.n ≤ 2 ^ s.plat.width
  dstFits : t.dst + t.d ≤ 2 ^ s.plat.width
  disjoint : t.n = 0 ∨ t.d = 0 ∨ t.src + t.n ≤ t.dst ∨ t.dst + t.d ≤ t.src
  srcBacked : ∀ i < t.n, readableAt s.plat (t.src + i) = true
  dstBacked : ∀ i < t.d, writableAt s.plat (t.dst + i) = true
  srcFree : ∀ c ∈ s.others, ∀ r ∈ c.runningRegions, overlaps t.src t.n r.1 r.2 = false
  dstFree : ∀ c ∈ s.others, ∀ r ∈ c.runningRegions, overlaps t.dst t.d r.1 r.2 = false

/-- ENC or ENCU with `t` meets every condition of R83 and R88: admitted, and a destination of the capacity, which fits W bits. -/
structure Encodable (s : State) (t : Transfer) : Prop where
  ready : Ready s t
  admitted : Admitted s t
  capacityFits : encodeCapacity t.n < 2 ^ s.plat.width
  room : encodeCapacity t.n ≤ t.d

/-- DEC or DECU with `t` reaches DECODE_CORE (R96, R105, R106): admitted, a frame of at least one byte, and room for n − 1 bytes. -/
structure Decodable (s : State) (t : Transfer) : Prop where
  ready : Ready s t
  admitted : Admitted s t
  nonempty : 1 ≤ t.n
  room : t.n ≤ t.d + 1

/-- The length a sizing command may find in the operand registers `o`: the value SRC_LEN holds, any W-bit value if it holds none (log entry 5). -/
def Operands.GivesLength (o : Operands) (w n : Nat) : Prop := (∀ v, o.srcLen = some v → v = n) ∧ (o.srcLen = none → n < 2 ^ w)

/-- The operands a transform may find in the operand registers `o`: the values they hold, any W-bit value for one that holds none
(log entry 5). -/
structure Operands.Gives (o : Operands) (w : Nat) (t : Transfer) : Prop where
  src : ∀ v, o.srcBase = some v → v = t.src
  n : ∀ v, o.srcLen = some v → v = t.n
  dst : ∀ v, o.dstBase = some v → v = t.dst
  d : ∀ v, o.dstLen = some v → v = t.d
  srcFree : o.srcBase = none → t.src < 2 ^ w
  nFree : o.srcLen = none → t.n < 2 ^ w
  dstFree : o.dstBase = none → t.dst < 2 ^ w
  dFree : o.dstLen = none → t.d < 2 ^ w

/-- `l` is a latched copy of the operand registers `o` (R31, R38): each register that holds a value is there with it. -/
structure Operands.LatchedAs (o l : Operands) : Prop where
  srcBase : ∀ v, o.srcBase = some v → l.srcBase = some v
  srcLen : ∀ v, o.srcLen = some v → l.srcLen = some v
  dstBase : ∀ v, o.dstBase = some v → l.dstBase = some v
  dstLen : ∀ v, o.dstLen = some v → l.dstLen = some v

/-- An idle core and an "admitted operand set" (R32) of the command: its operand registers hold values and no fault of R122 applies. -/
def AdmittedFor (i : Instr) (s : State) : Prop :=
  match i with
  | .enccap => s.core.status.busy = false ∧ ∃ n, s.core.operands.srcLen = some n ∧ encodeCapacity n < 2 ^ s.plat.width
  | .deccap => s.core.status.busy = false ∧ ∃ n, s.core.operands.srcLen = some n
  | .enc => ∃ t, Ready s t ∧ Admitted s t ∧ encodeCapacity t.n < 2 ^ s.plat.width
  | .encu => ∃ t, Encodable s t
  | .dec => ∃ t, Ready s t ∧ Admitted s t
  | .decu => ∃ t, Ready s t ∧ Admitted s t ∧ t.n ≤ t.d + 1

/-- The payload or frame in the source region (R41). -/
def sourceBytes (s : State) (t : Transfer) : List Byte := s.mem.readBytes t.src t.n

/-- The first `k` bytes of the destination region (R42). -/
def destBytes (s : State) (t : Transfer) (k : Nat) : List Byte := s.mem.readBytes t.dst k

/-- The address lies in the destination region (R42). -/
def InDest (t : Transfer) (a : Nat) : Prop := t.dst ≤ a ∧ a < t.dst + t.d

/-- The address lies in the source region (R41). -/
def InSource (t : Transfer) (a : Nat) : Prop := t.src ≤ a ∧ a < t.src + t.n

/-- Memory outside the destination region reads as before. -/
def OutsideKept (s u : State) (t : Transfer) : Prop := ∀ a, ¬ InDest t a → u.mem.read a = s.mem.read a

/-- Nothing was stored and no free value drawn. -/
def MemoryKept (s u : State) : Prop := u.mem = s.mem ∧ u.fresh = s.fresh

/-- `s'` differs from `s` at most in memory, the free-value counter and the addressed core's STATUS, result registers and operation in
flight: the platform, the other cores, the host's schedule, the last reply and the operand registers are as before. -/
structure SameFrame (s s' : State) : Prop where
  plat : s'.plat = s.plat
  before : s'.before = s.before
  after : s'.after = s.after
  host : s'.host = s.host
  reply : s'.reply = s.reply
  operands : s'.core.operands = s.core.operands

/-- The addressed core stands as R27 and R31 leave it after a completion with the outcome `o`. -/
structure Completed (s : State) (o : OpOutcome) : Prop where
  status : s.core.status = { code := some o.code, busy := false, done := true }
  result : s.core.result = o.result
  errAt : s.core.errAt = o.errAt
  errMarker : s.core.errMarker = o.overflow.map (·.1)
  errLen : s.core.errLen = o.overflow.map (·.2)
  errHave : s.core.errHave = o.tooSmall.map (·.1)
  errWant : s.core.errWant = o.tooSmall.map (·.2)
  op : s.core.op = none

/-- `s` with the memory `m` and the operation `fl` in flight in the addressed core, at the working registers `w`. -/
def State.working (s : State) (m : Memory) (fl : InFlight) (w : Work) : State :=
  { s with mem := m, core := { s.core with op := some { fl with work := w } } }

/-- A command issued and then `k` core steps of it: the step view (R87) beside the atomic one (R52). -/
def issueThenSteps (i : Instr) (k : Nat) (s : State) : Out :=
  match issueCmd (encode i) s with
  | .next s1 => coreSteps k s1
  | .fault f => .fault f
  | .refused r => .refused r

/-- The operand registers after a command line's operand writes (R70). -/
def Line.operandsAfter (o : Operands) : Line → Operands
  | .enccap n => { o with srcLen := some n }
  | .deccap n => { o with srcLen := some n }
  | .enc a b c d => { srcBase := some a, srcLen := some b, dstBase := some c, dstLen := some d }
  | .encu a b c d => { srcBase := some a, srcLen := some b, dstBase := some c, dstLen := some d }
  | .dec a b c d => { srcBase := some a, srcLen := some b, dstBase := some c, dstLen := some d }
  | .decu a b c d => { srcBase := some a, srcLen := some b, dstBase := some c, dstLen := some d }

/-! ### The invariant -/

/-- Every operand register that holds a value holds a W-bit one (R24). -/
structure Operands.Fits (w : Nat) (o : Operands) : Prop where
  srcBase : ∀ v, o.srcBase = some v → v < 2 ^ w
  srcLen : ∀ v, o.srcLen = some v → v < 2 ^ w
  dstBase : ∀ v, o.dstBase = some v → v < 2 ^ w
  dstLen : ∀ v, o.dstLen = some v → v < 2 ^ w

/-- The encoder's registers between two steps (R33, R34, R92): E_L is in 1..=254, the open chunk's slot and bytes lie just below the
output cursor, and the cursor is ahead of the payload by one slot and one more for every full chunk. -/
structure EncRegs.Ok (t : Transfer) (e : EncRegs) : Prop where
  cursor : e.i ≤ t.n
  lenLow : 1 ≤ e.l
  lenHigh : e.l ≤ 254
  slot : e.c = e.m + e.l
  ahead : e.i + 1 ≤ e.c
  splits : 254 * (e.c - 1 - e.i) + (e.l - 1) ≤ e.i

/-- The decoder's registers between two steps (R35, R97 to R99, R108). -/
structure DecRegs.Ok (t : Transfer) (d : DecRegs) : Prop where
  marker : d.marker ≠ 0x00#8
  left : d.k ≤ 254
  inFrame : d.i + d.k ≤ t.n
  slot : d.p < d.i
  copying : d.state = .copyChunk → d.o < d.i
  inserting : d.state = .maybeInsertSentinel → d.k = 0 ∧ d.o < d.i
  reading : d.state = .readMarker → d.k = 0 ∧ d.o ≤ d.i ∧ d.i < t.n

/-- What the latched operands of an operation in flight satisfy: those the command reads are there (R31), and they establish neither
CapacityOverflow nor UncheckedPrecondition, which the CMD write would have taken (R125 step 1). -/
def latchedOk (w : Nat) (cmd : Byte) (o : Operands) : Prop :=
  match decodeCmd cmd with
  | none => True
  | some .enccap => ∃ n, o.srcLen = some n ∧ encodeCapacity n < 2 ^ w
  | some .deccap => ∃ n, o.srcLen = some n
  | some .enc => ∃ t, o.transfer = some t ∧ encodeCapacity t.n < 2 ^ w
  | some .encu => ∃ t, o.transfer = some t ∧ encodeCapacity t.n < 2 ^ w ∧ encodeCapacity t.n ≤ t.d
  | some .dec => ∃ t, o.transfer = some t
  | some .decu => ∃ t, o.transfer = some t ∧ t.n ≤ t.d + 1

/-- What the working registers of an operation in flight satisfy (R36): they are those of its command, past its checks. -/
def InFlight.WorkOk (fl : InFlight) : Prop :=
  match fl.work with
  | .started => True
  | .encoding e => ∃ t, fl.latched.transfer = some t ∧ (decodeCmd fl.cmd = some .enc ∨ decodeCmd fl.cmd = some .encu) ∧
      1 ≤ t.n ∧ encodeCapacity t.n ≤ t.d ∧ e.Ok t
  | .decoding d => ∃ t, fl.latched.transfer = some t ∧ (decodeCmd fl.cmd = some .dec ∨ decodeCmd fl.cmd = some .decu) ∧
      1 ≤ t.n ∧ t.n ≤ t.d + 1 ∧ d.Ok t

/-- An operation in flight is consistent. -/
structure InFlight.Ok (w : Nat) (fl : InFlight) : Prop where
  latched : latchedOk w fl.cmd fl.latched
  work : fl.WorkOk

/-- A core's registers are consistent: the flags and CODE as R23, the result registers exactly those of R27's table, W-bit values where
R21 says W bits, and the operation in flight as its rules leave it. -/
structure CodecCore.Ok (w : Nat) (c : CodecCore) : Prop where
  notBoth : ¬ (c.status.busy = true ∧ c.status.done = true)
  codeDone : c.status.code.isSome = c.status.done
  codeRange : ∀ k, c.status.code = some k → k.toNat ≤ 7
  busyOp : c.op.isSome = c.status.busy
  resultCode : c.result.isSome = true ↔ c.status.code = some 0x00#8
  errAtCode : c.errAt.isSome = true ↔
    c.status.code = some 0x03#8 ∨ c.status.code = some 0x04#8 ∨ c.status.code = some 0x05#8
  errMarkerCode : c.errMarker.isSome = true ↔ c.status.code = some 0x05#8
  errLenCode : c.errLen.isSome = true ↔ c.status.code = some 0x05#8
  errHaveCode : c.errHave.isSome = true ↔ c.status.code = some 0x02#8
  errWantCode : c.errWant.isSome = true ↔ c.status.code = some 0x02#8
  operandsFit : c.operands.Fits w
  resultFits : ∀ v, c.result = some v → v < 2 ^ w
  errAtFits : ∀ v, c.errAt = some v → v < 2 ^ w
  errLenFits : ∀ v, c.errLen = some v → v < 2 ^ w
  errHaveFits : ∀ v, c.errHave = some v → v < 2 ^ w
  errWantFits : ∀ v, c.errWant = some v → v < 2 ^ w
  latchedFit : ∀ fl, c.op = some fl → fl.latched.Fits w
  working : ∀ fl, c.op = some fl → fl.Ok w
  regionsFit : ∀ r ∈ c.runningRegions, r.1 + r.2 ≤ 2 ^ w
  regionsApart : ∀ t, c.runningTransfer = some t → overlaps t.src t.n t.dst t.d = false

/-- The invariant of the machine: W ≥ 1 (R7), memory in canonical form and inside the address space (R40), every core consistent. -/
structure State.Inv (s : State) : Prop where
  width : 1 ≤ s.plat.width
  memForm : s.mem.wf = true
  memFits : ∀ c ∈ s.mem, c.1 < 2 ^ s.plat.width
  cores : ∀ c ∈ s.allCores, c.Ok s.plat.width

/-- "every region of every running operation is disjoint from every other" (R133), for every two cores. -/
def State.CoresDisjoint (s : State) : Prop :=
  s.allCores.Pairwise fun c d =>
    ∀ r ∈ c.runningRegions, ∀ q ∈ d.runningRegions, overlaps r.1 r.2 q.1 q.2 = false

/-! ### Safe runs -/

/-- `k` steps from `s` end in `s'` with no fault and no refusal: the only runs a claim may speak of (R123). -/
def RunsTo (k : Nat) (s s' : State) : Prop := Host.Core.run Sys2Proof.core k s = .next s'

/-- The end of a host program (R143): nothing is scheduled and the last command has completed. -/
def Finished (s : State) : Prop := s.host = [] ∧ s.core.status.done = true

end Sys2Proof.Machine
end

