-- ==== Sys2Proof/Certificates/Slice0/Obligations.lean ====
section
/-! DEFINITION. The statements about the model, one definition each; OBLIGATIONS.json lists them. W, the memory map, the register window
and the number of cores are parts of the state (log entries 1, 2, 12, 14), so a statement about every state holds for every value of them. -/

open Sys2Proof Sys2Proof.Machine

/-! ### Command words -/

/-- R61, R62. The decoder knows exactly the six words of the opcode map. -/
def Obligations.CommandWordsDecode : Prop :=
  ∀ (c : Byte) (i : Instr), decodeCmd c = some i ↔
    (c = 0b00000001#8 ∧ i = .enccap) ∨ (c = 0b00000010#8 ∧ i = .enc) ∨ (c = 0b00000011#8 ∧ i = .encu) ∨
    (c = 0b00000101#8 ∧ i = .deccap) ∨ (c = 0b00000110#8 ∧ i = .dec) ∨ (c = 0b00000111#8 ∧ i = .decu)

/-- R60, R61. Decoding an encoded command gives it back, and every legal word is the encoding of the command it decodes to. -/
def Obligations.EncodedCommandsDecode : Prop :=
  (∀ i : Instr, i.wf = true ∧ decode (encode i) = .ok i ∧ decodeTableWord 8 (encode i).toNat = some i) ∧
  (∀ (c : Byte) (i : Instr), decodeCmd c = some i → encode i = c)

/-- R66, R120. A word that selects no operation completes with ILLEGAL_COMMAND, whatever the operand registers and the memory map hold:
no result register holds a value, and no memory and no other register changes. -/
def Obligations.IllegalWordsComplete : Prop :=
  ∀ (c : Byte) (s : State), (c = 0x00#8 ∨ c = 0x04#8 ∨ 0x08 ≤ c.toNat) → s.core.status.busy = false →
    ∃ u, hostWrite 0x0#4 8 c s = .next u ∧ Completed u .illegalCommand ∧ SameFrame s u ∧ MemoryKept s u

/-- R25, R62, R138. A step runs the next event of the host's schedule on the state left with the rest of it, each kind of event as the operation of
its name. A write of a command word to CMD is `exec` of the decoded command (of an illegal word, its completion); `withFetchWord` places
such a write (log entry 8). That what the outside world does is a schedule in the state is log entry 6, the form of a poll log entry 19, and what
a step does with nothing scheduled log entry 17 (DESIGN CHOICES). -/
def Obligations.StepRunsTheNextEvent : Prop :=
  (∀ (s : State) (c : Byte) (rest : List HostEvent) (i : Instr), s.host = .write 0x0#4 8 c :: rest → decodeCmd c = some i →
    step s = exec i { s with host := rest }) ∧
  (∀ (s : State) (c : Byte) (rest : List HostEvent), s.host = .write 0x0#4 8 c :: rest → decodeCmd c = none →
    step s = execIllegal { s with host := rest }) ∧
  (∀ (s : State) (w : Nat) (i : Instr), decodeTableWord 8 w = some i →
    step (s.withFetchWord 8 w) = exec i { s with core := { s.core with operands := s.core.operands.filled } }) ∧
  (∀ (s : State) (rest : List HostEvent),
    (∀ k bits, s.host = .read k bits :: rest → step s = hostRead k bits { s with host := rest }) ∧
    (∀ k bits v, s.host = .write k bits v :: rest → step s = hostWrite k bits v { s with host := rest }) ∧
    (∀ c, s.host = .issue c :: rest → step s = issueCmd c { s with host := rest }) ∧
    (∀ a count, s.host = .busRead a count :: rest → step s = busRead a count { s with host := rest }) ∧
    (∀ a bs, s.host = .busWrite a bs :: rest → step s = busWrite a bs { s with host := rest }) ∧
    (s.host = .tick :: rest → step s = coreStep { s with host := rest }) ∧
    (∀ a, s.host = .memRead a :: rest → step s = memRead a { s with host := rest }) ∧
    (∀ a b, s.host = .memWrite a b :: rest → step s = memWrite a b { s with host := rest }) ∧
    (∀ k, s.host = .select k :: rest → step s = selectCore k { s with host := rest }) ∧
    (s.host = .reset :: rest → step s = .next (resetCore { s with host := rest })) ∧
    (s.host = .poll :: rest → s.core.status.done = true → step s = hostRead 0x1#4 16 { s with host := rest }) ∧
    (s.host = .poll :: rest → s.core.status.done = false → ∃ u, hostRead 0x1#4 16 s = .next u ∧ step s = coreStep u)) ∧
  (∀ s : State, s.host = [] →
    (s.core.status.busy = true → step s = coreStep s) ∧
    ((∀ c ∈ s.allCores, c.status.busy = false) → step s = .next s) ∧
    (s.core.status.busy = false → ∀ (k : Nat) (c : CodecCore), s.allCores[k]? = some c → c.status.busy = true →
      (∀ d ∈ s.allCores.take k, d.status.busy = false) → step s = selectCore k s))

/-! ### Sizing -/

/-- R72, R76. With encode_capacity(n) below 2^W, ENCCAP completes with OK and RESULT = n + ⌈n / 254⌉ + 1; `q` is ⌈n / 254⌉ when it is the least
number with n ≤ 254 q. With encode_capacity(n) ≥ 2^W it faults. It stores nothing and reads no memory. -/
def Obligations.EnccapComputesTheCapacity : Prop :=
  ∀ (s : State) (n q : Nat), s.core.status.busy = false → s.core.operands.srcLen = some n →
    n ≤ 254 * q → 254 * q < n + 254 →
    (n + q + 1 < 2 ^ s.plat.width →
      ∃ u, exec .enccap s = .next u ∧ Completed u (.ok (n + q + 1)) ∧ SameFrame s u ∧ MemoryKept s u) ∧
    (2 ^ s.plat.width ≤ n + q + 1 → exec .enccap s = .fault .capacityOverflow)

/-- R73, R77, R119. DECCAP completes with OK and RESULT = n − 1, or for n = 0 with INVALID_ARGUMENT. It stores nothing. -/
def Obligations.DeccapComputesTheCapacity : Prop :=
  ∀ (s : State) (n : Nat), s.core.status.busy = false → s.core.operands.srcLen = some n →
    (1 ≤ n → ∃ u, exec .deccap s = .next u ∧ Completed u (.ok (n - 1)) ∧ SameFrame s u ∧ MemoryKept s u) ∧
    (n = 0 → ∃ u, exec .deccap s = .next u ∧ Completed u .invalidArgument ∧ SameFrame s u ∧ MemoryKept s u)

/-- R74. What ENCCAP and DECCAP answer depends on the length operand (and W) alone. -/
def Obligations.SizingReadsOnlyTheLength : Prop :=
  ∀ (i : Instr) (s s' : State) (n : Nat), i ∈ [Instr.enccap, .deccap] → s.core.status.busy = false → s'.core.status.busy = false →
    s.core.operands.srcLen = some n → s'.core.operands.srcLen = some n → s'.plat.width = s.plat.width →
    (∀ u, exec i s = .next u → ∃ u', exec i s' = .next u' ∧
      u'.core = { u.core with operands := s'.core.operands }) ∧
    (∀ f, exec i s = .fault f → exec i s' = .fault f)

/-- R75. ENCCAP, ENC and ENCU fault when encode_capacity(n) does not fit W bits, first at the lengths the rule lists, and decode_capacity of a
W-bit length always fits. -/
def Obligations.CapacityOverflowFaults : Prop :=
  (∀ (s : State) (n : Nat), s.core.status.busy = false → s.core.operands.srcLen = some n →
    2 ^ s.plat.width ≤ encodeCapacity n → exec .enccap s = .fault .capacityOverflow) ∧
  (∀ (i : Instr) (s : State) (t : Transfer), i ∈ [Instr.enc, .encu] → Ready s t → Admitted s t →
    2 ^ s.plat.width ≤ encodeCapacity t.n → exec i s = .fault .capacityOverflow) ∧
  (∀ w first, (w, first) ∈ [(8, 254), (16, 65278), (32, 4278124286)] → ∀ n, 2 ^ w ≤ encodeCapacity n ↔ first ≤ n) ∧
  (∀ w n v, n < 2 ^ w → decodeCapacity n = some v → v < 2 ^ w)

/-! ### The encoder -/

/-- R91. ENC and ENCU on an admitted payload with a destination of the capacity complete with OK and write `frameOf` of the payload;
memory outside the destination region and every register but STATUS and the result registers stay. -/
def Obligations.EncodeWritesTheFrame : Prop :=
  ∀ (i : Instr) (s : State) (t : Transfer), i ∈ [Instr.enc, .encu] → Encodable s t →
    ∃ u, exec i s = .next u ∧ Completed u (.ok (frameOf (sourceBytes s t)).length) ∧
      destBytes u t (frameOf (sourceBytes s t)).length = frameOf (sourceBytes s t) ∧
      (frameOf (sourceBytes s t)).length ≤ t.d ∧ OutsideKept s u t ∧ SameFrame s u

/-- R84, R85. In flight, a core step that reads a payload byte: a byte b ≠ 0x00 is stored at the output cursor, and the chunk is closed when it is
full; a 0x00 closes the open chunk, with a marker in 1..=254 in every state of the invariant. -/
def Obligations.EncoderSteps : Prop :=
  ∀ (s : State) (fl : InFlight) (t : Transfer) (e : EncRegs) (b : Byte), s.core.op = some fl → fl.work = .encoding e →
    fl.latched.transfer = some t → e.i < t.n → s.mem.read (t.src + e.i) = b →
    (b ≠ 0x00#8 → coreStep s = .next
      (if e.l + 1 = 255 then
        s.working ((s.mem.write (t.dst + e.c) b).write (t.dst + e.m) 0xFF#8) fl
          (.encoding { i := e.i + 1, c := e.c + 2, m := e.c + 1, l := 1, lastz := false })
      else
        s.working (s.mem.write (t.dst + e.c) b) fl
          (.encoding { i := e.i + 1, c := e.c + 1, m := e.m, l := e.l + 1, lastz := false }))) ∧
    (b = 0x00#8 → coreStep s = .next (s.working (s.mem.write (t.dst + e.m) (BitVec.ofNat 8 e.l)) fl
      (.encoding { i := e.i + 1, c := e.c + 1, m := e.c, l := 1, lastz := true }))) ∧
    (s.Inv → 1 ≤ e.l ∧ e.l ≤ 254)

/-- R86. In flight, the finalize step completes with OK: the last marker is written when E_L > 1 or the last byte was 0x00; otherwise
E_C is retracted by one and nothing is written below RESULT. -/
def Obligations.EncoderFinalizes : Prop :=
  ∀ (s : State) (fl : InFlight) (t : Transfer) (e : EncRegs), s.Inv → s.core.op = some fl → fl.work = .encoding e →
    fl.latched.transfer = some t → e.i = t.n →
    ∃ u, coreStep s = .next u ∧ SameFrame s u ∧
      (1 < e.l ∨ e.lastz = true → Completed u (.ok e.c) ∧
        ∀ k < e.c, u.mem.read (t.dst + k) = (s.mem.write (t.dst + e.m) (BitVec.ofNat 8 e.l)).read (t.dst + k)) ∧
      (e.l = 1 → e.lastz = false → Completed u (.ok (e.c - 1)) ∧
        ∀ k < e.c - 1, u.mem.read (t.dst + k) = s.mem.read (t.dst + k))

/-- R82. ENCU and ENC answer the same wherever ENCU completes; wherever ENC completes with OK, ENCU answers the same. -/
def Obligations.UncheckedEncodeIsTheCheckedOne : Prop :=
  (∀ s u : State, exec .encu s = .next u → exec .enc s = .next u) ∧
  (∀ s u : State, exec .enc s = .next u → u.core.status.code = some 0x00#8 → exec .encu s = .next u)

/-- R90. A frame ENC or ENCU wrote has at least one byte and is a sequence of chunks with markers in 1..=255 whose data bytes are non-zero
payload bytes; it holds no 0x00. -/
def Obligations.FramesHoldNoSentinel : Prop :=
  ∀ (i : Instr) (s u : State) (t : Transfer) (r : Nat), i ∈ [Instr.enc, .encu] → s.core.operands.transfer = some t →
    exec i s = .next u → u.core.result = some r →
    1 ≤ r ∧ 0x00#8 ∉ destBytes u t r ∧
    ∃ cs : List Chunk, cs ≠ [] ∧ (∀ c ∈ cs, c.wf = true ∧ ∀ b ∈ c.data, b ∈ sourceBytes s t) ∧ chunkBytes cs = destBytes u t r

/-- R79. The exact largest frame: at most 1 for n = 0 and n + ⌈n / 254⌉ for n ≥ 1, reached by every payload without 0x00; a destination exactly as
large as the frame is rejected by ENC for n ≥ 1. -/
def Obligations.LargestFrame : Prop :=
  (∀ (i : Instr) (s u : State) (t : Transfer) (r : Nat), i ∈ [Instr.enc, .encu] → s.core.operands.transfer = some t →
    exec i s = .next u → u.core.result = some r →
    (t.n = 0 → r = 1) ∧ (1 ≤ t.n → r ≤ t.n + ceilDiv t.n 254 ∧ r < encodeCapacity t.n) ∧
    (1 ≤ t.n → 0x00#8 ∉ sourceBytes s t → r = t.n + ceilDiv t.n 254 ∧ r + 1 = encodeCapacity t.n)) ∧
  (∀ (s : State) (t : Transfer), Ready s t → Admitted s t → encodeCapacity t.n < 2 ^ s.plat.width → 1 ≤ t.n →
    t.d = (frameOf (sourceBytes s t)).length →
    ∃ u, exec .enc s = .next u ∧ Completed u (.bufferTooSmall t.d (encodeCapacity t.n)))

/-- R78. Every frame is at most encode_capacity(n) long, and the encoder stores nothing at or beyond the frame length at any core step before
the completion. -/
def Obligations.CapacitySuffices : Prop :=
  ∀ (i : Instr) (s : State) (t : Transfer), i ∈ [Instr.enc, .encu] → Encodable s t →
    (frameOf (sourceBytes s t)).length ≤ encodeCapacity t.n ∧
    ∀ k v, issueThenSteps i k s = .next v → v.core.status.busy = true →
      ∀ a, a < t.dst ∨ t.dst + (frameOf (sourceBytes s t)).length ≤ a → v.mem.read a = s.mem.read a

/-! ### Capacity checks -/

/-- R115. BUFFER_TOO_SMALL: when ENC and DEC complete with it, with which fields, with nothing stored, and that no other command does. -/
def Obligations.CheckedCommandsReportSmallBuffers : Prop :=
  (∀ (s : State) (t : Transfer), Ready s t → Admitted s t → encodeCapacity t.n < 2 ^ s.plat.width → t.d < encodeCapacity t.n →
    ∃ u, exec .enc s = .next u ∧ Completed u (.bufferTooSmall t.d (encodeCapacity t.n)) ∧ SameFrame s u ∧ MemoryKept s u) ∧
  (∀ (s : State) (t : Transfer), Ready s t → Admitted s t → 1 < t.n → t.d < t.n - 1 →
    ∃ u, exec .dec s = .next u ∧ Completed u (.bufferTooSmall t.d (t.n - 1)) ∧ SameFrame s u ∧ MemoryKept s u) ∧
  (∀ (c : Byte) (s u : State), writeCmd c s = .next u → u.core.status.code = some 0x02#8 →
    (decodeCmd c = some .enc ∨ decodeCmd c = some .dec) ∧
    ∀ t, s.core.operands.transfer = some t →
      ((decodeCmd c = some .enc ∧ t.d < encodeCapacity t.n) ∨ (decodeCmd c = some .dec ∧ 1 < t.n ∧ t.d < t.n - 1)))

/-- R124. ENCU and DECU with an undersized destination fault, whatever the payload or frame holds. -/
def Obligations.UncheckedPreconditionFaults : Prop :=
  (∀ (s : State) (t : Transfer), Ready s t → Admitted s t → encodeCapacity t.n < 2 ^ s.plat.width → t.d < encodeCapacity t.n →
    exec .encu s = .fault .uncheckedPrecondition) ∧
  (∀ (s : State) (t : Transfer), Ready s t → Admitted s t → 1 < t.n → t.d < t.n - 1 →
    exec .decu s = .fault .uncheckedPrecondition)

/-! ### The decoder -/

/-- R107. DEC and DECU give OK exactly for the frames that split into chunks, and the payload is the chunks' data with a 0x00 after every
chunk but the last and the full ones; memory outside the destination region and every register but STATUS and the result registers stay. -/
def Obligations.DecodeAcceptsExactlyTheWellFormed : Prop :=
  ∀ (i : Instr) (s : State) (t : Transfer), i ∈ [Instr.dec, .decu] → Decodable s t →
    (∀ cs : List Chunk, cs ≠ [] → (∀ c ∈ cs, c.wf = true) → chunkBytes cs = sourceBytes s t →
      (payloadOf cs).length =
        (cs.map fun c => c.marker.toNat - 1).sum + (cs.dropLast.filter fun c => decide (c.marker ≠ 0xFF#8)).length ∧
      ∃ u, exec i s = .next u ∧ Completed u (.ok (payloadOf cs).length) ∧
        destBytes u t (payloadOf cs).length = payloadOf cs ∧ OutsideKept s u t ∧ SameFrame s u) ∧
    (∀ u, exec i s = .next u → u.core.status.code = some 0x00#8 →
      ∃ cs : List Chunk, cs ≠ [] ∧ (∀ c ∈ cs, c.wf = true) ∧ chunkBytes cs = sourceBytes s t)

/-- R102, R116. ZERO_MARKER: a 0x00 where a marker is expected, after any number of chunks; ERR_AT is its offset in the frame. -/
def Obligations.ZeroMarkerIsReported : Prop :=
  ∀ (i : Instr) (s : State) (t : Transfer) (cs : List Chunk) (rest : List Byte), i ∈ [Instr.dec, .decu] → Decodable s t →
    (∀ c ∈ cs, c.wf = true) → sourceBytes s t = chunkBytes cs ++ 0x00#8 :: rest →
    ∃ u, exec i s = .next u ∧ Completed u (.zeroMarker (chunkBytes cs).length) ∧ OutsideKept s u t ∧ SameFrame s u

/-- R103, R118. CHUNK_OVERFLOW: a marker that declares more data bytes than remain, whatever they are; ERR_AT is the marker's offset. -/
def Obligations.ChunkOverflowIsReported : Prop :=
  ∀ (i : Instr) (s : State) (t : Transfer) (cs : List Chunk) (mk : Byte) (rest : List Byte), i ∈ [Instr.dec, .decu] →
    Decodable s t → (∀ c ∈ cs, c.wf = true) → mk ≠ 0x00#8 → rest.length < mk.toNat - 1 →
    sourceBytes s t = chunkBytes cs ++ mk :: rest →
    2 ≤ mk.toNat ∧
    ∃ u, exec i s = .next u ∧ Completed u (.chunkOverflow (chunkBytes cs).length mk t.n) ∧ OutsideKept s u t ∧ SameFrame s u

/-- R104, R117. ZERO_BINARY: a 0x00 among a chunk's data bytes; ERR_AT is the offset in the frame of the first one. -/
def Obligations.ZeroBinaryIsReported : Prop :=
  ∀ (i : Instr) (s : State) (t : Transfer) (cs : List Chunk) (mk : Byte) (data rest : List Byte), i ∈ [Instr.dec, .decu] →
    Decodable s t → (∀ c ∈ cs, c.wf = true) → 0x00#8 ∉ data → data.length < mk.toNat - 1 →
    mk.toNat - 1 ≤ data.length + 1 + rest.length → sourceBytes s t = chunkBytes cs ++ mk :: (data ++ 0x00#8 :: rest) →
    ∃ u, exec i s = .next u ∧ Completed u (.zeroBinary ((chunkBytes cs).length + 1 + data.length)) ∧
      OutsideKept s u t ∧ SameFrame s u

/-- R114. EMPTY_INPUT: a frame of length 0, whatever the destination; nothing is stored. -/
def Obligations.EmptyInputIsReported : Prop :=
  (∀ (i : Instr) (s : State) (t : Transfer), i ∈ [Instr.dec, .decu] → Ready s t → Admitted s t → t.n = 0 →
    ∃ u, exec i s = .next u ∧ Completed u .emptyInput ∧ SameFrame s u ∧ MemoryKept s u) ∧
  (∀ (c : Byte) (s u : State), writeCmd c s = .next u → u.core.status.code = some 0x01#8 →
    (decodeCmd c = some .dec ∨ decodeCmd c = some .decu) ∧ ∀ n, s.core.operands.srcLen = some n → n = 0)

/-- R97, R98, R99. In flight, the steps of the walk. READ_MARKER_STEP sets up the chunk, or ends with ZERO_MARKER or CHUNK_OVERFLOW. COPY_STEP
leaves an exhausted chunk, ends with ZERO_BINARY, or copies a byte. MAYBE_INSERT_STEP ends with OK at the end of the frame, else
appends a 0x00 unless the chunk was full. -/
def Obligations.DecoderSteps : Prop :=
  ∀ (s : State) (fl : InFlight) (t : Transfer) (d : DecRegs) (b : Byte), s.core.op = some fl → fl.work = .decoding d →
    fl.latched.transfer = some t → s.mem.read (t.src + d.i) = b →
    (d.state = .readMarker →
      (b = 0x00#8 → ∃ u, coreStep s = .next u ∧ Completed u (.zeroMarker d.i)) ∧
      (b ≠ 0x00#8 → t.n < (d.i + 1) + (b.toNat - 1) → ∃ u, coreStep s = .next u ∧ Completed u (.chunkOverflow d.i b t.n)) ∧
      (b ≠ 0x00#8 → (d.i + 1) + (b.toNat - 1) ≤ t.n → coreStep s = .next (s.working s.mem fl
        (.decoding { state := .copyChunk, i := d.i + 1, o := d.o, p := d.i, marker := b, k := b.toNat - 1 })))) ∧
    (d.state = .copyChunk →
      (d.k = 0 → coreStep s = .next (s.working s.mem fl (.decoding { d with state := .maybeInsertSentinel }))) ∧
      (d.k ≠ 0 → b = 0x00#8 → ∃ u, coreStep s = .next u ∧ Completed u (.zeroBinary d.i)) ∧
      (d.k ≠ 0 → b ≠ 0x00#8 → coreStep s = .next (s.working (s.mem.write (t.dst + d.o) b) fl
        (.decoding { d with i := d.i + 1, o := d.o + 1, k := d.k - 1 })))) ∧
    (d.state = .maybeInsertSentinel →
      (d.i = t.n → ∃ u, coreStep s = .next u ∧ Completed u (.ok d.o)) ∧
      (d.i ≠ t.n → d.marker ≠ 0xFF#8 → coreStep s = .next (s.working (s.mem.write (t.dst + d.o) 0x00#8) fl
        (.decoding { d with state := .readMarker, o := d.o + 1 }))) ∧
      (d.i ≠ t.n → d.marker = 0xFF#8 → coreStep s = .next (s.working s.mem fl (.decoding { d with state := .readMarker }))))

/-- R95. DECU and DEC answer the same wherever DECU completes; wherever DEC completes with anything but BUFFER_TOO_SMALL, DECU answers the
same. -/
def Obligations.UncheckedDecodeIsTheCheckedOne : Prop :=
  (∀ s u : State, exec .decu s = .next u → exec .dec s = .next u) ∧
  (∀ s u : State, exec .dec s = .next u → u.core.status.code ≠ some 0x02#8 → exec .decu s = .next u)

/-- R80. A successful decode gives at most n − 1 bytes, the decoder stores nothing at or beyond offset n − 1 at any core step before the completion
whatever the outcome, and the frame of n bytes 0x01 decodes to n − 1 bytes 0x00. -/
def Obligations.DecodeStaysBelowTheCapacity : Prop :=
  (∀ (i : Instr) (s u : State) (t : Transfer) (r : Nat), i ∈ [Instr.dec, .decu] → s.core.operands.transfer = some t →
    exec i s = .next u → u.core.result = some r → r ≤ t.n - 1 ∧ 1 ≤ t.n) ∧
  (∀ (i : Instr) (s v : State) (t : Transfer) (k : Nat), i ∈ [Instr.dec, .decu] → Decodable s t →
    issueThenSteps i k s = .next v → v.core.status.busy = true →
    ∀ a, a < t.dst ∨ t.dst + (t.n - 1) ≤ a → v.mem.read a = s.mem.read a) ∧
  (∀ (i : Instr) (s : State) (t : Transfer), i ∈ [Instr.dec, .decu] → Decodable s t →
    sourceBytes s t = List.replicate t.n 0x01#8 →
    ∃ u, exec i s = .next u ∧ Completed u (.ok (t.n - 1)) ∧ destBytes u t (t.n - 1) = List.replicate (t.n - 1) 0x00#8)

/-! ### Encoder and decoder together -/

/-- R93. Decoding, on any state that admits it, the frame that ENC or ENCU wrote gives OK, RESULT = len(p) and the payload p. -/
def Obligations.RoundTrip : Prop :=
  ∀ (i j : Instr) (s u s' : State) (t t' : Transfer) (r : Nat), i ∈ [Instr.enc, .encu] → j ∈ [Instr.dec, .decu] →
    s.core.operands.transfer = some t → exec i s = .next u → u.core.result = some r →
    Decodable s' t' → sourceBytes s' t' = destBytes u t r →
    ∃ v, exec j s' = .next v ∧ Completed v (.ok t.n) ∧ destBytes v t' t.n = sourceBytes s t

/-- R109. Re-encoding what a frame f decodes to gives f, except when f's last chunk is the single byte 0x01 after a chunk with marker 0xFF: then
it gives f without its last byte. -/
def Obligations.ReencodingGivesTheFrame : Prop :=
  ∀ (j i : Instr) (s u s' : State) (t t' : Transfer) (r : Nat) (cs : List Chunk), j ∈ [Instr.dec, .decu] →
    i ∈ [Instr.enc, .encu] → s.core.operands.transfer = some t → exec j s = .next u → u.core.result = some r →
    (∀ c ∈ cs, c.wf = true) → chunkBytes cs = sourceBytes s t →
    Encodable s' t' → sourceBytes s' t' = destBytes u t r →
    ∃ v l, exec i s' = .next v ∧ Completed v (.ok l) ∧
      ((∃ before c, cs = before ++ [c, { marker := 0x01#8, data := [] }] ∧ c.marker = 0xFF#8) →
        destBytes v t' l ++ [0x01#8] = sourceBytes s t) ∧
      ((¬ ∃ before c, cs = before ++ [c, { marker := 0x01#8, data := [] }] ∧ c.marker = 0xFF#8) →
        destBytes v t' l = sourceBytes s t)

/-- R110. If f decodes OK, then f with the delimiter 0x00 still attached gives ZERO_MARKER at len(f). -/
def Obligations.DelimiterIsAZeroMarker : Prop :=
  ∀ (i j : Instr) (s u s' : State) (t t' : Transfer), i ∈ [Instr.dec, .decu] → j ∈ [Instr.dec, .decu] →
    s.core.operands.transfer = some t → exec i s = .next u → u.core.status.code = some 0x00#8 →
    Decodable s' t' → sourceBytes s' t' = sourceBytes s t ++ [0x00#8] →
    ∃ v, exec j s' = .next v ∧ Completed v (.zeroMarker t.n)

/-! ### Registers and memory after an operation -/

/-- R27. After every completion, of any of the 256 words, exactly the result registers of the table hold a value; and a whole host read of a result
register that holds a value returns it and changes nothing but the reply (R21, R26, R142), in every state. -/
def Obligations.ResultRegistersOfEachCode : Prop :=
  (∀ (c : Byte) (s u : State), writeCmd c s = .next u →
    ∃ k, u.core.status.code = some k ∧
      (u.core.result.isSome = true ↔ k = 0x00#8) ∧
      (u.core.errHave.isSome = true ↔ k = 0x02#8) ∧ (u.core.errWant.isSome = true ↔ k = 0x02#8) ∧
      (u.core.errAt.isSome = true ↔ k = 0x03#8 ∨ k = 0x04#8 ∨ k = 0x05#8) ∧
      (u.core.errMarker.isSome = true ↔ k = 0x05#8) ∧ (u.core.errLen.isSome = true ↔ k = 0x05#8)) ∧
  (∀ (s : State) (v : Nat),
    (s.core.result = some v → hostRead 0x6#4 s.plat.width s = .next { s with reply := some (.value v) }) ∧
    (s.core.errAt = some v → hostRead 0x7#4 s.plat.width s = .next { s with reply := some (.value v) }) ∧
    (∀ m : Byte, s.core.errMarker = some m → hostRead 0x8#4 8 s = .next { s with reply := some (.value m.toNat) }) ∧
    (s.core.errLen = some v → hostRead 0x9#4 s.plat.width s = .next { s with reply := some (.value v) }) ∧
    (s.core.errHave = some v → hostRead 0xA#4 s.plat.width s = .next { s with reply := some (.value v) }) ∧
    (s.core.errWant = some v → hostRead 0xB#4 s.plat.width s = .next { s with reply := some (.value v) }))

/-- R65. Which commands end with which status code; codes above 0x07 are never produced. -/
def Obligations.StatusCodesByCommand : Prop :=
  ∀ (c : Byte) (s u : State), writeCmd c s = .next u →
    ∃ k, u.core.status.code = some k ∧ k.toNat ≤ 7 ∧
      (k = 0x00#8 → ∃ i, decodeCmd c = some i) ∧
      (k = 0x01#8 → decodeCmd c = some .dec ∨ decodeCmd c = some .decu) ∧
      (k = 0x02#8 → decodeCmd c = some .enc ∨ decodeCmd c = some .dec) ∧
      (k = 0x03#8 → decodeCmd c = some .dec ∨ decodeCmd c = some .decu) ∧
      (k = 0x04#8 → decodeCmd c = some .dec ∨ decodeCmd c = some .decu) ∧
      (k = 0x05#8 → decodeCmd c = some .dec ∨ decodeCmd c = some .decu) ∧
      (k = 0x06#8 → decodeCmd c = some .deccap) ∧
      (k = 0x07#8 → decodeCmd c = none)

/-- The frame of every command (R24, R42, R126): the operand registers, the other cores, the platform and the host's schedule stay; memory stays
but for the destination region of a transform, and all of it stays for a word that is no transform and for the codes EMPTY_INPUT and
BUFFER_TOO_SMALL. The region is that of the values DST_BASE and DST_LEN hold (of W-bit ones where they hold none: log entry 5). -/
def Obligations.CommandFrame : Prop :=
  ∀ (c : Byte) (s u : State), writeCmd c s = .next u →
    SameFrame s u ∧
    ((∀ i, decodeCmd c = some i → i.isTransform = false) → u.mem = s.mem) ∧
    (u.core.status.code = some 0x01#8 ∨ u.core.status.code = some 0x02#8 → u.mem = s.mem) ∧
    (∀ i, decodeCmd c = some i → i.isTransform = true →
      ∃ t, s.core.operands.Gives s.plat.width t ∧ OutsideKept s u t)

/-- R53. What the destination region and memory hold after each outcome, where the rule specifies it. -/
def Obligations.DestinationAfterCompletion : Prop :=
  (∀ (i : Instr) (s u : State) (t : Transfer) (r : Nat), i ∈ [Instr.enc, .encu] → s.core.operands.transfer = some t →
    exec i s = .next u → u.core.result = some r → destBytes u t r = frameOf (sourceBytes s t)) ∧
  (∀ (i : Instr) (s u : State) (t : Transfer) (r : Nat), i ∈ [Instr.dec, .decu] → s.core.operands.transfer = some t →
    exec i s = .next u → u.core.result = some r →
    ∃ cs : List Chunk, cs ≠ [] ∧ (∀ c ∈ cs, c.wf = true) ∧ chunkBytes cs = sourceBytes s t ∧ destBytes u t r = payloadOf cs) ∧
  (∀ (c : Byte) (s u : State), writeCmd c s = .next u →
    (u.core.status.code = some 0x01#8 ∨ u.core.status.code = some 0x02#8 ∨ u.core.status.code = some 0x07#8 ∨
      decodeCmd c = some .enccap ∨ decodeCmd c = some .deccap) → u.mem = s.mem)

/-- The model's form of a value the spec leaves open. After OK the destination bytes from RESULT on, and after a frame error all of them, are free
values, each its own draw (R53; log entry 10, DESIGN CHOICE). A command on an idle core that reads operand registers holding no value runs
as on W-bit operands those registers give; if none holds a value, each is its own draw (log entry 5, DESIGN CHOICE). Nothing is known of
a free value. -/
def Obligations.UnspecifiedValuesAreFree : Prop :=
  (∀ (i : Instr) (s u : State) (t : Transfer), s.core.operands.transfer = some t → exec i s = .next u →
    (∀ r, i.isTransform = true → u.core.result = some r →
      r ≤ t.d ∧ u.fresh = s.fresh + (t.d - r) ∧
      ∀ k, r + k < t.d → u.mem.read (t.dst + (r + k)) = Config.freeByte (s.fresh + k)) ∧
    (u.core.errAt.isSome = true → u.fresh = s.fresh + t.d ∧ ∀ k < t.d, u.mem.read (t.dst + k) = Config.freeByte (s.fresh + k))) ∧
  (∀ (i : Instr) (s : State), i.isTransform = true → s.core.status.busy = false →
    ∃ t f, s.core.operands.Gives s.plat.width t ∧ s.fresh ≤ f ∧
      (s.core.operands = Operands.empty → f = s.fresh + 4 ∧
        t.src = (Config.freeWord s.plat.width s.fresh).toNat ∧ t.n = (Config.freeWord s.plat.width (s.fresh + 1)).toNat ∧
        t.dst = (Config.freeWord s.plat.width (s.fresh + 2)).toNat ∧ t.d = (Config.freeWord s.plat.width (s.fresh + 3)).toNat) ∧
      (∀ u, exec i { s with core := { s.core with operands := t.operands }, fresh := f } = .next u →
        exec i s = .next { u with core := { u.core with operands := s.core.operands } }) ∧
      (∀ x, exec i { s with core := { s.core with operands := t.operands }, fresh := f } = .fault x → exec i s = .fault x)) ∧
  (∀ (i : Instr) (s : State), i.isTransform = false → s.core.status.busy = false → s.core.operands.srcLen = none →
    ∃ n, n = (Config.freeWord s.plat.width s.fresh).toNat ∧
      (i = .enccap → n + ceilDiv n 254 + 1 < 2 ^ s.plat.width → ∃ u, exec i s = .next u ∧ Completed u (.ok (n + ceilDiv n 254 + 1)) ∧
        SameFrame s u ∧ u.mem = s.mem) ∧
      (i = .enccap → 2 ^ s.plat.width ≤ n + ceilDiv n 254 + 1 → exec i s = .fault .capacityOverflow) ∧
      (i = .deccap → ∃ u, exec i s = .next u ∧ Completed u (if n = 0 then .invalidArgument else .ok (n - 1)) ∧
        SameFrame s u ∧ u.mem = s.mem))

/-- R54. No operation changes its source region, whatever its outcome: neither as one transition nor in any core step of it. -/
def Obligations.SourceIsNeverWritten : Prop :=
  (∀ (i : Instr) (s u : State) (t : Transfer), s.core.operands.transfer = some t → exec i s = .next u →
    ∀ a, InSource t a → u.mem.read a = s.mem.read a) ∧
  (∀ (s u : State) (t : Transfer), s.Inv → s.core.runningTransfer = some t → coreStep s = .next u →
    ∀ a, InSource t a → u.mem.read a = s.mem.read a)

/-- R42. The destination is never read back: two states with the same source bytes and any other memory end with the same registers, and
after OK with the same RESULT bytes at the start of the destination. -/
def Obligations.OnlyTheSourceIsRead : Prop :=
  ∀ (i : Instr) (s u : State) (t : Transfer) (m : Memory), s.core.operands.transfer = some t →
    m.readBytes t.src t.n = sourceBytes s t → exec i s = .next u →
    ∃ u', exec i { s with mem := m } = .next u' ∧ u'.core = u.core ∧
      ∀ r, i.isTransform = true → u.core.result = some r → destBytes u' t r = destBytes u t r

/-- R19. No state is carried from one operation to the next: STATUS, the result registers and whatever else an idle core holds beside its
operand registers make no difference to what any command word does. -/
def Obligations.NothingIsCarriedOver : Prop :=
  ∀ (c : Byte) (s : State) (k : CodecCore), s.core.status.busy = false → k.status.busy = false →
    k.operands = s.core.operands → writeCmd c { s with core := k } = writeCmd c s

/-! ### Outcomes and faults -/

/-- R112. Every operation ends with OK and a result, with an error status 0x01 to 0x07 and no result, or with a fault; none is refused. -/
def Obligations.ThreeOutcomes : Prop :=
  ∀ (c : Byte) (s : State),
    (∃ u, writeCmd c s = .next u ∧ u.core.status.code = some 0x00#8 ∧ u.core.result.isSome = true) ∨
    (∃ u k, writeCmd c s = .next u ∧ u.core.status.code = some k ∧ 1 ≤ k.toNat ∧ k.toNat ≤ 7 ∧ u.core.result = none) ∨
    (∃ f, writeCmd c s = .fault f ∧ f ∈ [Fault.uncheckedPrecondition, .capacityOverflow, .regionWrap, .regionOverlap,
      .unbackedRegion, .commandWhileBusy, .regionAccessWhileBusy])

/-- A fault of a command says what the operands are (R122): each fault only under its condition, over the values the operand registers hold. That
one which holds none gives any W-bit value and no fault of its own is log entry 5 (DESIGN CHOICE). -/
def Obligations.FaultsOnlyUnderTheirCondition : Prop :=
  ∀ (i : Instr) (s : State) (f : Fault), exec i s = .fault f →
    (f = .commandWhileBusy ∧ s.core.status.busy = true) ∨
    (f = .capacityOverflow ∧ i ∈ [Instr.enccap, .enc, .encu] ∧
      ∃ n, s.core.operands.GivesLength s.plat.width n ∧ 2 ^ s.plat.width ≤ encodeCapacity n) ∨
    (i.isTransform = true ∧ ∃ t, s.core.operands.Gives s.plat.width t ∧
      ((f = .regionWrap ∧ (2 ^ s.plat.width < t.src + t.n ∨ 2 ^ s.plat.width < t.dst + t.d)) ∨
       (f = .regionOverlap ∧ overlaps t.src t.n t.dst t.d = true) ∨
       (f = .unbackedRegion ∧ ∃ a, InSource t a ∧ readableAt s.plat a = false ∨ InDest t a ∧ writableAt s.plat a = false) ∨
       (f = .regionAccessWhileBusy ∧ ∃ c ∈ s.others, ∃ r ∈ c.runningRegions,
         overlaps t.src t.n r.1 r.2 = true ∨ overlaps t.dst t.d r.1 r.2 = true) ∨
       (f = .uncheckedPrecondition ∧
         (i = .encu ∧ t.d < encodeCapacity t.n ∨ i = .decu ∧ 1 < t.n ∧ t.d < t.n - 1))))

/-- The region checks of the four transforms (R43, R44, R45), one condition at a time, by the CMD write and by the atomic transition; ENCCAP and
DECCAP have none. That the CMD write itself takes the fault is log entry 11 (DEDUCED). That RegionWrap is named before RegionOverlap,
RegionOverlap before UnbackedRegion, and each before every other fault, is log entry 20 (DESIGN CHOICE; R125: which is named does not matter). -/
def Obligations.RegionChecks : Prop :=
  (∀ (i : Instr) (s : State) (t : Transfer), i.isTransform = true → Ready s t →
    (2 ^ s.plat.width < t.src + t.n ∨ 2 ^ s.plat.width < t.dst + t.d →
      exec i s = .fault .regionWrap ∧ issueCmd (encode i) s = .fault .regionWrap) ∧
    (t.src + t.n ≤ 2 ^ s.plat.width → t.dst + t.d ≤ 2 ^ s.plat.width →
      0 < t.n → 0 < t.d → t.src < t.dst + t.d → t.dst < t.src + t.n →
      exec i s = .fault .regionOverlap ∧ issueCmd (encode i) s = .fault .regionOverlap) ∧
    (t.src + t.n ≤ 2 ^ s.plat.width → t.dst + t.d ≤ 2 ^ s.plat.width →
      t.n = 0 ∨ t.d = 0 ∨ t.src + t.n ≤ t.dst ∨ t.dst + t.d ≤ t.src →
      (∃ a, InSource t a ∧ readableAt s.plat a = false ∨ InDest t a ∧ writableAt s.plat a = false) →
      exec i s = .fault .unbackedRegion ∧ issueCmd (encode i) s = .fault .unbackedRegion)) ∧
  (∀ (i : Instr) (s : State) (f : Fault), i.isTransform = false → exec i s = .fault f →
    f ≠ .regionWrap ∧ f ≠ .regionOverlap ∧ f ≠ .unbackedRegion)

/-- R125. Which condition decides, for each command in turn: any fault before any error status, EMPTY_INPUT before BUFFER_TOO_SMALL, both before
the frame's content. That regions which meet those of another core's running operation are a fault, and one before every error status too,
is log entry 12 (DEDUCED). -/
def Obligations.PriorityOfOutcomes : Prop :=
  (∀ (i : Instr) (s : State) (t : Transfer), i.isTransform = true → Ready s t → ¬ Admitted s t → ∃ f, exec i s = .fault f) ∧
  (∀ (i : Instr) (s : State) (t : Transfer), i ∈ [Instr.enc, .encu] → Ready s t →
    2 ^ s.plat.width ≤ encodeCapacity t.n → ∃ f, exec i s = .fault f) ∧
  (∀ (s : State) (t : Transfer), Ready s t →
    (t.d < encodeCapacity t.n → ∃ f, exec .encu s = .fault f) ∧ (1 < t.n ∧ t.d < t.n - 1 → ∃ f, exec .decu s = .fault f)) ∧
  (∀ (i : Instr) (s u : State) (t : Transfer), i ∈ [Instr.dec, .decu] → s.core.operands.transfer = some t →
    exec i s = .next u →
    (u.core.status.code = some 0x01#8 ↔ t.n = 0) ∧ (u.core.status.code = some 0x02#8 ↔ 1 < t.n ∧ t.d < t.n - 1)) ∧
  (∀ (s u : State) (t : Transfer), s.core.operands.transfer = some t → exec .enc s = .next u →
    (u.core.status.code = some 0x02#8 ↔ t.d < encodeCapacity t.n) ∧
    (u.core.status.code = some 0x00#8 ↔ encodeCapacity t.n ≤ t.d))

/-! ### The step view -/

/-- R52. Every command, run as one transition, answers what the CMD write and core steps of it lead to: the same fault or the same state. A fault
is one of the CMD write itself (R125 step 1; log entry 11), so nothing can come between. -/
def Obligations.AtomicViewIsTheStepView : Prop :=
  (∀ (i : Instr) (s : State), ∃ k, issueThenSteps i k s = exec i s) ∧
  (∀ (i : Instr) (s : State) (f : Fault), exec i s = .fault f ↔ issueCmd (encode i) s = .fault f)

/-- R87, R101, R144. How many core steps an operation takes: one for ENCCAP, DECCAP and an illegal word; n + 2, or one for n = 0, for ENC and ENCU
with OK, and not fewer; at most 3n for DEC and DECU. -/
def Obligations.CoreStepCounts : Prop :=
  (∀ (i : Instr) (s : State), i ∈ [Instr.enccap, .deccap] → issueThenSteps i 1 s = exec i s) ∧
  (∀ (c : Byte) (s v : State), decodeCmd c = none → issueCmd c s = .next v → coreSteps 1 v = execIllegal s) ∧
  (∀ (i : Instr) (s : State) (t : Transfer), i ∈ [Instr.enc, .encu] → Encodable s t →
    (t.n = 0 → issueThenSteps i 1 s = exec i s) ∧
    (1 ≤ t.n → issueThenSteps i (t.n + 2) s = exec i s ∧
      ∃ v, issueThenSteps i (t.n + 1) s = .next v ∧ v.core.status.busy = true)) ∧
  (∀ (i : Instr) (s : State) (t : Transfer), i ∈ [Instr.dec, .decu] → s.core.operands.transfer = some t → 1 ≤ t.n →
    issueThenSteps i (3 * t.n) s = exec i s)

/-- R32. Every operation completes. On an admitted operand set each command answers a next state and, in the step view, has BUSY = 0 and DONE = 1
after finitely many core steps; so has any operation in flight in a state of the invariant, an illegal command word's too. -/
def Obligations.EveryOperationCompletes : Prop :=
  (∀ (i : Instr) (s : State), AdmittedFor i s →
    ∃ k u, exec i s = .next u ∧ issueThenSteps i k s = .next u ∧ u.core.status.busy = false ∧ u.core.status.done = true) ∧
  (∀ (s : State) (fl : InFlight), s.Inv → s.core.op = some fl →
    ∃ k u, coreSteps k s = .next u ∧ u.core.status.busy = false ∧ u.core.status.done = true)

/-! ### Invariants -/

/-- A machine at power-on, on any platform with W ≥ 1 and any canonical memory inside the address space, meets the invariant (R136). -/
def Obligations.InvariantAtReset : Prop :=
  State.reset.Inv ∧ State.reset.CoresDisjoint ∧
  ∀ (p : Config.Platform) (extra : Nat) (m : Memory), 1 ≤ p.width → m.wf = true → (∀ c ∈ m, c.1 < 2 ^ p.width) →
    (State.powerOn p extra m).Inv ∧ (State.powerOn p extra m).CoresDisjoint

/-- Every step keeps the invariant (R23, R27, R34, R35, R40, R108): canonical memory inside the address space, flags, CODE and result registers
as the tables say, W-bit values, working registers in their ranges. That the latched operands of an operation in flight hold values and
establish no fault of their lengths is log entries 5 (DESIGN CHOICE) and 11 (DEDUCED). -/
def Obligations.InvariantIsKept : Prop :=
  ∀ s u : State, s.Inv → step s = .next u → u.Inv

/-- The cores share nothing but memory (R39, R133). A step changes no core but the addressed one: it leaves the others as they are, or only
turns to another core; and no step changes the platform. What a command word does on a core depends on the others through the regions of
their running operations alone, and what a core step does depends on them in no way. Every step keeps the regions of the running
operations of different cores disjoint. Turning to a core's number addresses that core and changes nothing else, and a number that is no core's
is refused (log entry 12, DESIGN CHOICE). That a reset leaves the other cores alone is log entry 16 (DEDUCED), and that a command is a
fault where its regions meet those of another core's operation is log entry 12 (DEDUCED). -/
def Obligations.CoresStayIndependent : Prop :=
  (∀ s u : State, step s = .next u →
    u.plat = s.plat ∧
    ((u.before = s.before ∧ u.after = s.after) ∨ (u.allCores = s.allCores ∧ u.mem = s.mem ∧ u.fresh = s.fresh)) ∧
    (s.CoresDisjoint → u.CoresDisjoint)) ∧
  (∀ (c : Byte) (s : State) (b a : List CodecCore),
    (∀ r, (∃ k ∈ b ++ a, r ∈ k.runningRegions) ↔ ∃ k ∈ s.others, r ∈ k.runningRegions) →
    (∀ u, writeCmd c s = .next u → writeCmd c { s with before := b, after := a } = .next { u with before := b, after := a }) ∧
    (∀ f, writeCmd c s = .fault f → writeCmd c { s with before := b, after := a } = .fault f)) ∧
  (∀ (s u : State) (b a : List CodecCore), coreStep s = .next u →
    coreStep { s with before := b, after := a } = .next { u with before := b, after := a }) ∧
  (∀ (s : State) (k : Nat),
    (∀ c, s.allCores[k]? = some c → ∃ u, selectCore k s = .next u ∧ u.core = c ∧ u.before.length = k ∧ u.allCores = s.allCores ∧
      u.plat = s.plat ∧ u.mem = s.mem ∧ u.host = s.host ∧ u.reply = s.reply ∧ u.fresh = s.fresh) ∧
    (s.allCores.length ≤ k → selectCore k s = .refused .noSuchCore))

/-! ### Starting an operation, and the operand registers -/

/-- R31. A CMD write on an idle core latches the command byte and the operands, sets BUSY, clears DONE, and leaves CODE and every result register
without a value; memory and the rest stay. It starts where the command is no fault: that a fault is taken by the CMD write itself, and by
nothing after it, is log entry 11 (DEDUCED). While BUSY = 1 it is a fault. -/
def Obligations.CmdWriteStartsAnOperation : Prop :=
  (∀ (c : Byte) (s u : State), issueCmd c s = .next u →
    s.core.status.busy = false ∧
    u.core.status = { code := none, busy := true, done := false } ∧
    (∃ l, u.core.op = some { cmd := c, latched := l, work := .started } ∧ s.core.operands.LatchedAs l) ∧
    u.core.result = none ∧ u.core.errAt = none ∧ u.core.errMarker = none ∧ u.core.errLen = none ∧
    u.core.errHave = none ∧ u.core.errWant = none ∧ SameFrame s u ∧ u.mem = s.mem) ∧
  (∀ (c : Byte) (s : State), s.core.status.busy = false →
    (∀ i, decodeCmd c = some i → ∀ f, exec i s ≠ .fault f) → ∃ u, issueCmd c s = .next u) ∧
  (∀ (c : Byte) (s : State), s.core.status.busy = true →
    issueCmd c s = .fault .commandWhileBusy ∧ hostWrite 0x0#4 8 c s = .fault .commandWhileBusy)

/-- R38. The whole operation uses the latched copies: a core step answers the same whatever the operand registers hold, keeps the latched copies,
and neither reads nor writes those registers. An operand write while busy is a fault, an operand read while busy returns the register. -/
def Obligations.OperandsAreLatched : Prop :=
  (∀ (c : Byte) (s u : State), issueCmd c s = .next u →
    ∃ fl, u.core.op = some fl ∧ fl.cmd = c ∧ s.core.operands.LatchedAs fl.latched ∧
      ∀ t, s.core.operands.transfer = some t → fl.latched = s.core.operands) ∧
  (∀ (s u : State) (o : Operands) (fl : InFlight), s.core.op = some fl → coreStep s = .next u →
      coreStep { s with core := { s.core with operands := o } } = .next { u with core := { u.core with operands := o } } ∧
      u.core.operands = s.core.operands ∧
      ∀ fl', u.core.op = some fl' → fl'.cmd = fl.cmd ∧ fl'.latched = fl.latched) ∧
  (∀ (s : State) (k : BitVec 4) (v : BitVec s.plat.width), s.core.status.busy = true → k ∈ [0x2#4, 0x3#4, 0x4#4, 0x5#4] →
    hostWrite k s.plat.width v s = .fault .operandWriteWhileBusy) ∧
  (∀ (s : State) (v : Nat), s.core.status.busy = true →
    (s.core.operands.srcBase = some v → hostRead 0x2#4 s.plat.width s = .next { s with reply := some (.value v) }) ∧
    (s.core.operands.srcLen = some v → hostRead 0x3#4 s.plat.width s = .next { s with reply := some (.value v) }) ∧
    (s.core.operands.dstBase = some v → hostRead 0x4#4 s.plat.width s = .next { s with reply := some (.value v) }) ∧
    (s.core.operands.dstLen = some v → hostRead 0x5#4 s.plat.width s = .next { s with reply := some (.value v) }))

/-- R24. A W-bit value written to an operand register on an idle core is what a read of it returns, and nothing else changes. -/
def Obligations.OperandsReadBackAsWritten : Prop :=
  ∀ (s : State) (v : BitVec s.plat.width), s.core.status.busy = false →
    (∃ u, hostWrite 0x2#4 s.plat.width v s = .next u ∧
      u = { s with core := { s.core with operands := { s.core.operands with srcBase := some v.toNat } } } ∧
      hostRead 0x2#4 s.plat.width u = .next { u with reply := some (.value v.toNat) }) ∧
    (∃ u, hostWrite 0x3#4 s.plat.width v s = .next u ∧
      u = { s with core := { s.core with operands := { s.core.operands with srcLen := some v.toNat } } } ∧
      hostRead 0x3#4 s.plat.width u = .next { u with reply := some (.value v.toNat) }) ∧
    (∃ u, hostWrite 0x4#4 s.plat.width v s = .next u ∧
      u = { s with core := { s.core with operands := { s.core.operands with dstBase := some v.toNat } } } ∧
      hostRead 0x4#4 s.plat.width u = .next { u with reply := some (.value v.toNat) }) ∧
    (∃ u, hostWrite 0x5#4 s.plat.width v s = .next u ∧
      u = { s with core := { s.core with operands := { s.core.operands with dstLen := some v.toNat } } } ∧
      hostRead 0x5#4 s.plat.width u = .next { u with reply := some (.value v.toNat) })

/-! ### Register accesses -/

/-- R23. A read of STATUS always answers: DONE, BUSY and the zero bits exactly, CODE when DONE = 1. BUSY and DONE are never both 1, CODE holds a
value exactly when DONE = 1, and a write to STATUS is ignored. -/
def Obligations.StatusAlwaysReads : Prop :=
  ∀ (s : State), s.Inv →
    (∃ v f, hostRead 0x1#4 16 s = .next { s with reply := some (.value v), fresh := f } ∧
      v / 1024 = 0 ∧ v / 512 % 2 = s.core.status.done.toNat ∧ v / 256 % 2 = s.core.status.busy.toNat ∧
      ∀ k, s.core.status.code = some k → v % 256 = k.toNat) ∧
    ¬ (s.core.status.busy = true ∧ s.core.status.done = true) ∧
    (s.core.status.code.isSome = true ↔ s.core.status.done = true) ∧
    (∀ v : BitVec 16, hostWrite 0x1#4 16 v s = .next s)

/-- R28. A read of a register without a value is a fault: CMD always, every register but STATUS after reset, an operand register never written, a
result register that R27 leaves without a value. -/
def Obligations.ReadWithoutValueFaults : Prop :=
  (∀ s : State, hostRead 0x0#4 8 s = .fault .readNoValue) ∧
  (∀ (s : State) (k : BitVec 4) (r : Reg), s.core = CodecCore.reset → Reg.ofNumber k = some r → r ≠ .status →
    hostRead k (r.width s.plat.width) s = .fault .readNoValue) ∧
  (∀ s : State,
    (s.core.operands.srcBase = none → hostRead 0x2#4 s.plat.width s = .fault .readNoValue) ∧
    (s.core.operands.srcLen = none → hostRead 0x3#4 s.plat.width s = .fault .readNoValue) ∧
    (s.core.operands.dstBase = none → hostRead 0x4#4 s.plat.width s = .fault .readNoValue) ∧
    (s.core.operands.dstLen = none → hostRead 0x5#4 s.plat.width s = .fault .readNoValue)) ∧
  (∀ (c : Byte) (s u : State), writeCmd c s = .next u →
    (u.core.status.code ≠ some 0x00#8 → hostRead 0x6#4 u.plat.width u = .fault .readNoValue) ∧
    (u.core.status.code ∉ [some 0x03#8, some 0x04#8, some 0x05#8] → hostRead 0x7#4 u.plat.width u = .fault .readNoValue) ∧
    (u.core.status.code ≠ some 0x05#8 → hostRead 0x8#4 8 u = .fault .readNoValue ∧
      hostRead 0x9#4 u.plat.width u = .fault .readNoValue) ∧
    (u.core.status.code ≠ some 0x02#8 → hostRead 0xA#4 u.plat.width u = .fault .readNoValue ∧
      hostRead 0xB#4 u.plat.width u = .fault .readNoValue)) ∧
  (∀ s : State, ∃ u, hostRead 0x1#4 16 s = .next u)

/-- R29. An access to a reserved register number is a fault. -/
def Obligations.ReservedRegistersFault : Prop :=
  ∀ (s : State) (k : BitVec 4) (bits : Nat) (v : BitVec bits), 0xC ≤ k.toNat →
    hostRead k bits s = .fault .reservedRegister ∧ hostWrite k bits v s = .fault .reservedRegister

/-- R30. A whole write to a read-only register changes nothing, busy or not. -/
def Obligations.ReadOnlyWritesAreIgnored : Prop :=
  ∀ (s : State) (v16 : BitVec 16) (v8 : BitVec 8) (v : BitVec s.plat.width),
    hostWrite 0x1#4 16 v16 s = .next s ∧ hostWrite 0x8#4 8 v8 s = .next s ∧
    ∀ k ∈ [0x6#4, 0x7#4, 0x9#4, 0xA#4, 0xB#4], hostWrite k s.plat.width v s = .next s

/-- A register access that is not of the register's whole width is a fault: a narrower one by R50, a wider one by log entry 25 (DESIGN CHOICE). That it
is this fault also while busy and of a register without a value is log entry 28 (DESIGN CHOICE). -/
def Obligations.PartialAccessesFault : Prop :=
  ∀ (s : State) (k : BitVec 4) (bits : Nat) (v : BitVec bits), k.toNat < 0xC →
    bits ≠ (if k = 0x0#4 ∨ k = 0x8#4 then 8 else if k = 0x1#4 then 16 else s.plat.width) →
    hostRead k bits s = .fault .partialRegisterAccess ∧ hostWrite k bits v s = .fault .partialRegisterAccess

/-- The register window (R11, R50; its layout is the model's, log entry 14): where the platform places the twelve registers at different addresses,
a whole read through it returns bytes that in the platform's byte order stand, up to the register's width, for the value a register read
returns, and a whole write of bytes does what the register write of that value does. Bits above the width are free values, as is the value
a register takes from a write in which they are not 0 (log entry 27, DESIGN CHOICE). An access from a register's first byte on of any
other length is a fault: of fewer bytes by R50, of more by log entry 25, whatever else would be one by log entry 28 (DESIGN CHOICE). -/
def Obligations.RegisterWindowAgrees : Prop :=
  ∀ (s : State) (win : Config.RegWindow) (k : BitVec 4) (r : Reg) (a : Nat), s.Inv → s.plat.window = some win →
    win.wf s.plat.width = true → win.base.Nodup → Reg.ofNumber k = some r → win.base[k.toNat]? = some a →
    (∀ u v, hostRead k (r.width s.plat.width) s = .next u → u.reply = some (.value v) →
      ∃ bs f, busRead a (r.byteCount s.plat.width) s = .next { u with reply := some (.bytes bs), fresh := f } ∧
        bs.length = r.byteCount s.plat.width ∧ valueOfBytes (byteOrder win r) bs % 2 ^ r.width s.plat.width = v ∧
        (r.width s.plat.width = 8 * r.byteCount s.plat.width → valueOfBytes (byteOrder win r) bs = v ∧ f = u.fresh)) ∧
    (∀ f, hostRead k (r.width s.plat.width) s = .fault f → busRead a (r.byteCount s.plat.width) s = .fault f) ∧
    (∀ bs : List Byte, bs.length = r.byteCount s.plat.width →
      (valueOfBytes (byteOrder win r) bs < 2 ^ r.width s.plat.width →
        busWrite a bs s =
          hostWrite k (r.width s.plat.width) (BitVec.ofNat _ (valueOfBytes (byteOrder win r) bs)) s) ∧
      (2 ^ r.width s.plat.width ≤ valueOfBytes (byteOrder win r) bs →
        busWrite a bs s = hostWrite k (r.width s.plat.width) (Config.freeWord _ s.fresh) { s with fresh := s.fresh + 1 })) ∧
    (∀ count, count ≠ r.byteCount s.plat.width → busRead a count s = .fault .partialRegisterAccess ∧
      ∀ bs : List Byte, bs.length = count → busWrite a bs s = .fault .partialRegisterAccess)

/-! ### Hazards, memory accesses, reset, command lines -/

/-- R140. What the host must not do while BUSY = 1: write CMD, write an operand register, let another agent reach a region of the operation, read
a result register. Each is its fault, and a STATUS read is none. H3 holds whatever the platform has at the byte. -/
def Obligations.BusyHazardsFault : Prop :=
  ∀ (s : State), s.Inv → s.core.status.busy = true →
    (∀ c : Byte, hostWrite 0x0#4 8 c s = .fault .commandWhileBusy) ∧
    (∀ k ∈ [0x2#4, 0x3#4, 0x4#4, 0x5#4], ∀ v : BitVec s.plat.width,
      hostWrite k s.plat.width v s = .fault .operandWriteWhileBusy) ∧
    (∀ fl i, s.core.op = some fl → decodeCmd fl.cmd = some i → i.isTransform = true →
      ∃ t, fl.latched = t.operands ∧ ∀ a, InSource t a ∨ InDest t a →
        memRead a s = .fault .regionAccessWhileBusy ∧ ∀ b, memWrite a b s = .fault .regionAccessWhileBusy) ∧
    (∀ k ∈ [0x6#4, 0x7#4, 0x9#4, 0xA#4, 0xB#4], hostRead k s.plat.width s = .fault .readNoValue) ∧
    hostRead 0x8#4 8 s = .fault .readNoValue ∧
    (∃ u, hostRead 0x1#4 16 s = .next u)

/-- The host places a byte and reads it back (R40, R51, R52, R139 step 1): on memory the platform backs and in no region of a running operation, a
write changes that byte alone, and a read returns the byte and changes nothing else. -/
def Obligations.HostPlacesBytes : Prop :=
  ∀ (s : State) (a : Nat) (v : Byte), a < 2 ^ s.plat.width → s.Inv →
    (∀ c ∈ s.allCores, ∀ t, c.runningTransfer = some t → ¬ InSource t a ∧ ¬ InDest t a) →
    (writableAt s.plat a = true → ∃ u, memWrite a v s = .next u ∧ u = { s with mem := u.mem } ∧ u.mem.wf = true ∧
      ∀ b, u.mem.read b = if b = a then v else s.mem.read b) ∧
    (readableAt s.plat a = true → memRead a s = .next { s with reply := some (.byte (s.mem.read a)) })

/-- A reset while BUSY = 1 abandons the operation (R137): the core's state is that of R136, the source region and all memory outside the destination
region stay, and every destination byte of an abandoned transform is a free value (log entry 10, DESIGN CHOICE of form). That every other
core stays is log entry 16 (DEDUCED), that the schedule goes on is too (DESIGN CHOICE). -/
def Obligations.ResetAbandonsTheOperation : Prop :=
  ∀ (s : State) (rest : List HostEvent), s.Inv → s.core.status.busy = true → s.host = .reset :: rest →
    ∃ u, step s = .next u ∧ u.core = CodecCore.reset ∧ u.plat = s.plat ∧ u.before = s.before ∧ u.after = s.after ∧
      u.host = rest ∧
      (s.core.runningTransfer = none → u.mem = s.mem) ∧
      (∀ t, s.core.runningTransfer = some t →
        OutsideKept s u t ∧ (∀ a, InSource t a → u.mem.read a = s.mem.read a) ∧
        ∀ k < t.d, u.mem.read (t.dst + k) = Config.freeByte (s.fresh + k))

/-- The state at power-on, on every platform and for every core (R136); and a reset of an idle core leaves it so, memory untouched. That the other
cores stay is log entry 16 (DEDUCED), that the schedule, the last reply and the free-value counter do is too (DESIGN CHOICE). -/
def Obligations.StateAfterReset : Prop :=
  (∀ (p : Config.Platform) (extra : Nat) (m : Memory),
    (State.powerOn p extra m).mem = m ∧
    ∀ c ∈ (State.powerOn p extra m).allCores,
      c.status.busy = false ∧ c.status.done = false ∧ c.status.code = none ∧
      c.operands.srcBase = none ∧ c.operands.srcLen = none ∧ c.operands.dstBase = none ∧ c.operands.dstLen = none ∧
      c.result = none ∧ c.errAt = none ∧ c.errMarker = none ∧ c.errLen = none ∧ c.errHave = none ∧ c.errWant = none ∧
      c.op = none ∧ (∀ b, (c.status.word b).toNat / 1024 = 0)) ∧
  (∀ (p : Config.Platform) (extra : Nat) (m : Memory) (s : State) (rest : List HostEvent), s.host = .reset :: rest →
    s.core.op = none → step s = .next { s with host := rest, core := (State.powerOn p extra m).core })

/-- The register writes a command line stands for (R70); and on an idle core its accesses, the wait for DONE included, come to the state its
command answers on the line's operands, the last read of STATUS having shown DONE = 1 and the command's code. That the CMD write runs
the whole operation in one step, so that the line takes the exact number of steps stated and one read of STATUS ends its wait, is log
entries 7 and 19 (DESIGN CHOICE). -/
def Obligations.CommandLinesRun : Prop :=
  (∀ w a b c d : Nat,
    (Line.enccap a).events w = [.write 0x3#4 w (BitVec.ofNat w a), .write 0x0#4 8 0x01#8, .poll] ∧
    (Line.deccap a).events w = [.write 0x3#4 w (BitVec.ofNat w a), .write 0x0#4 8 0x05#8, .poll] ∧
    ∀ l x, (l, x) ∈ [(Line.enc a b c d, 0x02#8), (.encu a b c d, 0x03#8), (.dec a b c d, 0x06#8), (.decu a b c d, 0x07#8)] →
      l.events w = [.write 0x2#4 w (BitVec.ofNat w a), .write 0x3#4 w (BitVec.ofNat w b), .write 0x4#4 w (BitVec.ofNat w c),
        .write 0x5#4 w (BitVec.ofNat w d), .write 0x0#4 8 x, .poll]) ∧
  ∀ (s u : State) (l : Line) (rest : List HostEvent) (k : Byte), s.core.status.busy = false → l.fits s.plat.width = true →
    s.host = l.events s.plat.width ++ rest →
    exec l.instr { s with host := .poll :: rest, core := { s.core with operands := l.operandsAfter s.core.operands } } = .next u →
    u.core.status.code = some k →
    RunsTo (l.operandWrites.length + 2) s { u with host := rest, reply := some (.value (512 + k.toNat)) }
end

