-- ==== Sys2Proof/Laws/Frames.lean ====
section
/-! SUPPORT. The frame of a payload, read byte by byte from the left, is the frame of 41_encoder.md R91. -/

namespace Sys2Proof.Machine

/-- What finalization (R86) adds for an open chunk holding the data `cur`. -/
def closing (cur : List Byte) (lastz : Bool) : List Byte :=
  if cur ≠ [] ∨ lastz = true then shortChunk cur else []

/-- The frame bytes that follow the closed chunks, when the open chunk holds `cur` and the payload bytes given are left (R84 to R86). -/
def streamed : List Byte → Bool → List Byte → List Byte
  | cur, lastz, [] => closing cur lastz
  | cur, _, b :: q =>
    if b = 0x00#8 then shortChunk cur ++ streamed [] true q
    else if cur.length + 1 = 254 then 0xFF#8 :: (cur ++ [b]) ++ streamed [] false q
    else streamed (cur ++ [b]) false q

theorem streamed_nil (cur : List Byte) (lastz : Bool) : streamed cur lastz [] = closing cur lastz := by
  simp [streamed]

theorem streamed_zero (cur : List Byte) (lastz : Bool) (q : List Byte) :
    streamed cur lastz (0x00#8 :: q) = shortChunk cur ++ streamed [] true q := by
  simp [streamed]

theorem streamed_full (cur : List Byte) (lastz : Bool) {b : Byte} (q : List Byte) (hb : b ≠ 0x00#8)
    (h : cur.length = 253) : streamed cur lastz (b :: q) = 0xFF#8 :: (cur ++ [b]) ++ streamed [] false q := by
  simp [streamed, hb, h]

theorem streamed_data (cur : List Byte) (lastz : Bool) {b : Byte} (q : List Byte) (hb : b ≠ 0x00#8)
    (h : cur.length ≠ 253) : streamed cur lastz (b :: q) = streamed (cur ++ [b]) false q := by
  simp [streamed, hb, h]

theorem chunksOpen_short (k : Nat) {s : List Byte} (h : s.length < 254) : chunksOpen k s = shortChunk s := by
  cases k with
  | zero => rfl
  | succ k => simp [chunksOpen, Nat.not_le.2 h]

theorem chunksLastLoop_short (k : Nat) {s : List Byte} (h : s.length ≤ 254) :
    chunksLastLoop k s = shortChunk s := by
  cases k with
  | zero => rfl
  | succ k => simp [chunksLastLoop, Nat.not_lt.2 h]

/-- A segment ended by a 0x00, read from the open chunk `cur` on. -/
theorem streamed_segment (s : List Byte) (hs : ∀ b ∈ s, b ≠ 0x00#8) (cur : List Byte) (lastz : Bool) (q : List Byte)
    (hc : cur.length ≤ 253) (k : Nat) (hk : cur.length + s.length ≤ k) :
    streamed cur lastz (s ++ 0x00#8 :: q) = chunksOpen k (cur ++ s) ++ streamed [] true q := by
  induction s generalizing cur lastz k with
  | nil => simp [streamed_zero, chunksOpen_short k (s := cur) (by omega)]
  | cons b s ih =>
    have hb : b ≠ 0x00#8 := hs b (by simp)
    have hs' : ∀ x ∈ s, x ≠ 0x00#8 := fun x hx => hs x (by simp [hx])
    by_cases hfull : cur.length = 253
    · obtain ⟨k, rfl⟩ : ∃ j, k = j + 1 := ⟨k - 1, by simp at hk; omega⟩
      rw [List.cons_append, streamed_full cur lastz _ hb hfull,
        ih hs' [] false (by simp) k (by simp at hk ⊢; omega)]
      have h1 : (cur ++ b :: s).take 254 = cur ++ [b] := by
        rw [show cur ++ b :: s = (cur ++ [b]) ++ s by simp]
        exact List.take_left' (by simp [hfull])
      have h2 : (cur ++ b :: s).drop 254 = s := by
        rw [show cur ++ b :: s = (cur ++ [b]) ++ s by simp]
        exact List.drop_left' (by simp [hfull])
      have h3 : 254 ≤ (cur ++ b :: s).length := by simp [hfull]; omega
      simp only [chunksOpen, h1, h2, if_pos h3]
      simp
    · rw [List.cons_append, streamed_data cur lastz _ hb hfull,
        ih hs' (cur ++ [b]) false (by simp; omega) k (by simp at hk ⊢; omega)]
      simp

/-- The last segment, read from the open chunk `cur` on. -/
theorem streamed_last (s : List Byte) (hs : ∀ b ∈ s, b ≠ 0x00#8) (cur : List Byte) (lastz : Bool)
    (hc : cur.length ≤ 253) (hne : cur ++ s ≠ [] ∨ lastz = true) (k : Nat) (hk : cur.length + s.length ≤ k) :
    streamed cur lastz s = if cur ++ s = [] then [0x01#8] else chunksLastLoop k (cur ++ s) := by
  induction s generalizing cur lastz k with
  | nil =>
    rw [List.append_nil] at *
    rw [streamed_nil, closing, if_pos hne]
    split
    · subst cur; rfl
    · rw [chunksLastLoop_short k (by omega)]
  | cons b s ih =>
    have hb : b ≠ 0x00#8 := hs b (by simp)
    have hs' : ∀ x ∈ s, x ≠ 0x00#8 := fun x hx => hs x (by simp [hx])
    rw [if_neg (by simp)]
    by_cases hfull : cur.length = 253
    · obtain ⟨k, rfl⟩ : ∃ j, k = j + 1 := ⟨k - 1, by simp at hk; omega⟩
      rw [streamed_full cur lastz _ hb hfull]
      have hsplit : cur ++ b :: s = (cur ++ [b]) ++ s := by simp
      cases s with
      | nil =>
        rw [streamed_nil, chunksLastLoop_short _ (by simp [hfull])]
        simp [closing, shortChunk, hfull]
      | cons x s =>
        rw [ih hs' [] false (by simp) (by simp) k (by simp at hk ⊢; omega)]
        have h1 : (cur ++ b :: x :: s).take 254 = cur ++ [b] := by
          rw [hsplit]; exact List.take_left' (by simp [hfull])
        have h2 : (cur ++ b :: x :: s).drop 254 = x :: s := by
          rw [hsplit]; exact List.drop_left' (by simp [hfull])
        have h3 : 254 < (cur ++ b :: x :: s).length := by simp [hfull]; omega
        simp only [chunksLastLoop, h1, h2, if_pos h3]
        simp
    · rw [streamed_data cur lastz _ hb hfull,
        ih hs' (cur ++ [b]) false (by simp; omega) (by simp) k (by simp at hk ⊢; omega)]
      simp

/-- The segments put together again, and no 0x00 inside one. -/
theorem segments_spec (p : List Byte) :
    p = ((segments p).1.flatMap fun s => s ++ [0x00#8]) ++ (segments p).2 ∧
      (∀ s ∈ (segments p).1, ∀ b ∈ s, b ≠ 0x00#8) ∧ ∀ b ∈ (segments p).2, b ≠ 0x00#8 := by
  induction p with
  | nil => simp [segments]
  | cons b p ih =>
    obtain ⟨h1, h2, h3⟩ := ih
    by_cases hb : b = 0x00#8
    · subst hb
      refine ⟨by simpa [segments] using h1, ?_, by simpa [segments] using h3⟩
      simpa [segments] using h2
    · rcases hr : (segments p).1 with _ | ⟨s, ss⟩
      · simp only [segments, hb, if_false, hr]
        rw [hr] at h1
        refine ⟨by simpa using h1, by simp, ?_⟩
        simpa [hb] using h3
      · simp only [segments, hb, if_false, hr]
        rw [hr] at h1 h2
        refine ⟨by simpa using h1, ?_, h3⟩
        intro s' hs'
        rcases List.mem_cons.1 hs' with rfl | hs'
        · intro x hx
          rcases List.mem_cons.1 hx with rfl | hx
          · exact hb
          · exact h2 s (by simp) x hx
        · exact h2 s' (by simp [hs'])

theorem chunksLast_eq (s : List Byte) :
    chunksLast s = if s = [] then [0x01#8] else chunksLastLoop s.length s := by
  unfold chunksLast
  simp [List.length_eq_zero_iff]

theorem streamed_segments (ss : List (List Byte)) (last : List Byte) (hss : ∀ s ∈ ss, ∀ b ∈ s, b ≠ 0x00#8)
    (hl : ∀ b ∈ last, b ≠ 0x00#8) (lastz : Bool) (hne : ss ≠ [] ∨ last ≠ [] ∨ lastz = true) :
    streamed [] lastz ((ss.flatMap fun s => s ++ [0x00#8]) ++ last) =
      (ss.flatMap fun s => chunksOpen s.length s) ++ chunksLast last := by
  induction ss generalizing lastz with
  | nil =>
    rw [List.flatMap_nil, List.nil_append, List.flatMap_nil, List.nil_append, chunksLast_eq,
      streamed_last last hl [] lastz (by simp) (by simpa using hne) last.length (by simp)]
    simp
  | cons s ss ih =>
    have : (((s :: ss).flatMap fun s => s ++ [0x00#8]) ++ last) =
        s ++ 0x00#8 :: ((ss.flatMap fun s => s ++ [0x00#8]) ++ last) := by simp
    rw [this, streamed_segment s (hss s (by simp)) [] lastz _ (by simp) s.length (by simp),
      ih (fun s' h => hss s' (by simp [h])) true (by simp)]
    simp

/-- The frame of a payload that is not empty, byte by byte. -/
theorem streamed_eq_frameOf {p : List Byte} (hp : p ≠ []) : streamed [] false p = frameOf p := by
  obtain ⟨h1, h2, h3⟩ := segments_spec p
  have hne : (segments p).1 ≠ [] ∨ (segments p).2 ≠ [] ∨ false = true := by
    by_contra h
    push Not at h
    apply hp
    rw [h1, h.1, h.2.1]
    rfl
  unfold frameOf
  rw [← streamed_segments _ _ h2 h3 false hne, ← h1]

@[simp] theorem frameOf_nil : frameOf [] = [0x01#8] := rfl

end Sys2Proof.Machine
end

