-- ==== Sys2Proof/Laws/Memory.lean ====
section
/-! SUPPORT. The laws of memory: read after write, what a write and a scramble leave alone, and that every operation keeps the
canonical form. -/

namespace Sys2Proof.Machine

/-! ### Reading after an operation -/

@[simp] theorem Memory.read_nil (a : Nat) : Memory.read [] a = Memory.blank := rfl

theorem Memory.read_cons (b : Nat) (v : Byte) (m : Memory) (a : Nat) :
    Memory.read ((b, v) :: m) a = if a = b then v else Memory.read m a := rfl

theorem Memory.erase_cons (x : Nat) (v : Byte) (m : Memory) (a : Nat) :
    Memory.erase ((x, v) :: m) a = if x = a then m.erase a else (x, v) :: m.erase a := by
  by_cases h : x = a <;> simp [Memory.erase, h]

theorem Memory.read_erase_other (m : Memory) {a b : Nat} (h : b ≠ a) : (m.erase a).read b = m.read b := by
  induction m with
  | nil => rfl
  | cons c m ih =>
    obtain ⟨x, v⟩ := c
    rw [Memory.erase_cons]
    split
    · subst x; simp [Memory.read_cons, h, ih]
    · simp [Memory.read_cons, ih]

theorem Memory.read_put_other (m : Memory) {a b : Nat} (v : Byte) (h : b ≠ a) :
    (Memory.put a v m).read b = m.read b := by
  unfold Memory.put
  split <;> simp [Memory.read_cons, h]

theorem Memory.read_place_other (m : Memory) {a b : Nat} (v : Byte) (h : b ≠ a) :
    (m.place a v).read b = m.read b := by
  induction m with
  | nil => simpa [Memory.place] using Memory.read_put_other [] v h
  | cons c m ih =>
    obtain ⟨x, w⟩ := c
    unfold Memory.place
    split
    · exact Memory.read_put_other _ v h
    · simp [Memory.read_cons, ih]

/-- No entry for `a`. -/
def Memory.lacks (m : Memory) (a : Nat) : Prop := ∀ c ∈ m, c.1 ≠ a

theorem Memory.erase_lacks (m : Memory) (a : Nat) : (m.erase a).lacks a := by
  intro c hc
  simpa using (List.mem_filter.1 hc).2

theorem Memory.read_of_lacks {m : Memory} {a : Nat} (h : m.lacks a) : m.read a = Memory.blank := by
  induction m with
  | nil => rfl
  | cons c m ih =>
    obtain ⟨x, w⟩ := c
    have hx : a ≠ x := fun e => h (x, w) (by simp) e.symm
    simpa [Memory.read_cons, hx] using ih fun c hc => h c (by simp [hc])

theorem Memory.read_put_same {m : Memory} {a : Nat} (v : Byte) (h : m.lacks a) :
    (Memory.put a v m).read a = v := by
  unfold Memory.put
  split
  · rename_i hv
    rw [Memory.read_of_lacks h, hv]
  · simp [Memory.read_cons]

theorem Memory.read_place_same {m : Memory} {a : Nat} (v : Byte) (h : m.lacks a) :
    (m.place a v).read a = v := by
  induction m with
  | nil => simpa [Memory.place] using Memory.read_put_same v h
  | cons c m ih =>
    obtain ⟨x, w⟩ := c
    have hx : a ≠ x := fun e => h (x, w) (by simp) e.symm
    unfold Memory.place
    split
    · exact Memory.read_put_same v h
    · simpa [Memory.read_cons, hx] using ih fun c hc => h c (by simp [hc])

/-- A read after a write to the same address gives the value written. -/
@[simp] theorem Memory.read_write_same (m : Memory) (a : Nat) (v : Byte) : (m.write a v).read a = v :=
  Memory.read_place_same v (m.erase_lacks a)

/-- A write leaves every other address alone. -/
theorem Memory.read_write_other (m : Memory) {a b : Nat} (v : Byte) (h : b ≠ a) : (m.write a v).read b = m.read b := by
  unfold Memory.write
  rw [Memory.read_place_other _ v h, Memory.read_erase_other _ h]

theorem Memory.read_write (m : Memory) (a b : Nat) (v : Byte) :
    (m.write a v).read b = if b = a then v else m.read b := by
  by_cases h : b = a
  · subst h; simp
  · simp [h, Memory.read_write_other]

/-! ### Sequences of bytes -/

@[simp] theorem Memory.readBytes_zero (m : Memory) (a : Nat) : m.readBytes a 0 = [] := rfl

theorem Memory.readBytes_succ (m : Memory) (a k : Nat) :
    m.readBytes a (k + 1) = m.read a :: m.readBytes (a + 1) k := rfl

@[simp] theorem Memory.readBytes_length (m : Memory) (a k : Nat) : (m.readBytes a k).length = k := by
  induction k generalizing a with
  | zero => rfl
  | succ k ih => simp [Memory.readBytes_succ, ih]

theorem Memory.readBytes_getElem (m : Memory) (a k i : Nat) (h : i < (m.readBytes a k).length) :
    (m.readBytes a k)[i] = m.read (a + i) := by
  induction k generalizing a i with
  | zero => simp at h
  | succ k ih =>
    cases i with
    | zero => simp [Memory.readBytes_succ]
    | succ i =>
      simp only [Memory.readBytes_succ, List.getElem_cons_succ]
      rw [ih (a + 1) i (by simpa [Memory.readBytes_succ] using h)]
      congr 1; omega

theorem Memory.readBytes_congr {m m' : Memory} {a k : Nat} (h : ∀ i < k, m'.read (a + i) = m.read (a + i)) :
    m'.readBytes a k = m.readBytes a k := by
  apply List.ext_getElem (by simp)
  intro i h1 h2
  rw [Memory.readBytes_getElem, Memory.readBytes_getElem]
  exact h i (by simpa using h1)

theorem Memory.readBytes_append (m : Memory) (a k l : Nat) :
    m.readBytes a (k + l) = m.readBytes a k ++ m.readBytes (a + k) l := by
  induction k generalizing a with
  | zero => simp
  | succ k ih =>
    rw [show k + 1 + l = (k + l) + 1 by omega, Memory.readBytes_succ, Memory.readBytes_succ, ih,
      List.cons_append, show a + 1 + k = a + (k + 1) by omega]

/-- Placing bytes leaves every address outside them alone. -/
theorem Memory.read_writeBytes_outside (m : Memory) (a : Nat) (bs : List Byte) {b : Nat}
    (h : b < a ∨ a + bs.length ≤ b) : (m.writeBytes a bs).read b = m.read b := by
  induction bs generalizing m a with
  | nil => rfl
  | cons x bs ih =>
    simp only [List.length_cons] at h
    rw [Memory.writeBytes, ih _ _ (by omega), Memory.read_write_other _ _ (by omega)]

/-- The bytes placed are read back. -/
theorem Memory.readBytes_writeBytes (m : Memory) (a : Nat) (bs : List Byte) :
    (m.writeBytes a bs).readBytes a bs.length = bs := by
  induction bs generalizing m a with
  | nil => rfl
  | cons x bs ih =>
    rw [List.length_cons, Memory.readBytes_succ, Memory.writeBytes, ih,
      Memory.read_writeBytes_outside _ _ _ (by omega), Memory.read_write_same]

/-- Unspecified bytes lie in their range only. -/
theorem Memory.read_scramble_outside (m : Memory) (a k f : Nat) {b : Nat} (h : b < a ∨ a + k ≤ b) :
    (m.scramble a k f).read b = m.read b := by
  induction k generalizing m a f with
  | zero => rfl
  | succ k ih =>
    rw [Memory.scramble, ih _ _ _ (by omega), Memory.read_write_other _ _ (by omega)]

/-! ### Addresses and the canonical form -/

/-- Each byte of an unspecified region is its own free value. -/
theorem Memory.read_scramble_inside (m : Memory) (a k f : Nat) {i : Nat} (h : i < k) :
    (m.scramble a k f).read (a + i) = Config.freeByte (f + i) := by
  induction k generalizing m a f i with
  | zero => omega
  | succ k ih =>
    rw [Memory.scramble]
    cases i with
    | zero => rw [Memory.read_scramble_outside _ _ _ _ (.inl (by omega)), Nat.add_zero, Memory.read_write_same, Nat.add_zero]
    | succ i => rw [show a + (i + 1) = a + 1 + i by omega, ih _ _ _ (by omega), show f + 1 + i = f + (i + 1) by omega]

theorem Memory.mem_put {a : Nat} {v : Byte} {m : Memory} {c : Host.Cell} (h : c ∈ Memory.put a v m) :
    c.1 = a ∨ c ∈ m := by
  unfold Memory.put at h
  split at h
  · exact .inr h
  · rcases List.mem_cons.1 h with rfl | h
    · exact .inl rfl
    · exact .inr h

theorem Memory.mem_place {a : Nat} {v : Byte} {m : Memory} {c : Host.Cell} (h : c ∈ m.place a v) :
    c.1 = a ∨ c ∈ m := by
  induction m with
  | nil => exact Memory.mem_put h
  | cons d m ih =>
    obtain ⟨x, w⟩ := d
    unfold Memory.place at h
    split at h
    · exact Memory.mem_put h
    · rcases List.mem_cons.1 h with rfl | h
      · exact .inr (by simp)
      · rcases ih h with h | h
        · exact .inl h
        · exact .inr (by simp [h])

/-- Every entry after a write is an old one or one for the address written. -/
theorem Memory.mem_write {a : Nat} {v : Byte} {m : Memory} {c : Host.Cell} (h : c ∈ m.write a v) :
    c.1 = a ∨ c ∈ m := by
  rcases Memory.mem_place h with h | h
  · exact .inl h
  · exact .inr (List.mem_filter.1 h).1

/-- Memory in canonical form: its two halves. -/
theorem Memory.wf_iff (m : Memory) :
    m.wf = true ↔ (m.map (·.1)).Pairwise (· < ·) ∧ ∀ c ∈ m, c.2 ≠ Memory.blank := by
  simp [Memory.wf]

theorem Memory.wf_cons_iff (a : Nat) (v : Byte) (m : Memory) :
    Memory.wf ((a, v) :: m) = true ↔ (∀ c ∈ m, a < c.1) ∧ v ≠ Memory.blank ∧ m.wf = true := by
  simp only [Memory.wf_iff, List.map_cons, List.pairwise_cons, List.mem_map, List.mem_cons]
  constructor
  · rintro ⟨⟨h1, h2⟩, h3⟩
    exact ⟨fun c hc => h1 _ ⟨c, hc, rfl⟩, h3 _ (.inl rfl), h2, fun c hc => h3 c (.inr hc)⟩
  · rintro ⟨h1, h2, h3, h4⟩
    refine ⟨⟨?_, h3⟩, ?_⟩
    · rintro _ ⟨c, hc, rfl⟩; exact h1 c hc
    · rintro c (rfl | hc)
      · exact h2
      · exact h4 c hc

theorem Memory.wf_erase {m : Memory} (a : Nat) (h : m.wf = true) : (m.erase a).wf = true := by
  rw [Memory.wf_iff] at h ⊢
  exact ⟨h.1.sublist (List.filter_sublist.map _), fun c hc => h.2 c (List.mem_filter.1 hc).1⟩

theorem Memory.wf_put {m : Memory} {a : Nat} (v : Byte) (h : m.wf = true) (ha : ∀ c ∈ m, a < c.1) :
    (Memory.put a v m).wf = true := by
  unfold Memory.put
  split
  · exact h
  · exact (Memory.wf_cons_iff _ _ _).2 ⟨ha, ‹_›, h⟩

theorem Memory.wf_place {m : Memory} {a : Nat} (v : Byte) (h : m.wf = true) (ha : m.lacks a) :
    (m.place a v).wf = true := by
  induction m with
  | nil => exact Memory.wf_put v h (by simp)
  | cons d m ih =>
    obtain ⟨x, w⟩ := d
    obtain ⟨h1, h2, h3⟩ := (Memory.wf_cons_iff _ _ _).1 h
    unfold Memory.place
    split
    · rename_i hlt
      refine Memory.wf_put v h ?_
      intro c hc
      rcases List.mem_cons.1 hc with rfl | hc
      · exact hlt
      · exact Nat.lt_trans hlt (h1 c hc)
    · rename_i hlt
      refine (Memory.wf_cons_iff _ _ _).2 ⟨?_, h2, ih h3 fun c hc => ha c (by simp [hc])⟩
      intro c hc
      rcases Memory.mem_place hc with hc | hc
      · have hx : x ≠ a := ha (x, w) (by simp)
        omega
      · exact h1 c hc

/-- A write keeps the canonical form. -/
theorem Memory.wf_write {m : Memory} (a : Nat) (v : Byte) (h : m.wf = true) : (m.write a v).wf = true :=
  Memory.wf_place v (Memory.wf_erase a h) (m.erase_lacks a)

theorem Memory.wf_writeBytes {m : Memory} (a : Nat) (bs : List Byte) (h : m.wf = true) :
    (m.writeBytes a bs).wf = true := by
  induction bs generalizing m a with
  | nil => exact h
  | cons x bs ih => exact ih (a + 1) (Memory.wf_write a x h)

theorem Memory.wf_scramble {m : Memory} (a k f : Nat) (h : m.wf = true) : (m.scramble a k f).wf = true := by
  induction k generalizing m a f with
  | zero => exact h
  | succ k ih => exact ih (a + 1) (f + 1) (Memory.wf_write a _ h)

/-- Every entry after a scramble is an old one or one in the range. -/
theorem Memory.mem_scramble {m : Memory} {a k f : Nat} {c : Host.Cell} (h : c ∈ m.scramble a k f) :
    (a ≤ c.1 ∧ c.1 < a + k) ∨ c ∈ m := by
  induction k generalizing m a f with
  | zero => exact .inr h
  | succ k ih =>
    rcases ih h with h | h
    · exact .inl ⟨by omega, by omega⟩
    · rcases Memory.mem_write h with h | h
      · exact .inl ⟨by omega, by omega⟩
      · exact .inr h

/-- Memories in canonical form that read the same are the same data. -/
theorem Memory.ext_of_wf {m m' : Memory} (h : m.wf = true) (h' : m'.wf = true) (hr : ∀ a, m.read a = m'.read a) :
    m = m' := by
  induction m generalizing m' with
  | nil =>
    cases m' with
    | nil => rfl
    | cons c m' =>
      obtain ⟨x, w⟩ := c
      have := hr x
      simp [Memory.read_cons] at this
      exact absurd this.symm ((Memory.wf_cons_iff _ _ _).1 h').2.1
  | cons c m ih =>
    obtain ⟨x, w⟩ := c
    obtain ⟨h1, h2, h3⟩ := (Memory.wf_cons_iff _ _ _).1 h
    have low : ∀ {l : Memory} {y : Nat}, (∀ c ∈ l, y < c.1) → ∀ z ≤ y, l.read z = Memory.blank := by
      intro l y hl z hz
      exact Memory.read_of_lacks fun c hc e => by have := hl c hc; omega
    cases m' with
    | nil =>
      have := hr x
      simp [Memory.read_cons] at this
      exact absurd this h2
    | cons d m' =>
      obtain ⟨y, u⟩ := d
      obtain ⟨g1, g2, g3⟩ := (Memory.wf_cons_iff _ _ _).1 h'
      have hxy : x = y := by
        rcases Nat.lt_trichotomy x y with hlt | rfl | hlt
        · have := hr x
          simp [Memory.read_cons, Nat.ne_of_lt hlt, low g1 x (Nat.le_of_lt hlt)] at this
          exact absurd this h2
        · rfl
        · have := hr y
          simp [Memory.read_cons, Nat.ne_of_lt hlt, low h1 y (Nat.le_of_lt hlt)] at this
          exact absurd this.symm g2
      subst hxy
      have hw : w = u := by simpa [Memory.read_cons] using hr x
      subst hw
      congr 1
      refine ih h3 g3 fun a => ?_
      by_cases ha : a = x
      · subst ha
        rw [low h1 a (Nat.le_refl a), low g1 a (Nat.le_refl a)]
      · simpa [Memory.read_cons, ha] using hr a

end Sys2Proof.Machine
end

