-- ==== Sys2Proof/Laws/State.lean ====
section
/-! SUPPORT. What each update of the state leaves in each field: one lemma per field per update, so that no proof unfolds a record
update. -/

namespace Sys2Proof.Machine


/-! ### Completion and start of an operation -/

@[simp] theorem CodecCore.complete_status (c : CodecCore) (o : OpOutcome) : (c.complete o).status = { code := some o.code, busy := false, done := true } := rfl
@[simp] theorem CodecCore.complete_operands (c : CodecCore) (o : OpOutcome) : (c.complete o).operands = c.operands := rfl
@[simp] theorem CodecCore.complete_result (c : CodecCore) (o : OpOutcome) : (c.complete o).result = o.result := rfl
@[simp] theorem CodecCore.complete_errAt (c : CodecCore) (o : OpOutcome) : (c.complete o).errAt = o.errAt := rfl
@[simp] theorem CodecCore.complete_errMarker (c : CodecCore) (o : OpOutcome) : (c.complete o).errMarker = o.overflow.map (·.1) := rfl
@[simp] theorem CodecCore.complete_errLen (c : CodecCore) (o : OpOutcome) : (c.complete o).errLen = o.overflow.map (·.2) := rfl
@[simp] theorem CodecCore.complete_errHave (c : CodecCore) (o : OpOutcome) : (c.complete o).errHave = o.tooSmall.map (·.1) := rfl
@[simp] theorem CodecCore.complete_errWant (c : CodecCore) (o : OpOutcome) : (c.complete o).errWant = o.tooSmall.map (·.2) := rfl
@[simp] theorem CodecCore.complete_op (c : CodecCore) (o : OpOutcome) : (c.complete o).op = none := rfl
@[simp] theorem CodecCore.start_status (c : CodecCore) (b : Byte) (o : Operands) : (c.start b o).status = Status.started := rfl
@[simp] theorem CodecCore.start_operands (c : CodecCore) (b : Byte) (o : Operands) : (c.start b o).operands = c.operands := rfl
@[simp] theorem CodecCore.start_result (c : CodecCore) (b : Byte) (o : Operands) : (c.start b o).result = none := rfl
@[simp] theorem CodecCore.start_errAt (c : CodecCore) (b : Byte) (o : Operands) : (c.start b o).errAt = none := rfl
@[simp] theorem CodecCore.start_errMarker (c : CodecCore) (b : Byte) (o : Operands) : (c.start b o).errMarker = none := rfl
@[simp] theorem CodecCore.start_errLen (c : CodecCore) (b : Byte) (o : Operands) : (c.start b o).errLen = none := rfl
@[simp] theorem CodecCore.start_errHave (c : CodecCore) (b : Byte) (o : Operands) : (c.start b o).errHave = none := rfl
@[simp] theorem CodecCore.start_errWant (c : CodecCore) (b : Byte) (o : Operands) : (c.start b o).errWant = none := rfl
@[simp] theorem CodecCore.start_op (c : CodecCore) (b : Byte) (o : Operands) : (c.start b o).op = some { cmd := b, latched := o, work := .started } := rfl
@[simp] theorem State.start_plat (s : State) (b : Byte) (o : Operands) : (s.start b o).plat = s.plat := rfl
@[simp] theorem State.start_before (s : State) (b : Byte) (o : Operands) : (s.start b o).before = s.before := rfl
@[simp] theorem State.start_core (s : State) (b : Byte) (o : Operands) : (s.start b o).core = s.core.start b o := rfl
@[simp] theorem State.start_after (s : State) (b : Byte) (o : Operands) : (s.start b o).after = s.after := rfl
@[simp] theorem State.start_mem (s : State) (b : Byte) (o : Operands) : (s.start b o).mem = s.mem := rfl
@[simp] theorem State.start_host (s : State) (b : Byte) (o : Operands) : (s.start b o).host = s.host := rfl
@[simp] theorem State.start_reply (s : State) (b : Byte) (o : Operands) : (s.start b o).reply = s.reply := rfl
@[simp] theorem State.start_fresh (s : State) (b : Byte) (o : Operands) : (s.start b o).fresh = s.fresh := rfl
@[simp] theorem State.complete_plat (s : State) (o : OpOutcome) : (s.complete o).plat = s.plat := rfl
@[simp] theorem State.complete_before (s : State) (o : OpOutcome) : (s.complete o).before = s.before := rfl
@[simp] theorem State.complete_core (s : State) (o : OpOutcome) : (s.complete o).core = s.core.complete o := rfl
@[simp] theorem State.complete_after (s : State) (o : OpOutcome) : (s.complete o).after = s.after := rfl
@[simp] theorem State.complete_mem (s : State) (o : OpOutcome) : (s.complete o).mem = s.mem := rfl
@[simp] theorem State.complete_host (s : State) (o : OpOutcome) : (s.complete o).host = s.host := rfl
@[simp] theorem State.complete_reply (s : State) (o : OpOutcome) : (s.complete o).reply = s.reply := rfl
@[simp] theorem State.complete_fresh (s : State) (o : OpOutcome) : (s.complete o).fresh = s.fresh := rfl

/-! ### Unspecified bytes -/

@[simp] theorem State.scramble_plat (s : State) (a k : Nat) : (s.scramble a k).plat = s.plat := rfl
@[simp] theorem State.scramble_before (s : State) (a k : Nat) : (s.scramble a k).before = s.before := rfl
@[simp] theorem State.scramble_core (s : State) (a k : Nat) : (s.scramble a k).core = s.core := rfl
@[simp] theorem State.scramble_after (s : State) (a k : Nat) : (s.scramble a k).after = s.after := rfl
@[simp] theorem State.scramble_mem (s : State) (a k : Nat) : (s.scramble a k).mem = s.mem.scramble a k s.fresh := rfl
@[simp] theorem State.scramble_host (s : State) (a k : Nat) : (s.scramble a k).host = s.host := rfl
@[simp] theorem State.scramble_reply (s : State) (a k : Nat) : (s.scramble a k).reply = s.reply := rfl
@[simp] theorem State.scramble_fresh (s : State) (a k : Nat) : (s.scramble a k).fresh = s.fresh + k := rfl

/-! ### Free values drawn -/

@[simp] theorem State.drawn_plat (s : State) (f : Nat) : (s.drawn f).plat = s.plat := rfl
@[simp] theorem State.drawn_before (s : State) (f : Nat) : (s.drawn f).before = s.before := rfl
@[simp] theorem State.drawn_core (s : State) (f : Nat) : (s.drawn f).core = s.core := rfl
@[simp] theorem State.drawn_after (s : State) (f : Nat) : (s.drawn f).after = s.after := rfl
@[simp] theorem State.drawn_mem (s : State) (f : Nat) : (s.drawn f).mem = s.mem := rfl
@[simp] theorem State.drawn_host (s : State) (f : Nat) : (s.drawn f).host = s.host := rfl
@[simp] theorem State.drawn_reply (s : State) (f : Nat) : (s.drawn f).reply = s.reply := rfl
@[simp] theorem State.drawn_fresh (s : State) (f : Nat) : (s.drawn f).fresh = f := rfl
@[simp] theorem State.drawn_others (s : State) (f : Nat) : (s.drawn f).others = s.others := rfl
@[simp] theorem State.drawn_drawn (s : State) (f g : Nat) : (s.drawn f).drawn g = s.drawn g := rfl
@[simp] theorem State.drawn_self (s : State) : s.drawn s.fresh = s := rfl

/-! ### Working registers -/

@[simp] theorem State.withWork_plat (s : State) (w : Work) : (s.withWork w).plat = s.plat := rfl
@[simp] theorem State.withWork_before (s : State) (w : Work) : (s.withWork w).before = s.before := rfl
@[simp] theorem State.withWork_core (s : State) (w : Work) : (s.withWork w).core = { s.core with op := s.core.op.map fun fl => { fl with work := w } } := rfl
@[simp] theorem State.withWork_after (s : State) (w : Work) : (s.withWork w).after = s.after := rfl
@[simp] theorem State.withWork_mem (s : State) (w : Work) : (s.withWork w).mem = s.mem := rfl
@[simp] theorem State.withWork_host (s : State) (w : Work) : (s.withWork w).host = s.host := rfl
@[simp] theorem State.withWork_reply (s : State) (w : Work) : (s.withWork w).reply = s.reply := rfl
@[simp] theorem State.withWork_fresh (s : State) (w : Work) : (s.withWork w).fresh = s.fresh := rfl

/-! ### Completion of a transform -/

@[simp] theorem State.settle_plat (s : State) (t : Transfer) (o : OpOutcome) (m : Memory) : (s.settle t o m).plat = s.plat := by cases o <;> rfl
@[simp] theorem State.settle_before (s : State) (t : Transfer) (o : OpOutcome) (m : Memory) : (s.settle t o m).before = s.before := by cases o <;> rfl
@[simp] theorem State.settle_after (s : State) (t : Transfer) (o : OpOutcome) (m : Memory) : (s.settle t o m).after = s.after := by cases o <;> rfl
@[simp] theorem State.settle_host (s : State) (t : Transfer) (o : OpOutcome) (m : Memory) : (s.settle t o m).host = s.host := by cases o <;> rfl
@[simp] theorem State.settle_reply (s : State) (t : Transfer) (o : OpOutcome) (m : Memory) : (s.settle t o m).reply = s.reply := by cases o <;> rfl
@[simp] theorem State.settle_core (s : State) (t : Transfer) (o : OpOutcome) (m : Memory) : (s.settle t o m).core = s.core.complete o := by cases o <;> rfl

/-! ### Reset and placing a command -/

@[simp] theorem resetCore_plat (s : State) : (resetCore s).plat = s.plat := by unfold resetCore; split <;> rfl
@[simp] theorem resetCore_before (s : State) : (resetCore s).before = s.before := by unfold resetCore; split <;> rfl
@[simp] theorem resetCore_after (s : State) : (resetCore s).after = s.after := by unfold resetCore; split <;> rfl
@[simp] theorem resetCore_host (s : State) : (resetCore s).host = s.host := by unfold resetCore; split <;> rfl
@[simp] theorem resetCore_reply (s : State) : (resetCore s).reply = s.reply := by unfold resetCore; split <;> rfl
@[simp] theorem resetCore_core (s : State) : (resetCore s).core = CodecCore.reset := rfl
@[simp] theorem placeCommand_plat (b : Byte) (s : State) : (placeCommand b s).plat = s.plat := rfl
@[simp] theorem placeCommand_before (b : Byte) (s : State) : (placeCommand b s).before = s.before := rfl
@[simp] theorem placeCommand_after (b : Byte) (s : State) : (placeCommand b s).after = s.after := rfl
@[simp] theorem placeCommand_mem (b : Byte) (s : State) : (placeCommand b s).mem = s.mem := rfl
@[simp] theorem placeCommand_reply (b : Byte) (s : State) : (placeCommand b s).reply = s.reply := rfl
@[simp] theorem placeCommand_fresh (b : Byte) (s : State) : (placeCommand b s).fresh = s.fresh := rfl
@[simp] theorem placeCommand_host (b : Byte) (s : State) : (placeCommand b s).host = .write 0x0#4 8 b :: s.host := rfl
@[simp] theorem placeCommand_operands (b : Byte) (s : State) : (placeCommand b s).core.operands = s.core.operands.filled := rfl
@[simp] theorem placeCommand_status (b : Byte) (s : State) : (placeCommand b s).core.status = s.core.status := rfl

/-! ### Cores -/

@[simp] theorem State.complete_others (s : State) (o : OpOutcome) : (s.complete o).others = s.others := rfl
@[simp] theorem State.scramble_others (s : State) (a k : Nat) : (s.scramble a k).others = s.others := rfl
@[simp] theorem State.withWork_others (s : State) (w : Work) : (s.withWork w).others = s.others := rfl

/-- The core is reset: nothing is running. -/
@[simp] theorem CodecCore.runningTransfer_reset : CodecCore.reset.runningTransfer = none := rfl

@[simp] theorem CodecCore.runningTransfer_complete (c : CodecCore) (o : OpOutcome) :
    (c.complete o).runningTransfer = none := rfl

/-- The working registers play no part in which regions an operation runs over. -/
@[simp] theorem CodecCore.runningTransfer_withWork (c : CodecCore) (w : Work) :
    ({ c with op := c.op.map fun fl => { fl with work := w } } : CodecCore).runningTransfer = c.runningTransfer := by
  unfold CodecCore.runningTransfer
  cases c.op <;> rfl

theorem CodecCore.runningRegions_congr {c d : CodecCore} (h : c.runningTransfer = d.runningTransfer) :
    c.runningRegions = d.runningRegions := by
  unfold CodecCore.runningRegions
  rw [h]

/-- Every core is the addressed one or one of the others. -/
theorem State.mem_allCores {s : State} {c : CodecCore} : c ∈ s.allCores ↔ c = s.core ∨ c ∈ s.others := by
  simp only [State.allCores, State.others, List.mem_append, List.mem_cons]
  tauto

end Sys2Proof.Machine
end

