-- ==== Sys2Proof/Laws/Operands.lean ====
section
/-! SUPPORT. The operands and the region checks: what a ready core reads, and that REGION_CHECKS passes exactly for the admitted
transfers. -/

namespace Sys2Proof.Machine

theorem Operands.transfer_eq_some {o : Operands} {t : Transfer} :
    o.transfer = some t ↔
      o = { srcBase := some t.src, srcLen := some t.n, dstBase := some t.dst, dstLen := some t.d } := by
  obtain ⟨a, b, c, d⟩ := o
  unfold Operands.transfer
  cases a <;> cases b <;> cases c <;> cases d <;> simp [Transfer.ext_iff]

theorem Ready.transfer {s : State} {t : Transfer} (h : Ready s t) : s.core.operands.transfer = some t :=
  Operands.transfer_eq_some.2 h.operands

/-! ### Latching -/

@[simp] theorem Transfer.operands_transfer (t : Transfer) : t.operands.transfer = some t := rfl

theorem Operands.eq_operands {o : Operands} {t : Transfer} (h : o.transfer = some t) : o = t.operands :=
  Operands.transfer_eq_some.1 h

@[simp] theorem latchWord_some (w f v : Nat) : latchWord w f (some v) = (v, f) := rfl

theorem latchWord_le (w f : Nat) (x : Option Nat) : f ≤ (latchWord w f x).2 := by
  cases x <;> simp [latchWord]

theorem latchWord_of_some {w f v : Nat} {x : Option Nat} (h : x = some v) : v = (latchWord w f x).1 := by
  rw [h]; rfl

theorem latchWord_of_none {w f : Nat} {x : Option Nat} (h : x = none) : (latchWord w f x).1 < 2 ^ w := by
  rw [h]; exact (Config.freeWord w f).isLt

theorem Operands.readLength_of_some {o : Operands} {n : Nat} (w f : Nat) (h : o.srcLen = some n) : o.readLength w f = (n, f) := by
  rw [readLength, h]; rfl

theorem Operands.readTransfer_of_some {o : Operands} {t : Transfer} (w f : Nat) (h : o.transfer = some t) :
    o.readTransfer w f = (t, f) := by
  rw [Operands.eq_operands h]; rfl

/-- What a sizing command reads is a length the registers give. -/
theorem Operands.readLength_gives (o : Operands) (w f : Nat) : o.GivesLength w (o.readLength w f).1 :=
  ⟨fun _ => latchWord_of_some, latchWord_of_none⟩

/-- What a transform reads are operands the registers give. -/
theorem Operands.readTransfer_gives (o : Operands) (w f : Nat) : o.Gives w (o.readTransfer w f).1 :=
  ⟨fun _ => latchWord_of_some, fun _ => latchWord_of_some, fun _ => latchWord_of_some, fun _ => latchWord_of_some,
    latchWord_of_none, latchWord_of_none, latchWord_of_none, latchWord_of_none⟩

/-- Registers that hold values give those and no others. -/
theorem Operands.Gives.eq {o : Operands} {w : Nat} {t u : Transfer} (h : o.Gives w t) (hu : o.transfer = some u) : u = t := by
  cases Operands.eq_operands hu
  exact Transfer.ext (h.src _ rfl) (h.n _ rfl) (h.dst _ rfl) (h.d _ rfl)

/-- W-bit registers give W-bit operands. -/
theorem Operands.Gives.fits {o : Operands} {w : Nat} {t : Transfer} (h : o.Gives w t) (ho : o.Fits w) : t.operands.Fits w := by
  have key : ∀ {x : Option Nat} {v : Nat}, (∀ u, x = some u → u = v) → (x = none → v < 2 ^ w) → (∀ u, x = some u → u < 2 ^ w) → v < 2 ^ w := by
    intro x v h1 h2 h3
    cases x with
    | none => exact h2 rfl
    | some u => exact h1 u rfl ▸ h3 u rfl
  constructor <;> rintro v ⟨⟩
  · exact key h.src h.srcFree ho.srcBase
  · exact key h.n h.nFree ho.srcLen
  · exact key h.dst h.dstFree ho.dstBase
  · exact key h.d h.dFree ho.dstLen

@[simp] theorem withTransfer_of_some {o : Operands} {t : Transfer} (s : State) (next : Transfer → State → Out) (h : o.transfer = some t) :
    withTransfer o s next = next t s := by
  rw [withTransfer, Operands.readTransfer_of_some _ _ h]; rfl

@[simp] theorem withLength_of_some {o : Operands} {n : Nat} (s : State) (next : Nat → State → Out) (h : o.srcLen = some n) :
    withLength o s next = next n s := by
  rw [withLength, Operands.readLength_of_some _ _ h]; rfl

@[simp] theorem whenIdle_of_idle {s : State} (next : Out) (h : s.core.status.busy = false) :
    whenIdle s next = next := by
  simp [whenIdle, h]

/-- `whenIdle` answers next only where its body does, on an idle core. -/
theorem whenIdle_next {s u : State} {x : Out} (h : whenIdle s x = .next u) :
    s.core.status.busy = false ∧ x = .next u := by
  unfold whenIdle at h
  split at h
  · cases h
  · rename_i hb
    exact ⟨by simpa using hb, h⟩

/-- Where every continuation over a transform's operands leads: to what it answers on the operands read. -/
theorem withTransfer_eq (o : Operands) (s : State) :
    ∃ t f, o.readTransfer s.plat.width s.fresh = (t, f) ∧ ∀ next, withTransfer o s next = next t (s.drawn f) :=
  ⟨_, _, rfl, fun _ => rfl⟩

theorem withLength_eq (o : Operands) (s : State) :
    ∃ n f, o.readLength s.plat.width s.fresh = (n, f) ∧ ∀ next, withLength o s next = next n (s.drawn f) :=
  ⟨_, _, rfl, fun _ => rfl⟩

@[simp] theorem unlessFault_none (x : Out) : unlessFault none x = x := rfl
@[simp] theorem unlessFault_some (f : Fault) (x : Out) : unlessFault (some f) x = .fault f := rfl
@[simp] theorem State.raiseOr_none (s : State) (x : Out) : s.raiseOr none x = x := rfl
@[simp] theorem State.raiseOr_some (s : State) (o : OpOutcome) (x : Out) : s.raiseOr (some o) x = .next (s.complete o) := rfl

theorem unlessFault_next {f : Option Fault} {x : Out} {u : State} (h : unlessFault f x = .next u) : f = none ∧ x = .next u := by
  cases f with
  | none => exact ⟨rfl, h⟩
  | some f => cases h

theorem State.raiseOr_next {s u : State} {e : Option OpOutcome} {x : Out} (h : s.raiseOr e x = .next u) :
    (∃ o, e = some o ∧ u = s.complete o) ∨ e = none ∧ x = .next u := by
  cases e with
  | none => exact .inr ⟨rfl, h⟩
  | some o => cases h; exact .inl ⟨o, rfl, rfl⟩

theorem overlaps_eq_true {a k b l : Nat} : overlaps a k b l = true ↔ 0 < k ∧ 0 < l ∧ a < b + l ∧ b < a + k := by
  simp [overlaps]

theorem overlaps_eq_false {a k b l : Nat} :
    overlaps a k b l = false ↔ k = 0 ∨ l = 0 ∨ a + k ≤ b ∨ b + l ≤ a := by
  simp only [overlaps, decide_eq_false_iff_not]
  omega

theorem overlaps_comm (a k b l : Nat) : overlaps a k b l = overlaps b l a k := by
  rw [Bool.eq_iff_iff, overlaps_eq_true, overlaps_eq_true]
  omega

theorem meetsRunning_eq_false {cs : List CodecCore} {a k : Nat} :
    meetsRunning cs a k = false ↔ ∀ c ∈ cs, ∀ r ∈ c.runningRegions, overlaps a k r.1 r.2 = false := by
  simp [meetsRunning]

/-- REGION_CHECKS finds no fault exactly for the admitted transfers. -/
theorem regionFault_eq_none {s : State} {t : Transfer} : regionFault s t = none ↔ Admitted s t := by
  unfold regionFault
  constructor
  · intro h
    split at h <;> [cases h; skip]
    split at h <;> [cases h; skip]
    split at h <;> [cases h; skip]
    split at h <;> [cases h; skip]
    split at h <;> [cases h; skip]
    split at h <;> [cases h; skip]
    rename_i h1 h2 h3 h4 h5 h6
    have h6' : meetsOthers s t = false := by simpa using h6
    rw [meetsOthers, Bool.or_eq_false_iff, meetsRunning_eq_false, meetsRunning_eq_false] at h6'
    refine ⟨?_, ?_, overlaps_eq_false.1 (by simpa using h3), ?_, ?_, h6'.1, h6'.2⟩
    · simpa [wraps] using h1
    · simpa [wraps] using h2
    · simpa using h4
    · simpa using h5
  · intro h
    have h1 : wraps s.plat t.src t.n = false := by simpa [wraps] using h.srcFits
    have h2 : wraps s.plat t.dst t.d = false := by simpa [wraps] using h.dstFits
    have h3 := overlaps_eq_false.2 h.disjoint
    have h4 : ((List.range t.n).all fun i => readableAt s.plat (t.src + i)) = true := by
      simpa using h.srcBacked
    have h5 : ((List.range t.d).all fun i => writableAt s.plat (t.dst + i)) = true := by
      simpa using h.dstBacked
    have h6 : meetsOthers s t = false := by
      rw [meetsOthers, Bool.or_eq_false_iff, meetsRunning_eq_false, meetsRunning_eq_false]
      exact ⟨h.srcFree, h.dstFree⟩
    simp [h1, h2, h3, h4, h5, h6]

/-- The region checks depend on the platform and the other cores only. -/
theorem regionFault_congr {s s' : State} (t : Transfer) (hp : s'.plat = s.plat) (ho : s'.others = s.others) :
    regionFault s' t = regionFault s t := by
  unfold regionFault meetsOthers
  rw [hp, ho]

@[simp] theorem regionFault_drawn (s : State) (f : Nat) (t : Transfer) : regionFault (s.drawn f) t = regionFault s t :=
  regionFault_congr t rfl rfl

/-- Admission looks at the platform and the other cores only. -/
theorem Admitted.congr {s s' : State} {t : Transfer} (h : Admitted s t) (hp : s'.plat = s.plat) (ho : s'.others = s.others) :
    Admitted s' t := regionFault_eq_none.1 ((regionFault_congr t hp ho).trans (regionFault_eq_none.2 h))

end Sys2Proof.Machine
end

