-- ==== Sys2Proof/Laws/Encoder.lean ====
section
/-! SUPPORT. What ENCODE_CORE does (41_encoder.md R83 to R86): the bounds its registers keep, where it writes, and the frame it writes. -/

namespace Sys2Proof.Machine

theorem encInit_ok (t : Transfer) : encInit.Ok t := by
  constructor <;> simp [encInit]

/-! ### One byte -/

theorem encByteStep_zero {t : Transfer} {e : EncRegs} {m : Memory} (hb : t.srcRead m e.i = 0x00#8) :
    encByteStep t e m =
      ({ i := e.i + 1, c := e.c + 1, m := e.c, l := 1, lastz := true }, t.dstWrite m e.m (BitVec.ofNat 8 e.l)) := by
  simp [encByteStep, sentinelStep, Config.sentinel, hb]

theorem encByteStep_full {t : Transfer} {e : EncRegs} {m : Memory} (hb : t.srcRead m e.i ≠ 0x00#8) (hl : e.l = 254) :
    encByteStep t e m =
      ({ i := e.i + 1, c := e.c + 2, m := e.c + 1, l := 1, lastz := false },
        t.dstWrite (t.dstWrite m e.c (t.srcRead m e.i)) e.m 0xFF#8) := by
  simp [encByteStep, nonsentinelStep, Config.sentinel, Config.maxMarker, hb, hl]

theorem encByteStep_data {t : Transfer} {e : EncRegs} {m : Memory} (hb : t.srcRead m e.i ≠ 0x00#8) (hl : e.l ≠ 254) :
    encByteStep t e m =
      ({ i := e.i + 1, c := e.c + 1, m := e.m, l := e.l + 1, lastz := false },
        t.dstWrite m e.c (t.srcRead m e.i)) := by
  simp [encByteStep, nonsentinelStep, Config.sentinel, Config.maxMarker, hb, hl]

/-- The three things one payload byte can do (R84, R85). -/
theorem encByteStep_cases (t : Transfer) (e : EncRegs) (m : Memory) :
    (t.srcRead m e.i = 0x00#8 ∧ encByteStep t e m =
      ({ i := e.i + 1, c := e.c + 1, m := e.c, l := 1, lastz := true }, t.dstWrite m e.m (BitVec.ofNat 8 e.l))) ∨
    (t.srcRead m e.i ≠ 0x00#8 ∧ e.l = 254 ∧ encByteStep t e m =
      ({ i := e.i + 1, c := e.c + 2, m := e.c + 1, l := 1, lastz := false },
        t.dstWrite (t.dstWrite m e.c (t.srcRead m e.i)) e.m 0xFF#8)) ∨
    (t.srcRead m e.i ≠ 0x00#8 ∧ e.l ≠ 254 ∧ encByteStep t e m =
      ({ i := e.i + 1, c := e.c + 1, m := e.m, l := e.l + 1, lastz := false },
        t.dstWrite m e.c (t.srcRead m e.i))) := by
  by_cases hb : t.srcRead m e.i = 0x00#8
  · exact .inl ⟨hb, encByteStep_zero hb⟩
  · by_cases hl : e.l = 254
    · exact .inr (.inl ⟨hb, hl, encByteStep_full hb hl⟩)
    · exact .inr (.inr ⟨hb, hl, encByteStep_data hb hl⟩)

/-- One payload byte keeps the bounds of the registers (R33, R34, R92). -/
theorem encByteStep_ok {t : Transfer} {e : EncRegs} (m : Memory) (h : e.Ok t) (hi : e.i < t.n) :
    (encByteStep t e m).1.Ok t := by
  obtain ⟨h1, h2, h3, h4, h5, h6⟩ := h
  rcases encByteStep_cases t e m with ⟨-, he⟩ | ⟨-, hl, he⟩ | ⟨-, hl, he⟩ <;> rw [he] <;>
    constructor <;> simp only <;> omega

/-- The output cursor stays below the capacity (R92). -/
theorem EncRegs.Ok.cursor_lt {t : Transfer} {e : EncRegs} (h : e.Ok t) : e.c < encodeCapacity t.n + 1 ∧
    (e.i < t.n → e.c + 1 < encodeCapacity t.n + 1) := by
  obtain ⟨h1, h2, h3, h4, h5, h6⟩ := h
  simp only [encodeCapacity, ceilDiv, Config.maxData]
  omega

/-- One payload byte writes below the new output cursor, and not into the open slot. -/
theorem encByteStep_outside {t : Transfer} {e : EncRegs} (m : Memory) (h : e.Ok t) (a : Nat)
    (ha : a < t.dst ∨ t.dst + (encByteStep t e m).1.c ≤ a ∨ a = t.dst + (encByteStep t e m).1.m) :
    (encByteStep t e m).2.read a = m.read a := by
  obtain ⟨h1, h2, h3, h4, h5, h6⟩ := h
  rcases encByteStep_cases t e m with ⟨-, he⟩ | ⟨-, hl, he⟩ | ⟨-, hl, he⟩ <;> rw [he] at ha ⊢ <;>
    simp only [Transfer.dstWrite] at ha ⊢
  · rw [Memory.read_write_other _ _ (by omega)]
  · rw [Memory.read_write_other _ _ (by omega), Memory.read_write_other _ _ (by omega)]
  · rw [Memory.read_write_other _ _ (by omega)]

/-- The output cursor only grows, and a new open slot lies at or above it. -/
theorem encByteStep_mono (t : Transfer) (e : EncRegs) (m : Memory) :
    (encByteStep t e m).1.i = e.i + 1 ∧ e.c ≤ (encByteStep t e m).1.c ∧
      ((encByteStep t e m).1.m = e.m ∨ e.c ≤ (encByteStep t e m).1.m) := by
  rcases encByteStep_cases t e m with ⟨-, he⟩ | ⟨-, hl, he⟩ | ⟨-, hl, he⟩ <;> rw [he] <;> simp

theorem encByteStep_wf (t : Transfer) (e : EncRegs) {m : Memory} (h : m.wf = true) : (encByteStep t e m).2.wf = true := by
  rcases encByteStep_cases t e m with ⟨-, he⟩ | ⟨-, -, he⟩ | ⟨-, -, he⟩ <;> rw [he]
  · exact Memory.wf_write _ _ h
  · exact Memory.wf_write _ _ (Memory.wf_write _ _ h)
  · exact Memory.wf_write _ _ h

/-! ### The loop -/

theorem encLoop_ok {t : Transfer} (k : Nat) {e : EncRegs} (m : Memory) (h : e.Ok t) (hk : e.i + k ≤ t.n) :
    (encLoop t k e m).1.Ok t ∧ (encLoop t k e m).1.i = e.i + k := by
  induction k generalizing e m with
  | zero => exact ⟨h, rfl⟩
  | succ k ih =>
    have hi := (encByteStep_mono t e m).1
    have := ih (encByteStep t e m).2 (encByteStep_ok m h (by omega)) (by omega)
    simp only [encLoop]
    exact ⟨this.1, by omega⟩

theorem encLoop_mono (t : Transfer) (k : Nat) (e : EncRegs) (m : Memory) :
    e.c ≤ (encLoop t k e m).1.c ∧ ((encLoop t k e m).1.m = e.m ∨ e.c ≤ (encLoop t k e m).1.m) := by
  induction k generalizing e m with
  | zero => simp [encLoop]
  | succ k ih =>
    have h1 := (encByteStep_mono t e m).2
    have h2 := ih (encByteStep t e m).1 (encByteStep t e m).2
    simp only [encLoop]
    omega

/-- The loop writes below its output cursor, and not into the open slot. -/
theorem encLoop_outside {t : Transfer} (k : Nat) {e : EncRegs} (m : Memory) (h : e.Ok t) (hk : e.i + k ≤ t.n) (a : Nat)
    (ha : a < t.dst ∨ t.dst + (encLoop t k e m).1.c ≤ a ∨ a = t.dst + (encLoop t k e m).1.m) :
    (encLoop t k e m).2.read a = m.read a := by
  induction k generalizing e m with
  | zero => rfl
  | succ k ih =>
    have h1 := encByteStep_mono t e m
    have hok := encByteStep_ok m h (by omega)
    have h2 := encLoop_mono t k (encByteStep t e m).1 (encByteStep t e m).2
    simp only [encLoop] at ha ⊢
    rw [ih (encByteStep t e m).2 hok (by omega) ha, encByteStep_outside m h a]
    omega

/-- What memory holds while the encoder runs: the bytes `done` of the closed chunks, then the slot, then the data `cur` of the open
chunk; nothing at or above the output cursor, nor the open slot, has been written. -/
structure Encoded (t : Transfer) (m0 : Memory) (e : EncRegs) (m : Memory) (done cur : List Byte) : Prop where
  ok : e.Ok t
  slot : e.m = done.length
  len : e.l = cur.length + 1
  doneBytes : m.readBytes t.dst done.length = done
  curBytes : m.readBytes (t.dst + done.length + 1) cur.length = cur
  outside : ∀ a, a < t.dst ∨ t.dst + e.c ≤ a ∨ a = t.dst + e.m → m.read a = m0.read a

/-- The source region and the destination region do not meet (R44). -/
def Transfer.Apart (t : Transfer) : Prop := t.n = 0 ∨ t.d = 0 ∨ t.src + t.n ≤ t.dst ∨ t.dst + t.d ≤ t.src

theorem Encoded.source {t : Transfer} {m0 m : Memory} {e : EncRegs} {done cur : List Byte}
    (h : Encoded t m0 e m done cur) (hd : encodeCapacity t.n ≤ t.d) (ha : t.Apart) {i : Nat} (hi : i < t.n) :
    m.read (t.src + i) = m0.read (t.src + i) := by
  apply h.outside
  have hc := h.ok.cursor_lt.1
  have : 0 < encodeCapacity t.n := by unfold encodeCapacity; omega
  unfold Transfer.Apart at ha
  omega

theorem readBytes_snoc {m : Memory} {a k : Nat} : m.readBytes a (k + 1) = m.readBytes a k ++ [m.read (a + k)] := by
  rw [Memory.readBytes_append]
  rfl

/-- The frame so far, if one more byte is taken: what is closed and open after it (R84, R85). -/
theorem Encoded.step {t : Transfer} {m0 m : Memory} {e : EncRegs} {done cur : List Byte}
    (h : Encoded t m0 e m done cur) (hi : e.i < t.n) (q : List Byte) :
    ∃ done' cur', Encoded t m0 (encByteStep t e m).1 (encByteStep t e m).2 done' cur' ∧
      done' ++ streamed cur' (encByteStep t e m).1.lastz q =
        done ++ streamed cur e.lastz (t.srcRead m e.i :: q) := by
  have hok := encByteStep_ok m h.ok hi
  have hout := encByteStep_outside m h.ok
  obtain ⟨h1, h2, h3, h4, h5, h6⟩ := h.ok
  have hs := h.slot
  have hl := h.len
  rcases encByteStep_cases t e m with ⟨hb, he⟩ | ⟨hb, hl', he⟩ | ⟨hb, hl', he⟩ <;> rw [he] at hok hout ⊢ <;>
    simp only [Transfer.dstWrite] at hout ⊢
  · refine ⟨done ++ shortChunk cur, [], ⟨hok, ?_, by simp, ?_, by simp, ?_⟩, ?_⟩
    · simp [shortChunk]; omega
    · rw [shortChunk, List.length_append, List.length_cons, show done.length + (cur.length + 1) = done.length + 1 + cur.length by omega,
        Memory.readBytes_append, readBytes_snoc, ← hs, Memory.read_write_same]
      rw [Memory.readBytes_congr (m := m), Memory.readBytes_congr (m := m) (a := t.dst + (e.m + 1))]
      · rw [show t.dst + (e.m + 1) = t.dst + done.length + 1 by omega, h.curBytes, hs, h.doneBytes, hl]
        simp
      · intro i hi'; exact Memory.read_write_other _ _ (by omega)
      · intro i hi'; exact Memory.read_write_other _ _ (by omega)
    · intro a ha
      rw [hout a (by simp at ha ⊢; omega)]
      apply h.outside
      simp at ha; omega
    · rw [hb, streamed_zero]; simp
  · refine ⟨done ++ 0xFF#8 :: (cur ++ [t.srcRead m e.i]), [], ⟨hok, ?_, by simp, ?_, by simp, ?_⟩, ?_⟩
    · simp; omega
    · rw [List.length_append, List.length_cons, List.length_append,
        show done.length + (cur.length + [t.srcRead m e.i].length + 1) = done.length + 1 + cur.length + 1 by simp; omega,
        readBytes_snoc, Memory.readBytes_append, readBytes_snoc, ← hs, Memory.read_write_same,
        Memory.read_write_other _ _ (by omega), show t.dst + (e.m + 1 + cur.length) = t.dst + e.c by omega,
        Memory.read_write_same]
      rw [Memory.readBytes_congr (m := m), Memory.readBytes_congr (m := m) (a := t.dst + (e.m + 1))]
      · rw [show t.dst + (e.m + 1) = t.dst + done.length + 1 by omega, h.curBytes, hs, h.doneBytes]
        simp
      · intro i hi'
        rw [Memory.read_write_other _ _ (by omega), Memory.read_write_other _ _ (by omega)]
      · intro i hi'
        rw [Memory.read_write_other _ _ (by omega), Memory.read_write_other _ _ (by omega)]
    · intro a ha
      rw [hout a (by simp at ha ⊢; omega)]
      apply h.outside
      simp at ha; omega
    · rw [streamed_full cur _ q hb (by omega)]; simp
  · refine ⟨done, cur ++ [t.srcRead m e.i], ⟨hok, hs, ?_, ?_, ?_, ?_⟩, ?_⟩
    · simp; omega
    · rw [Memory.readBytes_congr (m := m)]
      · exact h.doneBytes
      · intro i hi'; exact Memory.read_write_other _ _ (by omega)
    · rw [List.length_append, show cur.length + [t.srcRead m e.i].length = cur.length + 1 by simp, readBytes_snoc,
        show t.dst + done.length + 1 + cur.length = t.dst + e.c by omega, Memory.read_write_same,
        Memory.readBytes_congr (m := m)]
      · rw [h.curBytes]
      · intro i hi'; exact Memory.read_write_other _ _ (by omega)
    · intro a ha
      rw [Memory.read_write_other _ _ (by simp at ha; omega)]
      apply h.outside
      simp at ha; omega
    · rw [streamed_data cur _ q hb (by omega)]

/-- The loop takes the payload bytes left, one by one. -/
theorem Encoded.loop {t : Transfer} {m0 : Memory} (hd : encodeCapacity t.n ≤ t.d) (ha : t.Apart) (k : Nat) {m : Memory}
    {e : EncRegs} {done cur : List Byte} (h : Encoded t m0 e m done cur) (hk : e.i + k = t.n) :
    ∃ done' cur', Encoded t m0 (encLoop t k e m).1 (encLoop t k e m).2 done' cur' ∧
      done' ++ closing cur' (encLoop t k e m).1.lastz =
        done ++ streamed cur e.lastz (m0.readBytes (t.src + e.i) k) := by
  induction k generalizing e m done cur with
  | zero => exact ⟨done, cur, h, by simp [encLoop, streamed_nil]⟩
  | succ k ih =>
    have hi := (encByteStep_mono t e m).1
    obtain ⟨d1, c1, g1, g2⟩ := h.step (by omega) (m0.readBytes (t.src + (e.i + 1)) k)
    obtain ⟨d2, c2, g3, g4⟩ := ih g1 (by omega)
    refine ⟨d2, c2, g3, ?_⟩
    rw [hi] at g4
    rw [Memory.readBytes_succ, show t.src + e.i + 1 = t.src + (e.i + 1) by omega,
      ← h.source hd ha (i := e.i) (by omega)]
    exact g4.trans g2

/-! ### The core procedure -/

/-- Finalization: the closed chunks and the closing of the open one are the frame (R86). -/
theorem Encoded.finalize {t : Transfer} {m0 m : Memory} {e : EncRegs} {done cur : List Byte}
    (h : Encoded t m0 e m done cur) (hne : done ++ closing cur e.lastz ≠ []) :
    (encFinalize t e m).1 = (done ++ closing cur e.lastz).length ∧
      (encFinalize t e m).2.readBytes t.dst (done ++ closing cur e.lastz).length = done ++ closing cur e.lastz ∧
      ∀ a, a < t.dst ∨ t.dst + (encFinalize t e m).1 ≤ a → (encFinalize t e m).2.read a = m0.read a := by
  obtain ⟨h1, h2, h3, h4, h5, h6⟩ := h.ok
  have hs := h.slot
  have hl := h.len
  unfold encFinalize
  by_cases hc : 1 < e.l ∨ e.lastz = true
  · have hcl : closing cur e.lastz = shortChunk cur := by
      unfold closing
      rw [if_pos]
      rcases hc with hc | hc
      · left; rintro rfl; simp at hl; omega
      · exact .inr hc
    rw [if_pos hc, hcl]
    simp only [Transfer.dstWrite]
    refine ⟨by simp [shortChunk]; omega, ?_, ?_⟩
    · rw [shortChunk, List.length_append, List.length_cons, show done.length + (cur.length + 1) = done.length + 1 + cur.length by omega,
        Memory.readBytes_append, readBytes_snoc, ← hs, Memory.read_write_same]
      rw [Memory.readBytes_congr (m := m), Memory.readBytes_congr (m := m) (a := t.dst + (e.m + 1))]
      · rw [show t.dst + (e.m + 1) = t.dst + done.length + 1 by omega, h.curBytes, hs, h.doneBytes, hl]
        simp
      · intro i hi'; exact Memory.read_write_other _ _ (by omega)
      · intro i hi'; exact Memory.read_write_other _ _ (by omega)
    · intro a ha
      rw [Memory.read_write_other _ _ (by omega)]
      exact h.outside a (by omega)
  · push Not at hc
    have hcur : cur = [] := List.length_eq_zero_iff.1 (by omega)
    have hcl : closing cur e.lastz = [] := by
      simp [closing, hcur, hc.2]
    rw [hcl] at hne ⊢
    rw [if_neg (by push Not; exact hc)]
    simp only [List.append_nil] at hne ⊢
    refine ⟨by omega, h.doneBytes, ?_⟩
    intro a ha
    exact h.outside a (by omega)

/-- What ENCODE_CORE does on a destination that has the capacity and is apart from the source: it answers the length of the frame
(R91), writes the frame, and nothing outside it. -/
theorem encodeCore_spec {t : Transfer} (m : Memory) (hd : encodeCapacity t.n ≤ t.d) (ha : t.Apart) :
    (encodeCore t m).1 = (frameOf (m.readBytes t.src t.n)).length ∧
      (encodeCore t m).2.readBytes t.dst (frameOf (m.readBytes t.src t.n)).length = frameOf (m.readBytes t.src t.n) ∧
      ∀ a, a < t.dst ∨ t.dst + (encodeCore t m).1 ≤ a → (encodeCore t m).2.read a = m.read a := by
  unfold encodeCore
  by_cases hn : t.n = 0
  · rw [if_pos hn, hn]
    refine ⟨rfl, ?_, ?_⟩
    · simp [encEmpty, Transfer.dstWrite, Memory.readBytes_succ]
    · intro a h
      simp only [encEmpty, Transfer.dstWrite] at h ⊢
      exact Memory.read_write_other _ _ (by omega)
  · rw [if_neg hn]
    have h0 : Encoded t m encInit m [] [] := ⟨encInit_ok t, rfl, rfl, rfl, rfl, fun _ _ => rfl⟩
    obtain ⟨done, cur, h1, h2⟩ := h0.loop hd ha t.n (by simp [encInit])
    have hp : m.readBytes t.src t.n ≠ [] := by
      intro h
      have := congrArg List.length h
      simp at this; omega
    have hf : done ++ closing cur (encLoop t t.n encInit m).1.lastz = frameOf (m.readBytes t.src t.n) := by
      rw [h2, ← streamed_eq_frameOf hp]
      rfl
    have hne : frameOf (m.readBytes t.src t.n) ≠ [] := by
      unfold frameOf
      rw [chunksLast_eq]
      split
      · simp
      · intro h
        have h := (List.append_eq_nil_iff.1 h).2
        revert h
        cases (segments (m.readBytes t.src t.n)).2.length <;> simp [chunksLastLoop, shortChunk]
        split <;> simp
    have := h1.finalize (by rw [hf]; exact hne)
    rw [hf] at this
    exact this

/-- Every destination offset ENCODE_CORE writes is below the length it answers, whatever the regions (R92). -/
theorem encodeCore_outside (t : Transfer) (m : Memory) {a : Nat} (ha : a < t.dst ∨ t.dst + (encodeCore t m).1 ≤ a) :
    (encodeCore t m).2.read a = m.read a := by
  unfold encodeCore at ha ⊢
  split at ha <;> rename_i hn
  · rw [if_pos hn]
    simp only [encEmpty, Transfer.dstWrite] at ha ⊢
    exact Memory.read_write_other _ _ (by omega)
  · rw [if_neg hn]
    obtain ⟨⟨h1, h2, h3, h4, h5, h6⟩, -⟩ := encLoop_ok t.n m (encInit_ok t) (by simp [encInit])
    have hout := encLoop_outside t.n m (encInit_ok t) (by simp [encInit]) a
    unfold encFinalize at ha ⊢
    dsimp only at ha ⊢
    split at ha <;> rename_i hc
    · rw [if_pos hc]
      simp only [Transfer.dstWrite] at ha ⊢
      rw [Memory.read_write_other _ _ (by omega), hout (by omega)]
    · rw [if_neg hc]
      push Not at hc
      exact hout (by simp only at ha; omega)

theorem encLoop_wf (t : Transfer) (k : Nat) (e : EncRegs) {m : Memory} (h : m.wf = true) :
    (encLoop t k e m).2.wf = true := by
  induction k generalizing e m with
  | zero => exact h
  | succ k ih => exact ih _ (encByteStep_wf t e h)

theorem encFinalize_wf (t : Transfer) (e : EncRegs) {m : Memory} (h : m.wf = true) : (encFinalize t e m).2.wf = true := by
  unfold encFinalize
  split
  · exact Memory.wf_write _ _ h
  · exact h

/-- ENCODE_CORE keeps the canonical form of memory. -/
theorem encodeCore_wf (t : Transfer) {m : Memory} (h : m.wf = true) : (encodeCore t m).2.wf = true := by
  unfold encodeCore
  split
  · exact Memory.wf_write _ _ h
  · exact encFinalize_wf t _ (encLoop_wf t _ _ h)

/-- The length ENCODE_CORE answers is at most the capacity (R78). -/
theorem encodeCore_le (t : Transfer) (m : Memory) : (encodeCore t m).1 ≤ encodeCapacity t.n := by
  unfold encodeCore
  split
  · simp [encEmpty, encodeCapacity]
  · have h := (encLoop_ok t.n m (encInit_ok t) (by simp [encInit])).1.cursor_lt.1
    unfold encFinalize
    dsimp only
    split <;> simp only <;> omega

end Sys2Proof.Machine
end

