-- ==== Sys2Proof/Laws/Decoder.lean ====
section
/-! SUPPORT. What DECODE_CORE does (42_decoder.md R96 to R104): its bound, where it writes, and its outcome for every frame. -/

namespace Sys2Proof.Machine

/-! ### Chunks -/

theorem Chunk.wf_iff (c : Chunk) : c.wf = true ↔
    c.marker ≠ 0x00#8 ∧ c.data.length = c.marker.toNat - 1 ∧ ∀ b ∈ c.data, b ≠ 0x00#8 := by
  simp [Chunk.wf, and_assoc]

theorem byte_pos {b : Byte} (h : b ≠ 0x00#8) : 1 ≤ b.toNat := by
  by_contra hc
  apply h
  apply BitVec.eq_of_toNat_eq
  simp; omega

theorem byte_le (b : Byte) : b.toNat ≤ 255 := by
  have := b.isLt
  omega

@[simp] theorem chunkBytes_nil : chunkBytes [] = [] := rfl

@[simp] theorem chunkBytes_cons (c : Chunk) (cs : List Chunk) :
    chunkBytes (c :: cs) = c.marker :: (c.data ++ chunkBytes cs) := by
  simp [chunkBytes]

theorem chunkBytes_append (cs ds : List Chunk) : chunkBytes (cs ++ ds) = chunkBytes cs ++ chunkBytes ds := by
  simp [chunkBytes]

/-- The separator after a chunk that is not the last (R99). -/
def Chunk.separator (c : Chunk) : List Byte := if c.marker = 0xFF#8 then [] else [0x00#8]

/-- What a sequence of chunks that is followed by more frame bytes gives. -/
def payloadBefore (cs : List Chunk) : List Byte := cs.flatMap fun c => c.data ++ c.separator

theorem payloadOf_append_last (cs : List Chunk) (c : Chunk) :
    payloadOf (cs ++ [c]) = payloadBefore cs ++ c.data := by
  induction cs with
  | nil => simp [payloadOf, payloadBefore]
  | cons d cs ih =>
    cases cs with
    | nil => simp [payloadOf, payloadBefore, Chunk.separator]
    | cons e cs =>
      rw [List.cons_append, List.cons_append, payloadOf, ← List.cons_append, ih]
      simp [payloadBefore, Chunk.separator]

/-- The four kinds of frame (R107, R116 to R118, R125 step 4). -/
inductive FrameKind : List Byte → Prop where
  | good (cs : List Chunk) (c : Chunk) (h : ∀ d ∈ cs ++ [c], d.wf = true) : FrameKind (chunkBytes (cs ++ [c]))
  | zeroMarker (cs : List Chunk) (rest : List Byte) (h : ∀ d ∈ cs, d.wf = true) :
      FrameKind (chunkBytes cs ++ 0x00#8 :: rest)
  | overflow (cs : List Chunk) (mk : Byte) (rest : List Byte) (h : ∀ d ∈ cs, d.wf = true) (hm : mk ≠ 0x00#8)
      (hr : rest.length < mk.toNat - 1) : FrameKind (chunkBytes cs ++ mk :: rest)
  | zeroBinary (cs : List Chunk) (mk : Byte) (data rest : List Byte) (h : ∀ d ∈ cs, d.wf = true) (hm : mk ≠ 0x00#8)
      (hd : ∀ b ∈ data, b ≠ 0x00#8) (hl : data.length < mk.toNat - 1)
      (hr : mk.toNat - 1 ≤ data.length + 1 + rest.length) : FrameKind (chunkBytes cs ++ mk :: (data ++ 0x00#8 :: rest))

theorem FrameKind.cons {c : Chunk} (hc : c.wf = true) {f : List Byte} (h : FrameKind f) :
    FrameKind (c.marker :: (c.data ++ f)) := by
  cases h with
  | good cs d h =>
    have := FrameKind.good (c :: cs) d (by simpa [hc] using h)
    simpa [chunkBytes_append] using this
  | zeroMarker cs rest h =>
    have := FrameKind.zeroMarker (c :: cs) rest (by simpa [hc] using h)
    simpa using this
  | overflow cs mk rest h hm hr =>
    have := FrameKind.overflow (c :: cs) mk rest (by simpa [hc] using h) hm hr
    simpa using this
  | zeroBinary cs mk data rest h hm hd hl hr =>
    have := FrameKind.zeroBinary (c :: cs) mk data rest (by simpa [hc] using h) hm hd hl hr
    simpa using this

/-- A list of bytes splits at its first 0x00. -/
theorem split_at_zero (l : List Byte) : (∀ b ∈ l, b ≠ 0x00#8) ∨
    ∃ data rest, l = data ++ 0x00#8 :: rest ∧ ∀ b ∈ data, b ≠ 0x00#8 := by
  induction l with
  | nil => exact .inl (by simp)
  | cons b l ih =>
    by_cases hb : b = 0x00#8
    · exact .inr ⟨[], l, by simp [hb], by simp⟩
    · rcases ih with h | ⟨data, rest, h1, h2⟩
      · exact .inl (by simpa [hb] using h)
      · exact .inr ⟨b :: data, rest, by simp [h1], by simpa [hb] using h2⟩

/-- Every frame that is not empty is of one of the four kinds. -/
theorem frameKind_of_ne_nil (f : List Byte) (hf : f ≠ []) : FrameKind f := by
  induction hn : f.length using Nat.strong_induction_on generalizing f with
  | _ n ih =>
    cases f with
    | nil => exact absurd rfl hf
    | cons mk rest =>
      by_cases hm : mk = 0x00#8
      · subst hm
        exact FrameKind.zeroMarker [] rest (by simp)
      · by_cases hr : rest.length < mk.toNat - 1
        · exact FrameKind.overflow [] mk rest (by simp) hm hr
        · have hlen : (rest.take (mk.toNat - 1)).length = mk.toNat - 1 := by
            rw [List.length_take]; omega
          have hsplit : rest = rest.take (mk.toNat - 1) ++ rest.drop (mk.toNat - 1) := by simp
          rcases split_at_zero (rest.take (mk.toNat - 1)) with hz | ⟨data, tail, h1, h2⟩
          · have hwf : (Chunk.mk mk (rest.take (mk.toNat - 1))).wf = true := (Chunk.wf_iff _).2 ⟨hm, hlen, hz⟩
            by_cases hd : rest.drop (mk.toNat - 1) = []
            · have := FrameKind.good [] (Chunk.mk mk (rest.take (mk.toNat - 1))) (by simpa using hwf)
              rw [hd, List.append_nil] at hsplit
              simpa [← hsplit] using this
            · have := (ih _ (by simp at hn ⊢; omega) _ hd rfl).cons hwf
              rw [hsplit]
              exact this
          · have hl : data.length + 1 + tail.length = mk.toNat - 1 := by
              rw [← hlen, h1]; simp; omega
            rw [hsplit, h1]
            have := FrameKind.zeroBinary [] mk data (tail ++ rest.drop (mk.toNat - 1)) (by simp) hm h2 (by omega)
              (by simp; omega)
            simpa using this

/-! ### The walk: one step -/

theorem readMarkerStep_zero {t : Transfer} {i : Nat} (o : Nat) {m : Memory} (h : t.srcRead m i = 0x00#8) :
    readMarkerStep t i o m = .ended (.zeroMarker i) m := by
  simp [readMarkerStep, h]

theorem readMarkerStep_overflow {t : Transfer} {i : Nat} (o : Nat) {m : Memory} (h : t.srcRead m i ≠ 0x00#8)
    (hn : t.n < i + (t.srcRead m i).toNat) :
    readMarkerStep t i o m = .ended (.chunkOverflow i (t.srcRead m i) t.n) m := by
  have := byte_pos h
  have hn' : t.n < (i + 1) + ((t.srcRead m i).toNat - 1) := by omega
  simp [readMarkerStep, h, hn']

theorem readMarkerStep_chunk {t : Transfer} {i : Nat} (o : Nat) {m : Memory} (h : t.srcRead m i ≠ 0x00#8)
    (hn : i + (t.srcRead m i).toNat ≤ t.n) :
    readMarkerStep t i o m = .running (DecRegs.mk .copyChunk (i + 1) o i (t.srcRead m i) ((t.srcRead m i).toNat - 1)) m := by
  have := byte_pos h
  have hn' : ¬ t.n < (i + 1) + ((t.srcRead m i).toNat - 1) := by omega
  simp [readMarkerStep, h, hn']

/-- What READ_MARKER_STEP can do (R97). -/
theorem readMarkerStep_cases (t : Transfer) (i o : Nat) (m : Memory) :
    (t.srcRead m i = 0x00#8 ∧ readMarkerStep t i o m = .ended (.zeroMarker i) m) ∨
    (t.srcRead m i ≠ 0x00#8 ∧ t.n < i + (t.srcRead m i).toNat ∧
      readMarkerStep t i o m = .ended (.chunkOverflow i (t.srcRead m i) t.n) m) ∨
    (t.srcRead m i ≠ 0x00#8 ∧ i + (t.srcRead m i).toNat ≤ t.n ∧
      readMarkerStep t i o m = .running (DecRegs.mk .copyChunk (i + 1) o i (t.srcRead m i) ((t.srcRead m i).toNat - 1)) m) := by
  by_cases h : t.srcRead m i = 0x00#8
  · exact .inl ⟨h, readMarkerStep_zero o h⟩
  · rcases Nat.lt_or_ge t.n (i + (t.srcRead m i).toNat) with hn | hn
    · exact .inr (.inl ⟨h, hn, readMarkerStep_overflow o h hn⟩)
    · exact .inr (.inr ⟨h, hn, readMarkerStep_chunk o h hn⟩)

/-- What COPY_STEP can do (R98). -/
theorem copyStep_cases (t : Transfer) (d : DecRegs) (m : Memory) :
    (d.k = 0 ∧ copyStep t d m = .running { d with state := .maybeInsertSentinel } m) ∨
    (d.k ≠ 0 ∧ t.srcRead m d.i = 0x00#8 ∧ copyStep t d m = .ended (.zeroBinary d.i) m) ∨
    (d.k ≠ 0 ∧ t.srcRead m d.i ≠ 0x00#8 ∧ copyStep t d m =
      .running { d with i := d.i + 1, o := d.o + 1, k := d.k - 1 } (t.dstWrite m d.o (t.srcRead m d.i))) := by
  by_cases hk : d.k = 0
  · exact .inl ⟨hk, by simp [copyStep, hk]⟩
  · by_cases hb : t.srcRead m d.i = 0x00#8
    · exact .inr (.inl ⟨hk, hb, by simp [copyStep, hk, hb, Config.sentinel]⟩)
    · exact .inr (.inr ⟨hk, hb, by simp [copyStep, hk, hb, Config.sentinel]⟩)

/-- What MAYBE_INSERT_STEP can do (R99). -/
theorem maybeInsertStep_cases (t : Transfer) (d : DecRegs) (m : Memory) :
    (d.i = t.n ∧ maybeInsertStep t d m = .ended (.ok d.o) m) ∨
    (d.i ≠ t.n ∧ d.marker ≠ 0xFF#8 ∧ maybeInsertStep t d m =
      .running { d with state := .readMarker, o := d.o + 1 } (t.dstWrite m d.o 0x00#8)) ∨
    (d.i ≠ t.n ∧ d.marker = 0xFF#8 ∧ maybeInsertStep t d m = .running { d with state := .readMarker } m) := by
  by_cases hi : d.i = t.n
  · exact .inl ⟨hi, by simp [maybeInsertStep, hi]⟩
  · by_cases hm : d.marker = 0xFF#8
    · exact .inr (.inr ⟨hi, hm, by simp [maybeInsertStep, hi, hm, Config.maxMarker]⟩)
    · refine .inr (.inl ⟨hi, hm, ?_⟩)
      have : d.marker.toNat ≠ 255 := fun h => hm (BitVec.eq_of_toNat_eq (by simpa using h))
      simp [maybeInsertStep, hi, this, Config.maxMarker, Config.sentinel]

/-! ### Bounds (R101, R108) -/

/-- What a state of the walk satisfies between two steps. -/
def Walk.Ok (t : Transfer) : Walk → Prop
  | .running d _ => d.Ok t
  | .ended (.ok r) _ => r ≤ t.n - 1
  | .ended (.zeroMarker p) _ => p < t.n
  | .ended (.zeroBinary p) _ => p < t.n
  | .ended (.chunkOverflow p _ l) _ => p < t.n ∧ l = t.n
  | .ended _ _ => False

theorem readMarkerStep_ok {t : Transfer} {i o : Nat} (m : Memory) (hi : i < t.n) (ho : o ≤ i) :
    (readMarkerStep t i o m).Ok t := by
  rcases readMarkerStep_cases t i o m with ⟨-, h⟩ | ⟨-, -, h⟩ | ⟨hb, hn, h⟩ <;> rw [h]
  · exact hi
  · exact ⟨hi, rfl⟩
  · have h1 := byte_pos hb
    have h2 := byte_le (t.srcRead m i)
    constructor <;> simp <;> first | exact hb | omega

theorem decStep_ok {t : Transfer} {d : DecRegs} (m : Memory) (h : d.Ok t) : (decStep t d m).Ok t := by
  obtain ⟨h1, h2, h3, h4, h5, h6, h7⟩ := h
  unfold decStep
  split <;> rename_i hs
  · obtain ⟨ha, hb, hc⟩ := h7 hs
    exact readMarkerStep_ok m hc hb
  · have ho := h5 hs
    rcases copyStep_cases t d m with ⟨hk, hw⟩ | ⟨hk, hb, hw⟩ | ⟨hk, hb, hw⟩ <;> rw [hw]
    · constructor <;> simp <;> first | exact h1 | omega
    · simp only [Walk.Ok]; omega
    · constructor <;> simp [hs] <;> first | exact h1 | omega
  · obtain ⟨hk, ho⟩ := h6 hs
    rcases maybeInsertStep_cases t d m with ⟨hi, hw⟩ | ⟨hi, hm, hw⟩ | ⟨hi, hm, hw⟩ <;> rw [hw]
    · simp only [Walk.Ok]; omega
    · constructor <;> simp <;> first | exact h1 | omega
    · constructor <;> simp <;> first | exact h1 | omega

theorem decFirst_ok {t : Transfer} (m : Memory) (hn : 1 ≤ t.n) : (decFirst t m).Ok t := by
  unfold decFirst
  split
  · simp [Walk.Ok]
  · exact readMarkerStep_ok m (by omega) (Nat.le_refl 0)

/-- A bound on the steps left (R101). -/
def Walk.left (t : Transfer) : Walk → Nat
  | .ended _ _ => 0
  | .running d _ =>
    match d.state with
    | .readMarker => 3 * (t.n - d.i)
    | .copyChunk => d.k + 2 + 3 * (t.n - d.i - d.k)
    | .maybeInsertSentinel => 1 + 3 * (t.n - d.i)

theorem readMarkerStep_left {t : Transfer} {i o : Nat} (m : Memory) (hi : i < t.n) :
    (readMarkerStep t i o m).left t + 1 ≤ 3 * (t.n - i) := by
  rcases readMarkerStep_cases t i o m with ⟨-, h⟩ | ⟨-, -, h⟩ | ⟨hb, hn, h⟩ <;> rw [h] <;> simp only [Walk.left]
  · omega
  · omega
  · have h1 := byte_pos hb
    omega

theorem decStep_left {t : Transfer} {d : DecRegs} (m : Memory) (h : d.Ok t) :
    (decStep t d m).left t + 1 ≤ (Walk.running d m).left t := by
  obtain ⟨h1, h2, h3, h4, h5, h6, h7⟩ := h
  unfold decStep
  rcases hs : d.state with _ | _ | _ <;> simp only [Walk.left, hs]
  · obtain ⟨ha, hb, hc⟩ := h7 hs
    exact readMarkerStep_left m hc
  · rcases copyStep_cases t d m with ⟨hk, hw⟩ | ⟨hk, hb, hw⟩ | ⟨hk, hb, hw⟩ <;> rw [hw] <;> simp [hs] <;> omega
  · obtain ⟨hk, ho⟩ := h6 hs
    rcases maybeInsertStep_cases t d m with ⟨hi, hw⟩ | ⟨hi, hm, hw⟩ | ⟨hi, hm, hw⟩ <;> rw [hw] <;> simp

theorem decFirst_left {t : Transfer} (m : Memory) (hn : 1 ≤ t.n) : (decFirst t m).left t + 1 ≤ 3 * t.n := by
  unfold decFirst
  split
  · simp [Walk.left]; omega
  · simpa using readMarkerStep_left (i := 0) m (by omega)

/-- With enough steps the walk ends, and its outcome is one of those of R107 and R116 to R118. -/
theorem decLoop_ends {t : Transfer} (k : Nat) (w : Walk) (h : w.Ok t) (hk : w.left t ≤ k) :
    ∃ o m, decLoop t k w = some (o, m) ∧ (Walk.ended o m).Ok t := by
  induction k generalizing w with
  | zero =>
    cases w with
    | ended o m => exact ⟨o, m, rfl, h⟩
    | running d m =>
      have := decStep_left m h
      omega
  | succ k ih =>
    cases w with
    | ended o m => exact ⟨o, m, rfl, h⟩
    | running d m =>
      have := decStep_left m h
      exact ih _ (decStep_ok m h) (by omega)

/-- DECODE_CORE always ends (R101). -/
theorem decodeCore_ends {t : Transfer} (m : Memory) (hn : 1 ≤ t.n) :
    ∃ o m', decodeCore t m = some (o, m') ∧ (Walk.ended o m').Ok t :=
  decLoop_ends _ _ (decFirst_ok m hn) (by have := decFirst_left m hn; omega)

/-! ### Where the walk writes (R108) -/

/-- The memory of a state of the walk. -/
def Walk.mem : Walk → Memory
  | .running _ m => m
  | .ended _ m => m

theorem readMarkerStep_mem (t : Transfer) (i o : Nat) (m : Memory) : (readMarkerStep t i o m).mem = m := by
  rcases readMarkerStep_cases t i o m with ⟨-, h⟩ | ⟨-, -, h⟩ | ⟨-, -, h⟩ <;> rw [h] <;> rfl

theorem decFirst_mem (t : Transfer) (m : Memory) : (decFirst t m).mem = m := by
  unfold decFirst
  split
  · rfl
  · exact readMarkerStep_mem t 0 0 m

/-- One step changes at most one byte, at an offset that is at most n − 2. -/
theorem decStep_mem {t : Transfer} {d : DecRegs} (m : Memory) (h : d.Ok t) :
    (decStep t d m).mem = m ∨ ∃ o v, o + 2 ≤ t.n ∧ (decStep t d m).mem = t.dstWrite m o v := by
  obtain ⟨h1, h2, h3, h4, h5, h6, h7⟩ := h
  unfold decStep
  split <;> rename_i hs
  · exact .inl (readMarkerStep_mem t _ _ m)
  · have ho := h5 hs
    rcases copyStep_cases t d m with ⟨hk, hw⟩ | ⟨hk, hb, hw⟩ | ⟨hk, hb, hw⟩ <;> rw [hw]
    · exact .inl rfl
    · exact .inl rfl
    · exact .inr ⟨d.o, _, by omega, rfl⟩
  · obtain ⟨hk, ho⟩ := h6 hs
    rcases maybeInsertStep_cases t d m with ⟨hi, hw⟩ | ⟨hi, hm, hw⟩ | ⟨hi, hm, hw⟩ <;> rw [hw]
    · exact .inl rfl
    · exact .inr ⟨d.o, _, by omega, rfl⟩
    · exact .inl rfl

theorem decLoop_outside {t : Transfer} (k : Nat) (w : Walk) (h : w.Ok t) {o : OpOutcome} {m : Memory}
    (he : decLoop t k w = some (o, m)) {a : Nat} (ha : a < t.dst ∨ t.dst + (t.n - 1) ≤ a) : m.read a = w.mem.read a := by
  induction k generalizing w with
  | zero =>
    cases w with
    | ended o' m' => simp only [decLoop, Option.some.injEq, Prod.mk.injEq] at he; rw [← he.2]; rfl
    | running d m' => simp [decLoop] at he
  | succ k ih =>
    cases w with
    | ended o' m' => simp only [decLoop, Option.some.injEq, Prod.mk.injEq] at he; rw [← he.2]; rfl
    | running d m' =>
      rw [ih _ (decStep_ok m' h) he]
      rcases decStep_mem m' h with hm | ⟨p, v, hp, hm⟩ <;> rw [hm]
      · rfl
      · exact Memory.read_write_other _ _ (by omega)

/-- DECODE_CORE writes at offsets up to n − 2 only, for any outcome and whatever the regions (R108). -/
theorem decodeCore_outside {t : Transfer} {m m' : Memory} {o : OpOutcome} (hn : 1 ≤ t.n) (he : decodeCore t m = some (o, m'))
    {a : Nat} (ha : a < t.dst ∨ t.dst + (t.n - 1) ≤ a) : m'.read a = m.read a := by
  rw [decLoop_outside _ _ (decFirst_ok m hn) he ha, decFirst_mem]

theorem decLoop_wf {t : Transfer} (k : Nat) (w : Walk) (h : w.Ok t) {o : OpOutcome} {m : Memory}
    (he : decLoop t k w = some (o, m)) (hw : w.mem.wf = true) : m.wf = true := by
  induction k generalizing w with
  | zero =>
    cases w with
    | ended o' m' => simp only [decLoop, Option.some.injEq, Prod.mk.injEq] at he; rw [← he.2]; exact hw
    | running d m' => simp [decLoop] at he
  | succ k ih =>
    cases w with
    | ended o' m' => simp only [decLoop, Option.some.injEq, Prod.mk.injEq] at he; rw [← he.2]; exact hw
    | running d m' =>
      refine ih _ (decStep_ok m' h) he ?_
      rcases decStep_mem m' h with hm | ⟨p, v, hp, hm⟩ <;> rw [hm]
      · exact hw
      · exact Memory.wf_write _ _ hw

/-- DECODE_CORE keeps the canonical form of memory. -/
theorem decodeCore_wf {t : Transfer} {m m' : Memory} {o : OpOutcome} (hn : 1 ≤ t.n) (he : decodeCore t m = some (o, m'))
    (hw : m.wf = true) : m'.wf = true :=
  decLoop_wf _ _ (decFirst_ok m hn) he (by rwa [decFirst_mem])

/-! ### The walk as a whole -/

/-- The walk from `w` ends with the outcome and memory `r`, after some number of steps. -/
def Ends (t : Transfer) (w : Walk) (r : OpOutcome × Memory) : Prop := ∃ k, decLoop t k w = some r

theorem Ends.ended (t : Transfer) (o : OpOutcome) (m : Memory) : Ends t (.ended o m) (o, m) := ⟨0, rfl⟩

theorem Ends.running {t : Transfer} {d : DecRegs} {m : Memory} {r : OpOutcome × Memory} (h : Ends t (decStep t d m) r) :
    Ends t (.running d m) r := by
  obtain ⟨k, h⟩ := h
  exact ⟨k + 1, h⟩

theorem decLoop_mono {t : Transfer} {k : Nat} {w : Walk} {r : OpOutcome × Memory} (h : decLoop t k w = some r) (j : Nat) :
    decLoop t (k + j) w = some r := by
  induction k generalizing w with
  | zero =>
    cases w with
    | ended o m =>
      rw [decLoop] at h
      cases j <;> simpa [decLoop] using h
    | running d m => simp [decLoop] at h
  | succ k ih =>
    rw [show k + 1 + j = (k + j) + 1 by omega]
    cases w with
    | ended o m => simpa [decLoop] using h
    | running d m => exact ih h

/-- How the walk ends is how DECODE_CORE ends. -/
theorem Ends.decodeCore {t : Transfer} {m : Memory} {r : OpOutcome × Memory} (h : Ends t (decFirst t m) r)
    (hn : 1 ≤ t.n) : decodeCore t m = some r := by
  obtain ⟨k, hk⟩ := h
  obtain ⟨o, m', h1, -⟩ := decodeCore_ends m hn
  have h2 := decLoop_mono hk (3 * t.n)
  have h3 := decLoop_mono h1 k
  rw [Nat.add_comm] at h3
  rw [h1, ← h3, h2]

/-! ### Writing -/

theorem Memory.writeBytes_append (m : Memory) (a : Nat) (xs ys : List Byte) :
    m.writeBytes a (xs ++ ys) = (m.writeBytes a xs).writeBytes (a + xs.length) ys := by
  induction xs generalizing m a with
  | nil => rfl
  | cons x xs ih =>
    simp only [List.cons_append, Memory.writeBytes, ih, List.length_cons]
    congr 1; omega

/-- The source bytes from offset `i` on are `l`. -/
def SourceAt (t : Transfer) (m : Memory) (i : Nat) (l : List Byte) : Prop :=
  i + l.length ≤ t.n ∧ m.readBytes (t.src + i) l.length = l

theorem SourceAt.head {t : Transfer} {m : Memory} {i : Nat} {b : Byte} {l : List Byte} (h : SourceAt t m i (b :: l)) :
    t.srcRead m i = b := by
  have := h.2
  rw [List.length_cons, Memory.readBytes_succ] at this
  exact (List.cons.inj this).1

theorem SourceAt.append {t : Transfer} {m : Memory} {i : Nat} {l l' : List Byte} :
    SourceAt t m i (l ++ l') ↔ SourceAt t m i l ∧ SourceAt t m (i + l.length) l' := by
  unfold SourceAt
  rw [List.length_append, Memory.readBytes_append]
  constructor
  · rintro ⟨h1, h2⟩
    obtain ⟨h3, h4⟩ := List.append_inj h2 (by simp)
    exact ⟨⟨by omega, h3⟩, by omega, by rw [show t.src + (i + l.length) = t.src + i + l.length by omega]; exact h4⟩
  · rintro ⟨⟨h1, h2⟩, h3, h4⟩
    refine ⟨by omega, ?_⟩
    rw [h2, show t.src + i + l.length = t.src + (i + l.length) by omega, h4]

theorem SourceAt.tail {t : Transfer} {m : Memory} {i : Nat} {b : Byte} {l : List Byte} (h : SourceAt t m i (b :: l)) :
    SourceAt t m (i + 1) l := (SourceAt.append (l := [b])).1 h |>.2

/-- Writing below the destination's end leaves the source as it was (R44). -/
theorem SourceAt.write {t : Transfer} {m : Memory} {i : Nat} {l : List Byte} (h : SourceAt t m i l) (ha : t.Apart) {o : Nat}
    (ho : o < t.d) (v : Byte) : SourceAt t (t.dstWrite m o v) i l := by
  refine ⟨h.1, ?_⟩
  rw [Memory.readBytes_congr (m := m), h.2]
  intro j hj
  have := h.1
  unfold Transfer.Apart at ha
  exact Memory.read_write_other _ _ (by omega)

theorem SourceAt.writeBytes {t : Transfer} {m : Memory} {i : Nat} {l : List Byte} (h : SourceAt t m i l) (ha : t.Apart)
    (xs : List Byte) {o : Nat} (ho : o + xs.length ≤ t.d) : SourceAt t (m.writeBytes (t.dst + o) xs) i l := by
  induction xs generalizing m o with
  | nil => exact h
  | cons x xs ih =>
    simp only [List.length_cons] at ho
    have := ih (h.write ha (o := o) (by omega) x) (o := o + 1) (by omega)
    rwa [show t.dst + (o + 1) = t.dst + o + 1 by omega] at this

/-- COPY_STEP over data bytes that are not 0x00. -/
theorem ends_copy {t : Transfer} (ha : t.Apart) (data : List Byte) (hz : ∀ b ∈ data, b ≠ 0x00#8) (d : DecRegs) (m : Memory)
    (hs : d.state = .copyChunk) (hk : data.length ≤ d.k) (hsrc : SourceAt t m d.i data) (hd : d.o + data.length ≤ t.d)
    {r : OpOutcome × Memory}
    (h : Ends t (.running { d with i := d.i + data.length, o := d.o + data.length, k := d.k - data.length }
      (m.writeBytes (t.dst + d.o) data)) r) : Ends t (.running d m) r := by
  induction data generalizing d m with
  | nil => simpa [Memory.writeBytes] using h
  | cons b data ih =>
    have hb : b ≠ 0x00#8 := hz b (by simp)
    simp only [List.length_cons] at hk hd h
    apply Ends.running
    have hstep : decStep t d m = copyStep t d m := by simp [decStep, hs]
    rw [hstep]
    rcases copyStep_cases t d m with ⟨hk0, -⟩ | ⟨-, hb0, -⟩ | ⟨-, -, hw⟩
    · omega
    · rw [hsrc.head] at hb0
      exact absurd hb0 hb
    · rw [hw, hsrc.head]
      refine ih (fun x hx => hz x (by simp [hx])) { d with i := d.i + 1, o := d.o + 1, k := d.k - 1 } _ hs
        (by simp only; omega) (hsrc.tail.write ha (by omega) b) (by simp only; omega) ?_
      simp only
      rw [show d.i + 1 + data.length = d.i + (data.length + 1) by omega,
        show d.o + 1 + data.length = d.o + (data.length + 1) by omega,
        show d.k - 1 - data.length = d.k - (data.length + 1) by omega]
      exact h

/-- From a marker over the chunk's data to MaybeInsertSentinel (R97, R98). -/
theorem ends_chunk {t : Transfer} (ha : t.Apart) {c : Chunk} (hc : c.wf = true) {i o : Nat} {m : Memory}
    (hsrc : SourceAt t m i (c.marker :: c.data)) (ho : o + c.data.length ≤ t.d) {r : OpOutcome × Memory}
    (h : Ends t (.running (DecRegs.mk .maybeInsertSentinel (i + 1 + c.data.length) (o + c.data.length) i c.marker 0)
      (m.writeBytes (t.dst + o) c.data)) r) :
    Ends t (readMarkerStep t i o m) r := by
  obtain ⟨h1, h2, h3⟩ := (Chunk.wf_iff c).1 hc
  have hp := byte_pos h1
  have hn := hsrc.1
  simp only [List.length_cons] at hn
  rw [readMarkerStep_chunk o (by rw [hsrc.head]; exact h1) (by rw [hsrc.head]; omega), hsrc.head]
  refine ends_copy ha c.data h3 _ m rfl (by simp only; omega) hsrc.tail ho ?_
  apply Ends.running
  simp only [decStep]
  rcases copyStep_cases t (DecRegs.mk .copyChunk (i + 1 + c.data.length) (o + c.data.length) i c.marker
      (c.marker.toNat - 1 - c.data.length)) (m.writeBytes (t.dst + o) c.data) with
    ⟨-, hw⟩ | ⟨hk, -, -⟩ | ⟨hk, -, -⟩
  · rw [hw]
    simp only
    rw [show c.marker.toNat - 1 - c.data.length = 0 by omega]
    exact h
  · simp only at hk; omega
  · simp only at hk; omega

theorem Chunk.separator_length (c : Chunk) : c.separator.length ≤ 1 := by
  unfold Chunk.separator
  split <;> simp

/-- Over chunks that are followed by more of the frame (R99): their data and separators are written. -/
theorem ends_chunks {t : Transfer} (ha : t.Apart) (hd : t.n ≤ t.d + 1) (cs : List Chunk) (hcs : ∀ c ∈ cs, c.wf = true)
    (rest : List Byte) (hr : rest ≠ []) {i o : Nat} {m : Memory} (hsrc : SourceAt t m i (chunkBytes cs ++ rest))
    (hio : o ≤ i) {r : OpOutcome × Memory}
    (h : ∀ m', SourceAt t m' (i + (chunkBytes cs).length) rest →
      m' = m.writeBytes (t.dst + o) (payloadBefore cs) →
      o + (payloadBefore cs).length ≤ i + (chunkBytes cs).length →
      Ends t (readMarkerStep t (i + (chunkBytes cs).length) (o + (payloadBefore cs).length) m') r) :
    Ends t (readMarkerStep t i o m) r := by
  induction cs generalizing i o m with
  | nil => exact h m (by simpa using hsrc) rfl (by simpa [payloadBefore] using hio)
  | cons c cs ih =>
    have hc : c.wf = true := hcs c (by simp)
    have hsplit : chunkBytes (c :: cs) ++ rest = (c.marker :: c.data) ++ (chunkBytes cs ++ rest) := by simp
    rw [hsplit] at hsrc
    obtain ⟨hs1, hs2⟩ := SourceAt.append.1 hsrc
    have hlen : (c.marker :: c.data).length = c.data.length + 1 := rfl
    rw [hlen] at hs2
    have hrl : 0 < rest.length := List.length_pos_iff.2 hr
    have hn2 := hs2.1
    rw [List.length_append] at hn2
    have hsep := c.separator_length
    apply ends_chunk ha hc hs1 (by omega)
    apply Ends.running
    simp only [decStep]
    have hih : Ends t (readMarkerStep t (i + 1 + c.data.length) (o + (c.data ++ c.separator).length)
        (m.writeBytes (t.dst + o) (c.data ++ c.separator))) r := by
      refine ih (fun d hd => hcs d (by simp [hd])) ?_ ?_ ?_
      · have := hs2.writeBytes ha (c.data ++ c.separator) (o := o) (by simp; omega)
        rwa [show i + (c.data.length + 1) = i + 1 + c.data.length by omega] at this
      · simp; omega
      · intro m' h1 h2 h3
        have e1 : i + 1 + c.data.length + (chunkBytes cs).length = i + (chunkBytes (c :: cs)).length := by
          simp; omega
        have e2 : o + (c.data ++ c.separator).length + (payloadBefore cs).length = o + (payloadBefore (c :: cs)).length := by
          simp [payloadBefore]; omega
        rw [e1] at h1 h3 ⊢
        rw [e2] at h3 ⊢
        refine h m' h1 ?_ h3
        rw [h2, show payloadBefore (c :: cs) = (c.data ++ c.separator) ++ payloadBefore cs by simp [payloadBefore],
          Memory.writeBytes_append m _ (c.data ++ c.separator), Nat.add_assoc]
    rcases maybeInsertStep_cases t (DecRegs.mk .maybeInsertSentinel (i + 1 + c.data.length) (o + c.data.length) i
        c.marker 0) (m.writeBytes (t.dst + o) c.data) with ⟨he, -⟩ | ⟨-, hm, hw⟩ | ⟨-, hm, hw⟩
    · simp only at he; omega
    · simp only at hm
      have hsp : c.separator = [0x00#8] := by simp [Chunk.separator, hm]
      rw [hw]
      apply Ends.running
      rw [hsp, Memory.writeBytes_append] at hih
      simp only [decStep, Transfer.dstWrite]
      simpa [Memory.writeBytes, Nat.add_assoc] using hih
    · simp only at hm
      have hsp : c.separator = [] := by simp [Chunk.separator, hm]
      rw [hw]
      apply Ends.running
      rw [hsp, List.append_nil] at hih
      simpa only [decStep] using hih

/-! ### The core procedure -/

/-- The frame in the source region. -/
theorem sourceAt_zero {t : Transfer} {m : Memory} {f : List Byte} (h : m.readBytes t.src t.n = f) : SourceAt t m 0 f := by
  have hl : f.length = t.n := by rw [← h]; simp
  exact ⟨by omega, by rw [hl]; exact h⟩

/-- The short cut for [0x01] changes no outcome (R100). -/
theorem ends_first {t : Transfer} {m : Memory} {r : OpOutcome × Memory} (h : Ends t (readMarkerStep t 0 0 m) r) :
    Ends t (decFirst t m) r := by
  unfold decFirst
  split
  · rename_i hc
    obtain ⟨hn, hb⟩ := hc
    rw [readMarkerStep_chunk 0 (by rw [hb]; decide) (by rw [hb, hn]; decide), hb] at h
    obtain ⟨k, hk⟩ := h
    have := decLoop_mono hk 3
    rw [show k + 3 = (k + 1) + 1 + 1 by omega] at this
    simp [decLoop, decStep, copyStep, maybeInsertStep, hn] at this
    exact ⟨0, by simpa [decLoop] using this⟩
  · exact h

variable {t : Transfer} {m : Memory}

/-- A frame of well-formed chunks decodes to its payload (R107). -/
theorem decodeCore_good (ha : t.Apart) (hd : t.n ≤ t.d + 1) (cs : List Chunk) (c : Chunk)
    (hcs : ∀ d ∈ cs ++ [c], d.wf = true) (hf : m.readBytes t.src t.n = chunkBytes (cs ++ [c])) :
    decodeCore t m = some (.ok (payloadOf (cs ++ [c])).length, m.writeBytes t.dst (payloadOf (cs ++ [c]))) := by
  have hn : (chunkBytes (cs ++ [c])).length = t.n := by rw [← hf]; simp
  have hc : c.wf = true := hcs c (by simp)
  rw [chunkBytes_append] at hn hf
  simp only [chunkBytes_cons, chunkBytes_nil, List.append_nil, List.length_append, List.length_cons] at hn
  refine (ends_first ?_).decodeCore (by omega)
  refine ends_chunks ha hd cs (fun d h => hcs d (by simp [h])) (chunkBytes [c]) (by simp)
    (sourceAt_zero hf) (Nat.le_refl 0) ?_
  intro m' h1 h2 h3
  simp only [chunkBytes_cons, chunkBytes_nil, List.append_nil] at h1
  refine ends_chunk ha hc h1 (by omega) ?_
  apply Ends.running
  simp only [decStep]
  rcases maybeInsertStep_cases t (DecRegs.mk .maybeInsertSentinel (0 + (chunkBytes cs).length + 1 + c.data.length)
      (0 + (payloadBefore cs).length + c.data.length) (0 + (chunkBytes cs).length) c.marker 0)
      (m'.writeBytes (t.dst + (0 + (payloadBefore cs).length)) c.data) with ⟨-, hw⟩ | ⟨he, -, -⟩ | ⟨he, -, -⟩
  · rw [hw, payloadOf_append_last, h2, Memory.writeBytes_append]
    simpa using Ends.ended t (.ok ((payloadBefore cs).length + c.data.length))
      (((m.writeBytes t.dst (payloadBefore cs)).writeBytes (t.dst + (payloadBefore cs).length) c.data))
  · simp only at he; omega
  · simp only at he; omega

/-- A 0x00 where a marker is expected (R102, R116). -/
theorem decodeCore_zeroMarker (ha : t.Apart) (hd : t.n ≤ t.d + 1) (cs : List Chunk) (rest : List Byte)
    (hcs : ∀ d ∈ cs, d.wf = true) (hf : m.readBytes t.src t.n = chunkBytes cs ++ 0x00#8 :: rest) :
    ∃ m', decodeCore t m = some (.zeroMarker (chunkBytes cs).length, m') := by
  have hn : (chunkBytes cs ++ 0x00#8 :: rest).length = t.n := by rw [← hf]; simp
  simp only [List.length_append, List.length_cons] at hn
  refine ⟨m.writeBytes t.dst (payloadBefore cs), (ends_first ?_).decodeCore (by omega)⟩
  refine ends_chunks ha hd cs hcs _ (by simp) (sourceAt_zero hf) (Nat.le_refl 0) ?_
  intro m' h1 h2 h3
  rw [readMarkerStep_zero _ h1.head, h2]
  simpa using Ends.ended t (.zeroMarker (chunkBytes cs).length) (m.writeBytes t.dst (payloadBefore cs))

/-- A chunk that runs past the end of the frame (R103, R118). -/
theorem decodeCore_overflow (ha : t.Apart) (hd : t.n ≤ t.d + 1) (cs : List Chunk) (mk : Byte) (rest : List Byte)
    (hcs : ∀ d ∈ cs, d.wf = true) (hm : mk ≠ 0x00#8) (hr : rest.length < mk.toNat - 1)
    (hf : m.readBytes t.src t.n = chunkBytes cs ++ mk :: rest) :
    ∃ m', decodeCore t m = some (.chunkOverflow (chunkBytes cs).length mk t.n, m') := by
  have hn : (chunkBytes cs ++ mk :: rest).length = t.n := by rw [← hf]; simp
  simp only [List.length_append, List.length_cons] at hn
  refine ⟨m.writeBytes t.dst (payloadBefore cs), (ends_first ?_).decodeCore (by omega)⟩
  refine ends_chunks ha hd cs hcs _ (by simp) (sourceAt_zero hf) (Nat.le_refl 0) ?_
  intro m' h1 h2 h3
  have hb := h1.head
  rw [readMarkerStep_overflow _ (by rw [hb]; exact hm) (by rw [hb]; omega), hb, h2]
  simpa using Ends.ended t (.chunkOverflow (chunkBytes cs).length mk t.n) (m.writeBytes t.dst (payloadBefore cs))

/-- A 0x00 among a chunk's data bytes (R104, R117). -/
theorem decodeCore_zeroBinary (ha : t.Apart) (hd : t.n ≤ t.d + 1) (cs : List Chunk) (mk : Byte) (data rest : List Byte)
    (hcs : ∀ d ∈ cs, d.wf = true) (hm : mk ≠ 0x00#8) (hz : ∀ b ∈ data, b ≠ 0x00#8) (hl : data.length < mk.toNat - 1)
    (hr : mk.toNat - 1 ≤ data.length + 1 + rest.length)
    (hf : m.readBytes t.src t.n = chunkBytes cs ++ mk :: (data ++ 0x00#8 :: rest)) :
    ∃ m', decodeCore t m = some (.zeroBinary ((chunkBytes cs).length + 1 + data.length), m') := by
  have hn : (chunkBytes cs ++ mk :: (data ++ 0x00#8 :: rest)).length = t.n := by rw [← hf]; simp
  simp only [List.length_append, List.length_cons] at hn
  refine ⟨(m.writeBytes t.dst (payloadBefore cs)).writeBytes (t.dst + (payloadBefore cs).length) data,
    (ends_first ?_).decodeCore (by omega)⟩
  refine ends_chunks ha hd cs hcs _ (by simp) (sourceAt_zero hf) (Nat.le_refl 0) ?_
  intro m' h1 h2 h3
  have hb := h1.head
  rw [readMarkerStep_chunk _ (by rw [hb]; exact hm) (by rw [hb]; omega), hb]
  obtain ⟨hs1, hs2⟩ := SourceAt.append.1 h1.tail
  refine ends_copy ha data hz _ m' rfl (by simp only; omega) hs1 (by simp only; omega) ?_
  apply Ends.running
  simp only [decStep]
  rcases copyStep_cases t (DecRegs.mk .copyChunk (0 + (chunkBytes cs).length + 1 + data.length)
      (0 + (payloadBefore cs).length + data.length) (0 + (chunkBytes cs).length) mk (mk.toNat - 1 - data.length))
      (m'.writeBytes (t.dst + (0 + (payloadBefore cs).length)) data) with
    ⟨hk, -⟩ | ⟨-, -, hw⟩ | ⟨-, hb0, -⟩
  · simp only at hk; omega
  · rw [hw, h2]
    simpa using Ends.ended t (.zeroBinary ((chunkBytes cs).length + 1 + data.length))
      ((m.writeBytes t.dst (payloadBefore cs)).writeBytes (t.dst + (payloadBefore cs).length) data)
  · exfalso
    apply hb0
    exact (hs2.writeBytes ha data (by omega)).head

end Sys2Proof.Machine
end

