-- ==== Sys2Proof/Laws/Exec.lean ====
section
/-! SUPPORT. What a command does: the one inversion lemma of `exec`, and what it answers in each case. -/

namespace Sys2Proof.Machine

/-- Every way a command completes on an idle core, over the operands it reads from the operand registers. -/
inductive ExecNext (s : State) : Instr → State → Prop where
  | enccap (n f : Nat) (hn : s.core.operands.readLength s.plat.width s.fresh = (n, f)) (hw : encodeCapacity n < 2 ^ s.plat.width) :
      ExecNext s .enccap ((s.drawn f).complete (enccapOutcome n))
  | deccap (n f : Nat) (hn : s.core.operands.readLength s.plat.width s.fresh = (n, f)) :
      ExecNext s .deccap ((s.drawn f).complete (deccapOutcome n))
  | encSmall (t : Transfer) (f : Nat) (ht : s.core.operands.readTransfer s.plat.width s.fresh = (t, f)) (ha : Admitted s t)
      (hw : encodeCapacity t.n < 2 ^ s.plat.width) (hd : t.d < encodeCapacity t.n) :
      ExecNext s .enc ((s.drawn f).complete (.bufferTooSmall t.d (encodeCapacity t.n)))
  | encode (i : Instr) (hi : i = .enc ∨ i = .encu) (t : Transfer) (f : Nat)
      (ht : s.core.operands.readTransfer s.plat.width s.fresh = (t, f)) (ha : Admitted s t)
      (hw : encodeCapacity t.n < 2 ^ s.plat.width) (hd : encodeCapacity t.n ≤ t.d) :
      ExecNext s i ((s.drawn f).settle t (.ok (encodeCore t s.mem).1) (encodeCore t s.mem).2)
  | decEmpty (i : Instr) (hi : i = .dec ∨ i = .decu) (t : Transfer) (f : Nat)
      (ht : s.core.operands.readTransfer s.plat.width s.fresh = (t, f)) (ha : Admitted s t) (hn : t.n = 0) :
      ExecNext s i ((s.drawn f).complete .emptyInput)
  | decSmall (t : Transfer) (f : Nat) (ht : s.core.operands.readTransfer s.plat.width s.fresh = (t, f)) (ha : Admitted s t)
      (hn : 1 < t.n) (hd : t.d < t.n - 1) : ExecNext s .dec ((s.drawn f).complete (.bufferTooSmall t.d (t.n - 1)))
  | decode (i : Instr) (hi : i = .dec ∨ i = .decu) (t : Transfer) (f : Nat)
      (ht : s.core.operands.readTransfer s.plat.width s.fresh = (t, f)) (ha : Admitted s t) (hn : 1 ≤ t.n) (hd : t.n ≤ t.d + 1)
      (o : OpOutcome) (m : Memory) (he : decodeCore t s.mem = some (o, m)) : ExecNext s i ((s.drawn f).settle t o m)

/-! ### The faults and errors before the core procedures -/

theorem capacityFault_eq_none {s : State} {n : Nat} : capacityFault s n = none ↔ encodeCapacity n < 2 ^ s.plat.width := by
  simp [capacityFault]

theorem encFault_eq_none {s : State} {t : Transfer} :
    encFault s t = none ↔ Admitted s t ∧ encodeCapacity t.n < 2 ^ s.plat.width := by
  rw [encFault, Option.or_eq_none_iff, regionFault_eq_none, capacityFault_eq_none]

theorem encuFault_eq_none {s : State} {t : Transfer} :
    encuFault s t = none ↔ Admitted s t ∧ encodeCapacity t.n < 2 ^ s.plat.width ∧ encodeCapacity t.n ≤ t.d := by
  rw [encuFault, Option.or_eq_none_iff, encFault_eq_none, and_assoc]
  simp

theorem decFault_eq_none {s : State} {t : Transfer} : decFault s t = none ↔ Admitted s t := regionFault_eq_none

theorem decuFault_eq_none {s : State} {t : Transfer} : decuFault s t = none ↔ Admitted s t ∧ t.n ≤ t.d + 1 := by
  rw [decuFault, Option.or_eq_none_iff, decFault_eq_none]
  refine and_congr_right fun _ => ?_
  split <;> simp <;> omega

theorem decError_eq (t : Transfer) : decError t = if t.n = 0 then some .emptyInput
    else if 1 < t.n ∧ t.d < t.n - 1 then some (.bufferTooSmall t.d (t.n - 1)) else none := by
  by_cases hn : t.n = 0 <;> simp [decError, decuError, decodeCapacity, hn]

/-- Latching draws free values and changes nothing the faults depend on. -/
@[simp] theorem encFault_drawn (s : State) (f : Nat) (t : Transfer) : encFault (s.drawn f) t = encFault s t := by
  rw [encFault, regionFault_drawn]; rfl
@[simp] theorem encuFault_drawn (s : State) (f : Nat) (t : Transfer) : encuFault (s.drawn f) t = encuFault s t := by
  rw [encuFault, encFault_drawn]; rfl
@[simp] theorem decFault_drawn (s : State) (f : Nat) (t : Transfer) : decFault (s.drawn f) t = decFault s t := regionFault_drawn s f t
@[simp] theorem decuFault_drawn (s : State) (f : Nat) (t : Transfer) : decuFault (s.drawn f) t = decuFault s t := by
  rw [decuFault, decFault_drawn]; rfl
@[simp] theorem capacityFault_drawn (s : State) (f n : Nat) : capacityFault (s.drawn f) n = capacityFault s n := rfl

/-! ### Inversion -/

theorem exec_idle {i : Instr} {s u : State} (h : exec i s = .next u) : s.core.status.busy = false := by
  cases i <;> exact (whenIdle_next h).1

theorem decodeAll_next {s u : State} {t : Transfer} (h : decodeAll s t = .next u) :
    ∃ o m, decodeCore t s.mem = some (o, m) ∧ u = s.settle t o m := by
  unfold decodeAll at h
  cases hr : decodeCore t s.mem with
  | none => rw [hr] at h; cases h
  | some r => rw [hr] at h; cases h; exact ⟨r.1, r.2, rfl, rfl⟩

/-- Whatever a command answers as its next state is one of the completions of `ExecNext`. -/
theorem exec_next {i : Instr} {s u : State} (h : exec i s = .next u) : ExecNext s i u := by
  cases i <;> obtain ⟨-, h⟩ := whenIdle_next h
  · obtain ⟨hf, h⟩ := unlessFault_next h
    cases h
    exact .enccap _ _ rfl (capacityFault_eq_none.1 hf)
  · obtain ⟨t, f, ht, hx⟩ := withTransfer_eq s.core.operands s
    obtain ⟨hf, h⟩ := unlessFault_next ((hx _).symm.trans h)
    rw [encFault_drawn, encFault_eq_none] at hf
    rcases State.raiseOr_next h with ⟨o, he, rfl⟩ | ⟨he, h⟩ <;> unfold encError at he <;> split at he <;> cases he
    · exact .encSmall t f ht hf.1 hf.2 ‹_›
    · cases h; exact .encode .enc (.inl rfl) t f ht hf.1 hf.2 (by omega)
  · obtain ⟨t, f, ht, hx⟩ := withTransfer_eq s.core.operands s
    obtain ⟨hf, h⟩ := unlessFault_next ((hx _).symm.trans h)
    rw [encuFault_drawn, encuFault_eq_none] at hf
    cases h; exact .encode .encu (.inr rfl) t f ht hf.1 hf.2.1 hf.2.2
  · cases h; exact .deccap _ _ rfl
  · obtain ⟨t, f, ht, hx⟩ := withTransfer_eq s.core.operands s
    obtain ⟨hf, h⟩ := unlessFault_next ((hx _).symm.trans h)
    rw [decFault_drawn, decFault_eq_none] at hf
    rcases State.raiseOr_next h with ⟨o, he, rfl⟩ | ⟨he, h⟩ <;> rw [decError_eq] at he <;> split at he
    · cases he; exact .decEmpty .dec (.inl rfl) t f ht hf ‹_›
    · split at he
      · rename_i hc; cases he; exact .decSmall t f ht hf hc.1 hc.2
      · cases he
    · cases he
    · split at he
      · cases he
      · obtain ⟨o, m, hm, rfl⟩ := decodeAll_next h
        exact .decode .dec (.inl rfl) t f ht hf (by omega) (by omega) o m hm
  · obtain ⟨t, f, ht, hx⟩ := withTransfer_eq s.core.operands s
    obtain ⟨hf, h⟩ := unlessFault_next ((hx _).symm.trans h)
    rw [decuFault_drawn, decuFault_eq_none] at hf
    rcases State.raiseOr_next h with ⟨o, he, rfl⟩ | ⟨he, h⟩ <;> unfold decuError at he <;> split at he <;> cases he
    · exact .decEmpty .decu (.inr rfl) t f ht hf.1 ‹_›
    · obtain ⟨o, m, hm, rfl⟩ := decodeAll_next h
      exact .decode .decu (.inr rfl) t f ht hf.1 (by omega) hf.2 o m hm

/-- Each completion of `ExecNext` is what the command answers on an idle core. -/
theorem ExecNext.exec {i : Instr} {s u : State} (h : ExecNext s i u) (hb : s.core.status.busy = false) :
    exec i s = .next u := by
  cases h with
  | enccap n f hn hw => simp [Machine.exec, execEnccap, withLength, hb, hn, capacityFault_eq_none.2 hw]
  | deccap n f hn => simp [Machine.exec, execDeccap, withLength, hb, hn]
  | encSmall t f ht ha hw hd => simp [Machine.exec, execEnc, withTransfer, hb, ht, encFault_eq_none.2 ⟨ha, hw⟩, encError, hd]
  | encode i hi t f ht ha hw hd =>
    rcases hi with rfl | rfl
    · simp [Machine.exec, execEnc, withTransfer, hb, ht, encFault_eq_none.2 ⟨ha, hw⟩, encError, Nat.not_lt.2 hd, encodeAll]
    · simp [Machine.exec, execEncu, withTransfer, hb, ht, encuFault_eq_none.2 ⟨ha, hw, hd⟩, encodeAll]
  | decEmpty i hi t f ht ha hn =>
    rcases hi with rfl | rfl
    · simp [Machine.exec, execDec, withTransfer, hb, ht, decFault_eq_none.2 ha, decError_eq, hn]
    · simp [Machine.exec, execDecu, withTransfer, hb, ht, decuFault_eq_none.2 ⟨ha, by omega⟩, decuError, hn]
  | decSmall t f ht ha hn hd =>
    have : t.n ≠ 0 := by omega
    simp [Machine.exec, execDec, withTransfer, hb, ht, decFault_eq_none.2 ha, decError_eq, this, hn, hd]
  | decode i hi t f ht ha hn hd o m he =>
    have h1 : t.n ≠ 0 := by omega
    have h2 : ¬ (1 < t.n ∧ t.d < t.n - 1) := by omega
    rcases hi with rfl | rfl
    · simp only [Machine.exec, execDec, whenIdle_of_idle _ hb, withTransfer, ht, decFault_drawn, decFault_eq_none.2 ha, unlessFault_none,
        decError_eq, if_neg h1, if_neg h2, State.raiseOr_none, decodeAll, State.drawn_mem, he]
    · simp only [Machine.exec, execDecu, whenIdle_of_idle _ hb, withTransfer, ht, decuFault_drawn, decuFault_eq_none.2 ⟨ha, hd⟩,
        unlessFault_none, decuError, if_neg h1, State.raiseOr_none, decodeAll, State.drawn_mem, he]

/-! ### Completion -/

/-- A completion leaves the addressed core as R27 and R31 say. -/
theorem completed_complete (s : State) (o : OpOutcome) : Completed (s.complete o) o := by
  constructor <;> rfl

theorem completed_settle (s : State) (t : Transfer) (o : OpOutcome) (m : Memory) : Completed (s.settle t o m) o := by
  constructor <;> rw [State.settle_core] <;> rfl

theorem sameFrame_complete (s : State) (o : OpOutcome) : SameFrame s (s.complete o) := by
  constructor <;> rfl

theorem sameFrame_settle (s : State) (t : Transfer) (o : OpOutcome) (m : Memory) : SameFrame s (s.settle t o m) := by
  constructor <;> simp

/-- Completing a transform changes memory in the destination region only. -/
theorem read_settle_outside (s : State) (t : Transfer) (o : OpOutcome) (m : Memory) {a : Nat} (ha : ¬ InDest t a) :
    (s.settle t o m).mem.read a = m.read a := by
  unfold InDest at ha
  cases o <;> simp only [State.settle, State.scramble_mem, State.complete_mem] <;>
    exact Memory.read_scramble_outside _ _ _ _ (by omega)

/-- After OK the bytes below RESULT are those the core procedure left (R53). -/
theorem read_settle_result (s : State) (t : Transfer) (r : Nat) (m : Memory) {a : Nat} (ha : a < t.dst + r) :
    (s.settle t (.ok r) m).mem.read a = m.read a :=
  Memory.read_scramble_outside _ _ _ _ (.inl ha)

theorem Admitted.apart {s : State} {t : Transfer} (h : Admitted s t) : t.Apart := h.disjoint

end Sys2Proof.Machine
end

