-- ==== Sys2Proof/Laws/CoreSteps.lean ====
section
/-! SUPPORT. What a CMD write that leaves its operation in flight, and one core step, can do: one inversion lemma for each. -/

namespace Sys2Proof.Machine

/-! ### The CMD write -/

/-- Completing wipes out whatever the start of the operation did to the core (R27, R31). -/
@[simp] theorem CodecCore.start_complete (c : CodecCore) (cmd : Byte) (l : Operands) (o : OpOutcome) :
    (c.start cmd l).complete o = c.complete o := rfl

/-- A started core's regions are those of the latched operands, if the command is a transform. -/
theorem CodecCore.start_runningTransfer (c : CodecCore) (cmd : Byte) (l : Operands) :
    (c.start cmd l).runningTransfer =
      match decodeCmd cmd with
      | none => none
      | some i => if i.isTransform then l.transfer else none := rfl

theorem transferFault_drawn (i : Instr) (s : State) (f : Nat) (t : Transfer) :
    transferFault i (s.drawn f) t = transferFault i s t := by
  cases i <;> simp [transferFault]

theorem lengthFault_drawn (i : Instr) (s : State) (f n : Nat) : lengthFault i (s.drawn f) n = lengthFault i s n := by
  cases i <;> rfl

/-- A transform whose latched operands establish no fault has admitted regions. -/
theorem transferFault_admitted {i : Instr} {s : State} {t : Transfer} (hi : i.isTransform = true)
    (h : transferFault i s t = none) : Admitted s t := by
  cases i
  case enccap => cases hi
  case deccap => cases hi
  case enc => exact (encFault_eq_none.1 h).1
  case encu => exact (encuFault_eq_none.1 h).1
  case dec => exact decFault_eq_none.1 h
  case decu => exact (decuFault_eq_none.1 h).1

/-- Every way a CMD write leaves its operation in flight. -/
inductive IssueNext (s : State) (c : Byte) : State → Prop where
  | illegal (hc : decodeCmd c = none) : IssueNext s c (s.start c s.core.operands)
  | sizing (i : Instr) (hc : decodeCmd c = some i) (hi : i.isTransform = false) (n f : Nat)
      (hn : s.core.operands.readLength s.plat.width s.fresh = (n, f)) (hv : lengthFault i s n = none) :
      IssueNext s c ((s.drawn f).start c { s.core.operands with srcLen := some n })
  | transform (i : Instr) (hc : decodeCmd c = some i) (hi : i.isTransform = true) (t : Transfer) (f : Nat)
      (ht : s.core.operands.readTransfer s.plat.width s.fresh = (t, f)) (hv : transferFault i s t = none) :
      IssueNext s c ((s.drawn f).start c t.operands)

/-- A CMD write that answers a next state starts the operation on an idle core. -/
theorem issueCmd_next {c : Byte} {s u : State} (h : issueCmd c s = .next u) : s.core.status.busy = false ∧ IssueNext s c u := by
  obtain ⟨hb, h⟩ := whenIdle_next h
  refine ⟨hb, ?_⟩
  cases hc : decodeCmd c with
  | none => rw [hc] at h; cases h; exact .illegal hc
  | some i =>
    rw [hc] at h
    dsimp only [startCommand] at h
    split at h
    · obtain ⟨t, f, ht, hx⟩ := withTransfer_eq s.core.operands s
      obtain ⟨hv, h⟩ := unlessFault_next ((hx _).symm.trans h)
      cases h
      exact .transform i hc ‹_› t f ht (transferFault_drawn i s f t ▸ hv)
    · obtain ⟨n, f, hn, hx⟩ := withLength_eq s.core.operands s
      obtain ⟨hv, h⟩ := unlessFault_next ((hx _).symm.trans h)
      cases h
      exact .sizing i hc (by simpa using ‹¬ i.isTransform = true›) n f hn (lengthFault_drawn i s f n ▸ hv)

/-- Each case of `IssueNext` is what the CMD write answers on an idle core. -/
theorem IssueNext.issueCmd {c : Byte} {s u : State} (h : IssueNext s c u) (hb : s.core.status.busy = false) :
    issueCmd c s = .next u := by
  cases h with
  | illegal hc => simp [Machine.issueCmd, hb, hc]
  | sizing i hc hi n f hn hv => simp [Machine.issueCmd, hb, hc, startCommand, hi, withLength, hn, lengthFault_drawn, hv]
  | transform i hc hi t f ht hv => simp [Machine.issueCmd, hb, hc, startCommand, hi, withTransfer, ht, transferFault_drawn, hv]

/-! ### One core step -/

theorem State.withWork_eq {s : State} {fl : InFlight} (h : s.core.op = some fl) (m : Memory) (w : Work) :
    ({ s with mem := m } : State).withWork w = s.working m fl w := by
  simp [State.withWork, State.working, h]

/-- Where a step of the walk leads (R96). -/
theorem State.afterWalk_eq {s : State} {fl : InFlight} (h : s.core.op = some fl) (t : Transfer) (w : Walk) :
    s.afterWalk t w = match w with
      | .running d m => s.working m fl (.decoding d)
      | .ended o m => s.settle t o m := by
  cases w with
  | running d m => exact State.withWork_eq h m _
  | ended o m => rfl

/-- Every way a core step answers, over the operands its command finds latched. -/
inductive CoreNext (s : State) : State → Prop where
  | idle (h : s.core.op = none) : CoreNext s s
  | illegal (fl : InFlight) (h : s.core.op = some fl) (hw : fl.work = .started) (hc : decodeCmd fl.cmd = none) :
      CoreNext s (s.complete .illegalCommand)
  | enccap (fl : InFlight) (h : s.core.op = some fl) (hw : fl.work = .started) (hc : decodeCmd fl.cmd = some .enccap) (n f : Nat)
      (hn : fl.latched.readLength s.plat.width s.fresh = (n, f)) : CoreNext s ((s.drawn f).complete (enccapOutcome n))
  | deccap (fl : InFlight) (h : s.core.op = some fl) (hw : fl.work = .started) (hc : decodeCmd fl.cmd = some .deccap) (n f : Nat)
      (hn : fl.latched.readLength s.plat.width s.fresh = (n, f)) : CoreNext s ((s.drawn f).complete (deccapOutcome n))
  | encSmall (fl : InFlight) (h : s.core.op = some fl) (hw : fl.work = .started) (hc : decodeCmd fl.cmd = some .enc)
      (t : Transfer) (f : Nat) (ht : fl.latched.readTransfer s.plat.width s.fresh = (t, f)) (hd : t.d < encodeCapacity t.n) :
      CoreNext s ((s.drawn f).complete (.bufferTooSmall t.d (encodeCapacity t.n)))
  | encEmpty (fl : InFlight) (h : s.core.op = some fl) (hw : fl.work = .started) (t : Transfer) (f : Nat)
      (ht : fl.latched.readTransfer s.plat.width s.fresh = (t, f))
      (hc : decodeCmd fl.cmd = some .enc ∧ encodeCapacity t.n ≤ t.d ∨ decodeCmd fl.cmd = some .encu) (hn : t.n = 0) :
      CoreNext s ((s.drawn f).settle t (.ok (Machine.encEmpty t s.mem).1) (Machine.encEmpty t s.mem).2)
  | encStart (fl : InFlight) (h : s.core.op = some fl) (hw : fl.work = .started) (t : Transfer) (f : Nat)
      (ht : fl.latched.readTransfer s.plat.width s.fresh = (t, f))
      (hc : decodeCmd fl.cmd = some .enc ∧ encodeCapacity t.n ≤ t.d ∨ decodeCmd fl.cmd = some .encu) (hn : 1 ≤ t.n) :
      CoreNext s ((s.drawn f).working s.mem fl (.encoding encInit))
  | encByte (fl : InFlight) (h : s.core.op = some fl) (e : EncRegs) (hw : fl.work = .encoding e) (t : Transfer) (f : Nat)
      (ht : fl.latched.readTransfer s.plat.width s.fresh = (t, f)) (hi : e.i < t.n) :
      CoreNext s ((s.drawn f).working (encByteStep t e s.mem).2 fl (.encoding (encByteStep t e s.mem).1))
  | encFinal (fl : InFlight) (h : s.core.op = some fl) (e : EncRegs) (hw : fl.work = .encoding e) (t : Transfer) (f : Nat)
      (ht : fl.latched.readTransfer s.plat.width s.fresh = (t, f)) (hi : t.n ≤ e.i) :
      CoreNext s ((s.drawn f).settle t (.ok (encFinalize t e s.mem).1) (encFinalize t e s.mem).2)
  | decEmpty (fl : InFlight) (h : s.core.op = some fl) (hw : fl.work = .started)
      (hc : decodeCmd fl.cmd = some .dec ∨ decodeCmd fl.cmd = some .decu) (t : Transfer) (f : Nat)
      (ht : fl.latched.readTransfer s.plat.width s.fresh = (t, f)) (hn : t.n = 0) : CoreNext s ((s.drawn f).complete .emptyInput)
  | decSmall (fl : InFlight) (h : s.core.op = some fl) (hw : fl.work = .started) (hc : decodeCmd fl.cmd = some .dec)
      (t : Transfer) (f : Nat) (ht : fl.latched.readTransfer s.plat.width s.fresh = (t, f)) (hn : 1 < t.n) (hd : t.d < t.n - 1) :
      CoreNext s ((s.drawn f).complete (.bufferTooSmall t.d (t.n - 1)))
  | decStart (fl : InFlight) (h : s.core.op = some fl) (hw : fl.work = .started) (t : Transfer) (f : Nat)
      (ht : fl.latched.readTransfer s.plat.width s.fresh = (t, f))
      (hc : decodeCmd fl.cmd = some .dec ∧ t.n ≤ t.d + 1 ∨ decodeCmd fl.cmd = some .decu) (hn : 1 ≤ t.n) :
      CoreNext s ((s.drawn f).afterWalk t (decFirst t s.mem))
  | decWalk (fl : InFlight) (h : s.core.op = some fl) (d : DecRegs) (hw : fl.work = .decoding d) (t : Transfer) (f : Nat)
      (ht : fl.latched.readTransfer s.plat.width s.fresh = (t, f)) : CoreNext s ((s.drawn f).afterWalk t (decStep t d s.mem))

theorem encodeFirst_eq {s : State} {fl : InFlight} (h : s.core.op = some fl) (t : Transfer) :
    encodeFirst s t = if t.n = 0 then s.settle t (.ok (encEmpty t s.mem).1) (encEmpty t s.mem).2
      else s.working s.mem fl (.encoding encInit) := by
  unfold encodeFirst
  split
  · rfl
  · exact State.withWork_eq h s.mem _

theorem encodeNext_eq {s : State} {fl : InFlight} (h : s.core.op = some fl) (t : Transfer) (e : EncRegs) :
    encodeNext s t e = if e.i < t.n then s.working (encByteStep t e s.mem).2 fl (.encoding (encByteStep t e s.mem).1)
      else s.settle t (.ok (encFinalize t e s.mem).1) (encFinalize t e s.mem).2 := by
  unfold encodeNext
  split
  · exact State.withWork_eq h _ _
  · rfl

/-- Whatever a core step answers as its next state is one of the cases of `CoreNext`. -/
theorem coreStep_next {s u : State} (h : coreStep s = .next u) : CoreNext s u := by
  unfold coreStep at h
  cases hop : s.core.op with
  | none => rw [hop] at h; cases h; exact .idle hop
  | some fl =>
    have hop' (f : Nat) : (s.drawn f).core.op = some fl := hop
    obtain ⟨t, f, ht, hx⟩ := withTransfer_eq fl.latched s
    rw [hop] at h
    dsimp only at h
    cases hw : fl.work with
    | started =>
      rw [hw] at h
      dsimp only at h
      cases hc : decodeCmd fl.cmd with
      | none => rw [hc] at h; cases h; exact .illegal fl hop hw hc
      | some i =>
        rw [hc] at h
        cases i <;> dsimp only [firstStep] at h
        · cases h; exact .enccap fl hop hw hc _ _ rfl
        · rw [hx] at h
          rcases State.raiseOr_next h with ⟨o, he, rfl⟩ | ⟨he, h⟩ <;> unfold encError at he <;> split at he <;> cases he
          · exact .encSmall fl hop hw hc t f ht ‹_›
          · rw [encodeFirst_eq (hop' f)] at h
            cases h
            split
            · exact .encEmpty fl hop hw t f ht (.inl ⟨hc, by omega⟩) ‹_›
            · exact .encStart fl hop hw t f ht (.inl ⟨hc, by omega⟩) (by omega)
        · rw [hx, encodeFirst_eq (hop' f)] at h
          cases h
          split
          · exact .encEmpty fl hop hw t f ht (.inr hc) ‹_›
          · exact .encStart fl hop hw t f ht (.inr hc) (by omega)
        · cases h; exact .deccap fl hop hw hc _ _ rfl
        · rw [hx] at h
          rcases State.raiseOr_next h with ⟨o, he, rfl⟩ | ⟨he, h⟩ <;> rw [decError_eq] at he <;> split at he
          · cases he; exact .decEmpty fl hop hw (.inl hc) t f ht ‹_›
          · split at he
            · rename_i hd; cases he; exact .decSmall fl hop hw hc t f ht hd.1 hd.2
            · cases he
          · cases he
          · split at he
            · cases he
            · cases h; exact .decStart fl hop hw t f ht (.inl ⟨hc, by omega⟩) (by omega)
        · rw [hx] at h
          rcases State.raiseOr_next h with ⟨o, he, rfl⟩ | ⟨he, h⟩ <;> unfold decuError at he <;> split at he <;> cases he
          · exact .decEmpty fl hop hw (.inr hc) t f ht ‹_›
          · cases h; exact .decStart fl hop hw t f ht (.inr hc) (by omega)
    | encoding e =>
      rw [hw] at h
      dsimp only at h
      rw [hx, encodeNext_eq (hop' f)] at h
      cases h
      split
      · exact .encByte fl hop e hw t f ht ‹_›
      · exact .encFinal fl hop e hw t f ht (by omega)
    | decoding d =>
      rw [hw] at h
      dsimp only at h
      rw [hx] at h
      cases h
      exact .decWalk fl hop d hw t f ht

/-- A core step always answers a next state: the faults of a command are taken at its CMD write (R32, R125 step 1). -/
theorem coreStep_isNext (s : State) : ∃ u, coreStep s = .next u := by
  have hr : ∀ (s : State) (e : Option OpOutcome) (v : State), ∃ u, s.raiseOr e (.next v) = .next u := by
    intro s e v; cases e <;> exact ⟨_, rfl⟩
  unfold coreStep
  cases s.core.op with
  | none => exact ⟨s, rfl⟩
  | some fl =>
    dsimp only
    cases fl.work with
    | started =>
      dsimp only
      cases decodeCmd fl.cmd with
      | none => exact ⟨_, rfl⟩
      | some i => cases i <;> first | exact ⟨_, rfl⟩ | exact hr _ _ _
    | encoding e => exact ⟨_, rfl⟩
    | decoding d => exact ⟨_, rfl⟩

/-! ### Several core steps -/

@[simp] theorem coreSteps_zero (s : State) : coreSteps 0 s = .next s := rfl

theorem coreSteps_succ_next {s u : State} (k : Nat) (h : coreStep s = .next u) : coreSteps (k + 1) s = coreSteps k u := by
  rw [coreSteps, h]

/-- So does any number of core steps. -/
theorem coreSteps_isNext (k : Nat) (s : State) : ∃ u, coreSteps k s = .next u := by
  induction k generalizing s with
  | zero => exact ⟨s, rfl⟩
  | succ k ih =>
    obtain ⟨v, hv⟩ := coreStep_isNext s
    rw [coreSteps_succ_next k hv]
    exact ih v

/-- An idle core stays as it is (R135, R138). -/
theorem coreSteps_idle {s : State} (h : s.core.op = none) (k : Nat) : coreSteps k s = .next s := by
  induction k with
  | zero => rfl
  | succ k ih => rw [coreSteps_succ_next k (by rw [coreStep, h])]; exact ih

theorem coreSteps_add {s u : State} {k : Nat} (j : Nat) (h : coreSteps k s = .next u) : coreSteps (k + j) s = coreSteps j u := by
  induction k generalizing s with
  | zero => cases h; rw [Nat.zero_add]
  | succ k ih =>
    rw [coreSteps] at h
    cases hs : coreStep s with
    | next v => rw [hs] at h; rw [Nat.succ_add, coreSteps_succ_next _ hs]; exact ih h
    | fault f => rw [hs] at h; cases h
    | refused r => rw [hs] at h; cases h

end Sys2Proof.Machine
end

