-- ==== Sys2Proof/Laws/PerInstr.lean ====
section
/-! SUPPORT. What holds of every command as syntax, one lemma per command. -/

namespace Sys2Proof.Laws.Encoding

/-- The command word splits back into the fields it was put together from (R60), and they are a legal command word's (R66). -/
def Statement (i : Instr) : Prop := cmdFields (encode i) = i.fields ∧ i.wf = true

theorem enccap : Statement .enccap := ⟨rfl, rfl⟩
theorem enc : Statement .enc := ⟨rfl, rfl⟩
theorem encu : Statement .encu := ⟨rfl, rfl⟩
theorem deccap : Statement .deccap := ⟨rfl, rfl⟩
theorem dec : Statement .dec := ⟨rfl, rfl⟩
theorem decu : Statement .decu := ⟨rfl, rfl⟩

end Sys2Proof.Laws.Encoding
end

