-- ==== Sys2Proof/Laws/Step.lean ====
section
/-! SUPPORT. What one step can do: the inversion lemmas of the register accesses and of `step`. -/

namespace Sys2Proof.Machine

/-- What the host's accesses and the outside world can do to the machine, the schedule aside. -/
inductive HostNext (s : State) : State → Prop where
  | reply (r : Reply) (f : Nat) : HostNext s { s with reply := some r, fresh := f }
  | command (c : Byte) (u : State) (h : writeCmd c s = .next u) : HostNext s u
  | operands (o : Operands) (hb : s.core.status.busy = false)
      (ho : s.core.operands.Fits s.plat.width → o.Fits s.plat.width) :
      HostNext s { s with core := { s.core with operands := o } }
  | ignored : HostNext s s
  | started (c : Byte) (u : State) (h : issueCmd c s = .next u) : HostNext s u
  | core (u : State) (h : coreStep s = .next u) : HostNext s u
  | memWrite (a : Nat) (v : Byte) (ha : a < 2 ^ s.plat.width) : HostNext s { s with mem := s.mem.write a v }
  | reset : HostNext s (resetCore s)
  | select (k : Nat) (u : State) (h : selectCore k s = .next u) : HostNext s u

theorem readReg_next {r : Reg} {rep : Nat → Reply} {s u : State} (h : readReg r rep s = .next u) :
    ∃ v, s.regValue r = some v ∧ u = { s with reply := some (rep v.1), fresh := v.2 } := by
  unfold readReg at h
  cases hv : s.regValue r with
  | none => rw [hv] at h; cases h
  | some v => rw [hv] at h; cases h; exact ⟨v, rfl, rfl⟩

theorem writeOperands_next {o : Operands} {s u : State} (h : writeOperands o s = .next u) :
    s.core.status.busy = false ∧ u = { s with core := { s.core with operands := o } } := by
  unfold writeOperands at h
  split at h
  · cases h
  · cases h; exact ⟨by simpa using ‹¬ s.core.status.busy = true›, rfl⟩

theorem writeReg_next {r : Reg} {v : Nat} {s u : State} (hv : v < 2 ^ r.width s.plat.width) (h : writeReg r v s = .next u) :
    HostNext s u := by
  cases r
  case cmd => exact .command _ _ h
  case srcBase =>
    obtain ⟨hb, rfl⟩ := writeOperands_next h
    exact .operands _ hb fun hf => { hf with srcBase := fun w hw => by cases hw; exact hv }
  case srcLen =>
    obtain ⟨hb, rfl⟩ := writeOperands_next h
    exact .operands _ hb fun hf => { hf with srcLen := fun w hw => by cases hw; exact hv }
  case dstBase =>
    obtain ⟨hb, rfl⟩ := writeOperands_next h
    exact .operands _ hb fun hf => { hf with dstBase := fun w hw => by cases hw; exact hv }
  case dstLen =>
    obtain ⟨hb, rfl⟩ := writeOperands_next h
    exact .operands _ hb fun hf => { hf with dstLen := fun w hw => by cases hw; exact hv }
  all_goals cases h; exact .ignored

theorem hostRead_next {k : BitVec 4} {bits : Nat} {s u : State} (h : hostRead k bits s = .next u) : HostNext s u := by
  unfold hostRead at h
  cases hr : Reg.ofNumber k with
  | none => rw [hr] at h; cases h
  | some r =>
    rw [hr] at h; dsimp only at h
    split at h
    · cases h
    · obtain ⟨v, -, rfl⟩ := readReg_next h; exact .reply _ _

theorem hostWrite_next {k : BitVec 4} {bits : Nat} {v : BitVec bits} {s u : State} (h : hostWrite k bits v s = .next u) :
    HostNext s u := by
  unfold hostWrite at h
  cases hr : Reg.ofNumber k with
  | none => rw [hr] at h; cases h
  | some r =>
    rw [hr] at h; dsimp only at h
    split at h
    · cases h
    · rename_i hw
      refine writeReg_next ?_ h
      rw [← Decidable.of_not_not hw]; exact v.isLt

theorem atRegister_next {addr count : Nat} {s u : State} {next : Config.RegWindow → Reg → Out}
    (h : atRegister addr count s next = .next u) : ∃ win r, next win r = .next u := by
  unfold atRegister at h
  split at h
  · cases h
  · split at h
    · split at h
      · exact ⟨_, _, h⟩
      · cases h
    · split at h <;> cases h

theorem busRead_next {addr count : Nat} {s u : State} (h : busRead addr count s = .next u) : HostNext s u := by
  obtain ⟨win, r, h⟩ := atRegister_next h
  obtain ⟨v, -, rfl⟩ := readReg_next h
  exact .reply _ _

/-- A window write is a register write, of the value its bytes stand for or of a free value. -/
theorem busWrite_next {addr : Nat} {bs : List Byte} {s u : State} (h : busWrite addr bs s = .next u) :
    ∃ f, HostNext (s.drawn f) u := by
  obtain ⟨win, r, h⟩ := atRegister_next h
  dsimp only at h
  split at h
  · exact ⟨s.fresh, writeReg_next ‹_› h⟩
  · exact ⟨s.fresh + 1, writeReg_next (Config.freeWord _ _).isLt h⟩

theorem atMemory_next {a : Nat} {allowed : Config.MapEntry → Bool} {s u : State} {next : Out}
    (h : atMemory a allowed s next = .next u) : a < 2 ^ s.plat.width ∧ meetsRunning s.allCores a 1 = false ∧ next = .next u := by
  unfold atMemory at h
  split at h
  · cases h
  · split at h
    · cases h
    · split at h
      · cases h
      · split at h
        · cases h
        · split at h
          · exact ⟨by omega, by simpa using ‹¬ meetsRunning s.allCores a 1 = true›, h⟩
          · cases h

/-- An access of another agent in a running operation's region is the fault of H3, whatever the platform has there (R140). -/
theorem atMemory_running {a : Nat} {allowed : Config.MapEntry → Bool} {s : State} {next : Out} (h : meetsRunning s.allCores a 1 = true) :
    atMemory a allowed s next = .fault .regionAccessWhileBusy := if_pos h

theorem memRead_next {a : Nat} {s u : State} (h : memRead a s = .next u) : HostNext s u := by
  obtain ⟨-, -, h⟩ := atMemory_next h
  cases h; exact .reply _ s.fresh

theorem memWrite_next {a : Nat} {v : Byte} {s u : State} (h : memWrite a v s = .next u) : HostNext s u := by
  obtain ⟨ha, -, h⟩ := atMemory_next h
  cases h; exact .memWrite a v ha

theorem selectCore_next {k : Nat} {s u : State} (h : selectCore k s = .next u) :
    u.plat = s.plat ∧ u.allCores = s.allCores ∧ u.mem = s.mem ∧ u.host = s.host ∧ u.reply = s.reply ∧ u.fresh = s.fresh := by
  unfold selectCore at h
  cases hk : s.allCores[k]? with
  | none => rw [hk] at h; cases h
  | some c =>
    rw [hk] at h; cases h
    refine ⟨rfl, ?_, rfl, rfl, rfl, rfl⟩
    obtain ⟨hlt, he⟩ := List.getElem?_eq_some_iff.1 hk
    show s.allCores.take k ++ c :: s.allCores.drop (k + 1) = s.allCores
    rw [← he, ← List.drop_eq_getElem_cons hlt, List.take_append_drop]

/-- One step is one of the things of `HostNext` on the state with its schedule advanced and free values drawn; or it is a poll, which leaves a reply and the free-value
counter of the STATUS read, and then ends or takes a core step. -/
theorem step_next {s u : State} (h : step s = .next u) :
    (∃ es f, HostNext { s with host := es, fresh := f } u) ∨
    ∃ es r f, u = { s with host := es, reply := r, fresh := f } ∨
      coreStep { s with host := es, reply := r, fresh := f } = .next u := by
  unfold step at h
  split at h
  · unfold idleStep at h
    split at h
    · exact .inl ⟨s.host, s.fresh, .core _ h⟩
    · split at h
      · exact .inl ⟨s.host, s.fresh, .select _ _ h⟩
      · cases h; exact .inl ⟨s.host, s.fresh, .ignored⟩
  · rename_i e rest hh
    cases e with
    | read k bits => exact .inl ⟨rest, s.fresh, hostRead_next h⟩
    | write k bits v => exact .inl ⟨rest, s.fresh, hostWrite_next h⟩
    | issue c => exact .inl ⟨rest, s.fresh, .started c _ h⟩
    | busRead addr count => exact .inl ⟨rest, s.fresh, busRead_next h⟩
    | busWrite addr bs => exact (let ⟨f, h⟩ := busWrite_next h; .inl ⟨rest, f, h⟩)
    | tick => exact .inl ⟨rest, s.fresh, .core _ h⟩
    | poll =>
      simp only [hostEvent, pollStatus] at h
      split at h
      · cases h; exact .inr ⟨rest, _, _, .inl rfl⟩
      · exact .inr ⟨s.host, _, _, .inr h⟩
    | memRead a => exact .inl ⟨rest, s.fresh, memRead_next h⟩
    | memWrite a v => exact .inl ⟨rest, s.fresh, memWrite_next h⟩
    | reset => simp only [hostEvent] at h; cases h; exact .inl ⟨rest, s.fresh, .reset⟩
    | select k => exact .inl ⟨rest, s.fresh, .select k _ h⟩

/-- A command word's next state: a command's, or ILLEGAL_COMMAND (R62, R66). -/
theorem writeCmd_next {c : Byte} {s u : State} (h : writeCmd c s = .next u) :
    (∃ i, decodeCmd c = some i ∧ exec i s = .next u) ∨
    (decodeCmd c = none ∧ s.core.status.busy = false ∧ u = s.complete .illegalCommand) := by
  unfold writeCmd at h
  cases hc : decodeCmd c with
  | some i => rw [hc] at h; exact .inl ⟨i, rfl, h⟩
  | none =>
    rw [hc] at h
    obtain ⟨hb, h⟩ := whenIdle_next h
    cases h; exact .inr ⟨rfl, hb, rfl⟩

end Sys2Proof.Machine
end

