-- ==== Sys2Proof/Tests/Slice0.lean ====
section
/-! SUPPORT. Tests: the checks of WellFormed refuse ill-formed terms, command words decode, the spec's worked examples come out of single steps,
and for every obligation with hypotheses a concrete state meets them. Expected values are those of the rules cited. -/

namespace Sys2Proof.Tests

open Sys2Proof Sys2Proof.Machine

/-! ### WellFormed: an ill-formed term for each check -/

theorem test_wf_refuses_reserved_bits : ({ rsv := 0b00001#5, dir := 0b0#1, op := 0b01#2 } : CmdFields).wf = false := by decide
theorem test_wf_refuses_reserved_op : ({ rsv := 0b00000#5, dir := 0b1#1, op := 0b00#2 } : CmdFields).wf = false := by decide
theorem test_wf_refuses_width_zero : ({ width := 0, map := [], window := none } : Config.Platform).wf = false := by decide
theorem test_wf_refuses_map_outside :
    ({ width := 8, map := [⟨0x80, 0x81, .ordinary, true, true⟩], window := none } : Config.Platform).wf = false := by decide
theorem test_wf_refuses_few_registers :
    ({ base := [0], statusOrder := [0, 1], wordOrder := [0] } : Config.RegWindow).wf 8 = false := by decide
theorem test_wf_refuses_word_order :
    ({ base := List.range 12, statusOrder := [0, 1], wordOrder := [1, 1] } : Config.RegWindow).wf 16 = false := by decide
theorem test_wf_refuses_status_order :
    ({ base := List.range 12, statusOrder := [0, 2], wordOrder := [0, 1] } : Config.RegWindow).wf 16 = false := by decide
theorem test_wf_accepts_standard : Config.Platform.standard.wf = true := by decide
theorem test_memory_form_refuses_order : Memory.wf [(2, 0x01#8), (1, 0x01#8)] = false := by decide
theorem test_memory_form_refuses_blank : Memory.wf [(1, 0x00#8)] = false := by decide

/-! ### Decode: words written out from R60 and R61 -/

theorem test_decode_enccap : decodeCmd 0b00000001#8 = some .enccap := by decide
theorem test_decode_enc : decodeCmd 0b00000010#8 = some .enc := by decide
theorem test_decode_encu : decodeCmd 0b00000011#8 = some .encu := by decide
theorem test_decode_deccap : decodeCmd 0b00000101#8 = some .deccap := by decide
theorem test_decode_dec : decodeCmd 0b00000110#8 = some .dec := by decide
theorem test_decode_decu : decodeCmd 0b00000111#8 = some .decu := by decide
theorem test_decode_reserved_op : decode 0b00000100#8 = .error .reservedOp := by rfl
theorem test_decode_reserved_bits : decode 0b10000010#8 = .error .reservedBits := by rfl
theorem test_decode_table_word : decodeTableWord 8 0x06 = some .dec ∧ decodeTableWord 16 0x06 = none ∧ decodeTableWord 8 0x106 = none := by
  decide

/-! ### Small states -/

/-- A platform of width `w`, all of it ordinary memory. -/
def plain (w : Nat) : Config.Platform := { width := w, map := [⟨0, 2 ^ w, .ordinary, true, true⟩], window := none }

/-- An idle machine with the operands of a transform and bytes placed at the source. -/
def ready (w : Nat) (t : Transfer) (bs : List Byte) : State :=
  let s := State.powerOn (plain w) 0 (Memory.writeBytes [] t.src bs)
  { s with core := { s.core with operands := ⟨some t.src, some t.n, some t.dst, some t.d⟩ } }

/-- The same with an operation in flight. -/
def flying (w : Nat) (t : Transfer) (bs : List Byte) (cmd : Byte) (k : Work) : State :=
  let s := ready w t bs
  { s with core := { s.core.start cmd s.core.operands with op := some ⟨cmd, s.core.operands, k⟩ } }

/-- The answer is a next state with the property. -/
def lands (x : Out) (p : State → Bool) : Bool :=
  match x with
  | .next u => p u
  | .fault _ => false
  | .refused _ => false

/-- The answer is the fault. -/
def faults (x : Out) (f : Fault) : Bool :=
  match x with
  | .next _ => false
  | .fault g => decide (g = f)
  | .refused _ => false

theorem lands_next {x : Out} {p : State → Bool} (h : lands x p = true) : ∃ u, x = .next u ∧ p u = true := by
  cases x with
  | next u => exact ⟨u, rfl, h⟩
  | fault f => cases h
  | refused r => cases h

theorem ready_ready (w : Nat) (t : Transfer) (bs : List Byte) : Ready (ready w t bs) t := ⟨rfl, rfl⟩

/-- A region of 7 payload bytes and a destination of their capacity (R88's shape; 95_test_vectors.md). -/
def tEnc : Transfer := ⟨0x10, 7, 0x80, 9⟩
def sEnc : State := ready 16 tEnc [0, 1, 0, 2, 0, 0, 3]

/-- R105's example frame. -/
def tDec : Transfer := ⟨0x10, 8, 0x80, 7⟩
def sDec : State := ready 16 tDec [1, 2, 1, 2, 2, 1, 2, 3]

/-! ### The spec's examples, one step each -/

/-- R76: n = 255 gives 258. -/
theorem test_enccap : lands (exec .enccap (ready 16 ⟨0, 255, 0, 0⟩ [])) (fun u => u.core.result == some 258) = true := by decide
/-- R75: W = 8, n = 254. -/
theorem test_enccap_overflow : faults (exec .enccap (ready 8 ⟨0, 254, 0, 0⟩ [])) .capacityOverflow = true := by decide
/-- R77: n = 8 gives 7. -/
theorem test_deccap : lands (exec .deccap (ready 8 ⟨0, 8, 0, 0⟩ [])) (fun u => u.core.result == some 7) = true := by decide
/-- R77, R119: n = 0. -/
theorem test_deccap_zero : lands (exec .deccap (ready 8 ⟨0, 0, 0, 0⟩ []))
    (fun u => u.core.status.code == some 0x06#8 && u.core.result == none) = true := by decide
/-- R105's payload, encoded: the frame of R105. -/
theorem test_enc : lands (exec .enc sEnc) (fun u => u.core.result == some 8 && destBytes u tEnc 8 == [1, 2, 1, 2, 2, 1, 2, 3]) = true := by
  decide
/-- R88: n = 0 with d = 0 gives BUFFER_TOO_SMALL(0, 1). -/
theorem test_enc_small : lands (exec .enc (ready 16 ⟨0, 0, 0, 0⟩ []))
    (fun u => u.core.errHave == some 0 && u.core.errWant == some 1) = true := by decide
/-- R89: payload [0x00] with DST_LEN 3. -/
theorem test_encu : lands (exec .encu (ready 16 ⟨0, 1, 8, 3⟩ [0]))
    (fun u => u.core.result == some 2 && u.mem.readBytes 8 2 == [1, 1]) = true := by decide
/-- R124: the frame would fit, and ENCU faults all the same. -/
theorem test_encu_precondition : faults (exec .encu (ready 16 ⟨0, 1, 8, 2⟩ [0])) .uncheckedPrecondition = true := by decide
/-- R105's example. -/
theorem test_dec : lands (exec .dec sDec) (fun u => u.core.result == some 7 && destBytes u tDec 7 == [0, 1, 0, 2, 0, 0, 3]) = true := by
  decide
/-- R104, R111: [0x03, 0x01, 0x00] is ZERO_BINARY at 2. -/
theorem test_dec_zero_binary : lands (exec .dec (ready 16 ⟨0x10, 3, 0x80, 2⟩ [3, 1, 0]))
    (fun u => u.core.status.code == some 0x04#8 && u.core.errAt == some 2) = true := by decide
/-- R106's example. -/
theorem test_decu : lands (exec .decu (ready 16 ⟨0x10, 6, 0x80, 5⟩ [6, 1, 2, 3, 4, 5]))
    (fun u => u.core.result == some 5 && u.mem.readBytes 0x80 5 == [1, 2, 3, 4, 5]) = true := by decide
/-- R111: [0x05, 0x00, 0x01] is CHUNK_OVERFLOW at 0 with marker 5 and length 3. -/
theorem test_decu_overflow : lands (exec .decu (ready 16 ⟨0x10, 3, 0x80, 2⟩ [5, 0, 1]))
    (fun u => u.core.errAt == some 0 && u.core.errMarker == some 5 && u.core.errLen == some 3) = true := by decide

/-- R84: the 254th data byte closes the chunk and reserves the next slot. -/
theorem test_full_chunk : encByteStep ⟨0, 254, 0x200, 0x200⟩ ⟨253, 254, 0, 254, false⟩ (Memory.writeBytes [] 253 [7]) =
    (⟨254, 256, 255, 1, false⟩, (Memory.writeBytes [] 253 [7]).write (0x200 + 254) 7 |>.write 0x200 0xFF) := by decide
/-- R86: the pass ends right after a full chunk, and the slot is given back. -/
theorem test_retraction : encFinalize ⟨0, 254, 0x200, 0x200⟩ ⟨254, 256, 255, 1, false⟩ [] = (255, []) := by decide

/-- Log entry 5: DEC of no bytes completes, SRC_BASE never written. -/
theorem test_unwritten_operand : ∃ u, exec .dec
    (let s := ready 16 ⟨0, 0, 5, 5⟩ []; { s with core := { s.core with operands.srcBase := none } }) = .next u ∧
    u.core.status.code = some 0x01#8 := by
  refine ⟨_, (ExecNext.decEmpty .dec (.inl rfl) ⟨(Config.freeWord 16 0).toNat, 0, 5, 5⟩ 1 rfl (regionFault_eq_none.1 ?_) rfl).exec rfl, rfl⟩
  have h : wraps (plain 16) (Config.freeWord 16 0).toNat 0 = false := by
    simpa [wraps, plain] using Nat.le_of_lt (Config.freeWord 16 0).isLt
  have h2 : overlaps (Config.freeWord 16 0).toNat 0 5 5 = false := overlaps_eq_false.2 (.inl rfl)
  simp only [regionFault]
  exact (if_neg fun x => Bool.noConfusion (h.symm.trans x)).trans <| (if_neg (by decide)).trans <|
    (if_neg fun x => Bool.noConfusion (h2.symm.trans x)).trans (by decide)

/-- R62, R67: after reset the next step runs the word placed. -/
theorem test_fetch : lands (step (State.reset.withFetchWord 8 0x02)) (fun u => u.core.status.done && u.core.result == some 2) = true := by
  decide
/-- R66: an illegal word placed after reset. -/
theorem test_fetch_illegal : lands (step (State.reset.withFetchWord 8 0x04)) (fun u => u.core.status.code == some 0x07#8) = true := by
  decide

/-- R69: a command line with a comment. -/
theorem test_parse_line : parseLine "ENC  0x10, 7, 0x80, 9 ; frame".toList = some (.command (.enc 16 7 128 9)) := by decide
/-- R71, R13: a directive with a range. -/
theorem test_parse_bytes : parseLine ".bytes 0x20, [0xFF, 1..=3]".toList = some (.directive (.bytes 32 [255, 1, 2, 3])) := by decide

/-- R23, R50: STATUS read through a little-endian and a big-endian window after a completion with code 0x06. -/
theorem test_window : ∀ order ∈ [[0, 1], [1, 0]],
    lands (busRead 1 2 { ((ready 8 ⟨0, 0, 0, 0⟩ []).complete .invalidArgument) with
      plat := { plain 8 with window := some ⟨[0, 1, 3, 4, 5, 6, 7, 8, 9, 10, 11, 12], order, [0]⟩ } })
      (fun u => u.reply == some (.bytes (if order = [0, 1] then [0x06, 0x02] else [0x02, 0x06]))) = true := by decide

/-! ### The hypotheses of the obligations are met -/

theorem lands_with {x : Out} (p : State → Prop) [DecidablePred p] (h : lands x (fun u => decide (p u)) = true) :
    ∃ u, x = .next u ∧ p u := by
  obtain ⟨u, h1, h2⟩ := lands_next h
  exact ⟨u, h1, of_decide_eq_true h2⟩

theorem faults_with {x : Out} {f : Fault} (h : faults x f = true) : x = .fault f := by
  cases x with
  | next u => cases h
  | fault g => rw [of_decide_eq_true (p := g = f) h]
  | refused r => cases h

theorem admitted_of {w : Nat} {t : Transfer} {bs : List Byte} (h : regionFault (ready w t bs) t = none) : Admitted (ready w t bs) t :=
  regionFault_eq_none.1 h

theorem encodable_of {w : Nat} {t : Transfer} {bs : List Byte} (h : regionFault (ready w t bs) t = none)
    (hc : encodeCapacity t.n < 2 ^ w) (hd : encodeCapacity t.n ≤ t.d) : Encodable (ready w t bs) t :=
  ⟨ready_ready w t bs, admitted_of h, hc, hd⟩

theorem decodable_of {w : Nat} {t : Transfer} {bs : List Byte} (h : regionFault (ready w t bs) t = none) (hn : 1 ≤ t.n)
    (hd : t.n ≤ t.d + 1) : Decodable (ready w t bs) t :=
  ⟨ready_ready w t bs, admitted_of h, hn, hd⟩

theorem plain_backed {w a : Nat} (h : a < 2 ^ w) : readableAt (plain w) a = true ∧ writableAt (plain w) a = true := by
  simp [readableAt, writableAt, entryAt, plain, mapCovers, h]

/-- On a platform of ordinary memory, regions that fit and are apart are admitted. -/
theorem plain_admitted {w : Nat} {t : Transfer} {bs : List Byte} (h1 : t.src + t.n ≤ 2 ^ w) (h2 : t.dst + t.d ≤ 2 ^ w)
    (h3 : t.src + t.n ≤ t.dst) : Admitted (ready w t bs) t := by
  refine ⟨h1, h2, .inr (.inr (.inl h3)), fun i hi => (plain_backed ?_).1, fun i hi => (plain_backed ?_).2, ?_, ?_⟩
  · omega
  · omega
  · simp [ready, State.powerOn, State.others]
  · simp [ready, State.powerOn, State.others]

theorem sourceBytes_ready {w : Nat} {t : Transfer} {bs : List Byte} (h : bs.length = t.n) : sourceBytes (ready w t bs) t = bs := by
  unfold sourceBytes
  rw [← h]
  exact Memory.readBytes_writeBytes _ _ _

theorem fits_of {w : Nat} {t : Transfer} (h : t.src < 2 ^ w ∧ t.n < 2 ^ w ∧ t.dst < 2 ^ w ∧ t.d < 2 ^ w) :
    Operands.Fits w ⟨some t.src, some t.n, some t.dst, some t.d⟩ := by
  obtain ⟨h1, h2, h3, h4⟩ := h
  constructor <;> rintro v ⟨⟩ <;> assumption

theorem one_core_inv {s : State} (hw : 1 ≤ s.plat.width) (hb : s.before = []) (ha : s.after = []) (hm : s.mem.wf = true)
    (hf : s.mem.all (fun c => decide (c.1 < 2 ^ s.plat.width)) = true) (hc : s.core.Ok s.plat.width) : s.Inv := by
  refine ⟨hw, hm, by simpa using hf, ?_⟩
  intro c h
  simp only [State.allCores, hb, ha, List.nil_append, List.mem_singleton] at h
  exact h ▸ hc

theorem ready_inv {w : Nat} {t : Transfer} {bs : List Byte} (hw : 1 ≤ w)
    (ht : t.src < 2 ^ w ∧ t.n < 2 ^ w ∧ t.dst < 2 ^ w ∧ t.d < 2 ^ w) (hm : (ready w t bs).mem.wf = true)
    (hf : (ready w t bs).mem.all (fun c => decide (c.1 < 2 ^ w)) = true) : (ready w t bs).Inv := by
  refine one_core_inv hw rfl rfl hm hf ?_
  constructor
  case operandsFit => exact fits_of ht
  all_goals simp [ready, State.powerOn, CodecCore.reset, CodecCore.runningRegions, CodecCore.runningTransfer]

/-- The operation in flight of `flying`. -/
def flight (t : Transfer) (cmd : Byte) (k : Work) : InFlight := ⟨cmd, ⟨some t.src, some t.n, some t.dst, some t.d⟩, k⟩

/-- What the latched operands of a legal command satisfy, by the command. -/
theorem latchedOk_of {w : Nat} {cmd : Byte} {o : Operands} {i : Instr} (hc : decodeCmd cmd = some i)
    (h : match i with
      | .enccap => ∃ n, o.srcLen = some n ∧ encodeCapacity n < 2 ^ w
      | .deccap => ∃ n, o.srcLen = some n
      | .enc => ∃ t, o.transfer = some t ∧ encodeCapacity t.n < 2 ^ w
      | .encu => ∃ t, o.transfer = some t ∧ encodeCapacity t.n < 2 ^ w ∧ encodeCapacity t.n ≤ t.d
      | .dec => ∃ t, o.transfer = some t
      | .decu => ∃ t, o.transfer = some t ∧ t.n ≤ t.d + 1) : latchedOk w cmd o := by
  unfold latchedOk
  rw [hc]
  cases i <;> exact h

theorem flying_inv {w : Nat} {t : Transfer} {bs : List Byte} {cmd : Byte} {k : Work} (hw : 1 ≤ w)
    (ht : t.src < 2 ^ w ∧ t.n < 2 ^ w ∧ t.dst < 2 ^ w ∧ t.d < 2 ^ w) (hs : t.src + t.n ≤ 2 ^ w ∧ t.dst + t.d ≤ 2 ^ w)
    (ho : overlaps t.src t.n t.dst t.d = false) (hm : (flying w t bs cmd k).mem.wf = true)
    (hf : (flying w t bs cmd k).mem.all (fun c => decide (c.1 < 2 ^ w)) = true) (hk : (flight t cmd k).Ok w) :
    (flying w t bs cmd k).Inv := by
  have hr : ∀ t', (flying w t bs cmd k).core.runningTransfer = some t' → t' = t := by
    intro t' h
    simp only [flying, ready, CodecCore.runningTransfer] at h
    split at h
    · cases h
    · split at h <;> cases h
      rfl
  refine one_core_inv hw rfl rfl hm hf ?_
  constructor
  case operandsFit => exact fits_of ht
  case latchedFit => rintro fl ⟨⟩; exact fits_of ht
  case working => rintro fl ⟨⟩; exact hk
  case regionsFit =>
    intro r h
    unfold CodecCore.runningRegions at h
    split at h
    · cases h
    · rename_i t' ht'
      cases hr t' ht'
      simp only [List.mem_cons, List.not_mem_nil, or_false] at h
      rcases h with rfl | rfl
      · exact hs.1
      · exact hs.2
  case regionsApart => intro t' h; rw [hr t' h]; exact ho
  all_goals simp [flying, CodecCore.start, Status.started]

/-! Command words. -/

theorem witness_EncodedCommandsDecode : decodeCmd 0x06#8 = some .dec := by decide

theorem witness_IllegalWordsComplete : ∀ c ∈ [0x00#8, 0x04#8, 0x08#8, 0xFF#8],
    (c = 0x00#8 ∨ c = 0x04#8 ∨ 0x08 ≤ c.toNat) ∧ State.reset.core.status.busy = false := by decide

theorem witness_StepRunsTheNextEvent :
    (State.reset.withFetchWord 8 0x02).host = .write 0x0#4 8 0x02#8 :: [] ∧ decodeCmd 0x02#8 = some .enc ∧
    (State.reset.withFetchWord 8 0x00).host = .write 0x0#4 8 0x00#8 :: [] ∧ decodeCmd 0x00#8 = none ∧
    decodeTableWord 8 0x07 = some .decu := by decide

/-! Sizing. -/

/-- W = 8: n = 253 is the last length whose capacity fits, n = 254 the first that overflows; n = 0. -/
theorem witness_EnccapComputesTheCapacity : ∀ x ∈ [(0, 0), (253, 1), (254, 1)],
    (ready 8 ⟨0, x.1, 0, 0⟩ []).core.status.busy = false ∧ (ready 8 ⟨0, x.1, 0, 0⟩ []).core.operands.srcLen = some x.1 ∧
    x.1 ≤ 254 * x.2 ∧ 254 * x.2 < x.1 + 254 ∧ (x.1 + x.2 + 1 < 2 ^ 8 ∨ 2 ^ 8 ≤ x.1 + x.2 + 1) := by decide

theorem witness_EnccapComputesTheCapacity_each : 253 + 1 + 1 < 2 ^ 8 ∧ 2 ^ 8 ≤ 254 + 1 + 1 := by decide

theorem witness_DeccapComputesTheCapacity : ∀ n ∈ [0, 1, 255],
    (ready 8 ⟨0, n, 0, 0⟩ []).core.status.busy = false ∧ (ready 8 ⟨0, n, 0, 0⟩ []).core.operands.srcLen = some n ∧
    (1 ≤ n ∨ n = 0) := by decide

/-- Two states that differ in the other operands, in memory and in what the last operation left. -/
theorem witness_SizingReadsOnlyTheLength :
    let s := ready 8 ⟨0, 5, 0, 0⟩ []
    let s' := (ready 8 ⟨1, 5, 9, 9⟩ [7]).complete .invalidArgument
    s.core.status.busy = false ∧ s'.core.status.busy = false ∧ s.core.operands.srcLen = some 5 ∧ s'.core.operands.srcLen = some 5 ∧
    s'.plat.width = s.plat.width ∧ (∃ u, exec .enccap s = .next u ∧ True) ∧
    exec .enccap (ready 8 ⟨0, 254, 0, 0⟩ []) = .fault .capacityOverflow :=
  ⟨rfl, rfl, rfl, rfl, rfl, lands_with (fun _ => True) (by decide), faults_with (by decide)⟩

/-- W = 8: the payload of 254 bytes at 0 and two bytes of destination above it. -/
theorem witness_CapacityOverflowFaults :
    Ready (ready 8 ⟨0, 254, 254, 2⟩ []) ⟨0, 254, 254, 2⟩ ∧ Admitted (ready 8 ⟨0, 254, 254, 2⟩ []) ⟨0, 254, 254, 2⟩ ∧
    2 ^ 8 ≤ encodeCapacity 254 ∧ decodeCapacity 255 = some 254 ∧ 255 < 2 ^ 8 :=
  ⟨ready_ready _ _ _, plain_admitted (by decide) (by decide) (by decide), by decide, by decide, by decide⟩

/-! The encoder. -/

theorem witness_EncodeWritesTheFrame : Encodable sEnc tEnc ∧ Encodable (ready 16 ⟨0, 0, 0, 1⟩ []) ⟨0, 0, 0, 1⟩ :=
  ⟨encodable_of (by decide) (by decide) (by decide), encodable_of (by decide) (by decide) (by decide)⟩

/-- Two payload bytes, the first non-zero, the second 0x00. -/
def tFly : Transfer := ⟨0x10, 2, 0x80, 4⟩
def sFly (e : EncRegs) : State := flying 16 tFly [0x11, 0x00] 0x02 (.encoding e)

theorem sFly_inv {e : EncRegs} (he : e.Ok tFly) : (sFly e).Inv :=
  flying_inv (by decide) (by decide) (by decide) (by decide) (by decide : Memory.wf (Memory.writeBytes [] 0x10 [0x11, 0x00]) = true)
    (by decide : (Memory.writeBytes [] 0x10 [0x11, 0x00]).all (fun c => decide (c.1 < 2 ^ 16)) = true)
    ⟨latchedOk_of (by decide : decodeCmd 0x02#8 = some .enc) ⟨tFly, rfl, by decide⟩,
      tFly, rfl, .inl (by decide : decodeCmd 0x02#8 = some .enc), by decide, by decide, he⟩

/-- A payload of 254 bytes at the start of its 254th byte and after it. -/
def tLong : Transfer := ⟨0, 254, 0x200, 256⟩
def sLong (e : EncRegs) : State := flying 16 tLong [0x11] 0x03 (.encoding e)

theorem sLong_inv {e : EncRegs} (he : e.Ok tLong) : (sLong e).Inv :=
  flying_inv (by decide) (by decide) (by decide) (by decide) (by decide : Memory.wf (Memory.writeBytes [] 0 [0x11]) = true)
    (by decide : (Memory.writeBytes [] 0 [0x11]).all (fun c => decide (c.1 < 2 ^ 16)) = true)
    ⟨latchedOk_of (by decide : decodeCmd 0x03#8 = some .encu) ⟨tLong, rfl, by decide, by decide⟩,
      tLong, rfl, .inr (by decide : decodeCmd 0x03#8 = some .encu), by decide, by decide, he⟩

theorem witness_EncoderSteps :
    ((sFly encInit).core.op = some (flight tFly 0x02 (.encoding encInit)) ∧
      (flight tFly 0x02 (.encoding encInit)).latched.transfer = some tFly ∧
      encInit.i < tFly.n ∧ (sFly encInit).mem.read (tFly.src + encInit.i) ≠ 0x00#8 ∧ (sFly encInit).Inv) ∧
    ((sFly ⟨1, 2, 0, 2, false⟩).core.op = some (flight tFly 0x02 (.encoding ⟨1, 2, 0, 2, false⟩)) ∧
      (1 < tFly.n ∧ (sFly ⟨1, 2, 0, 2, false⟩).mem.read (tFly.src + 1) = 0x00#8) ∧ (sFly ⟨1, 2, 0, 2, false⟩).Inv) ∧
    ((sLong ⟨253, 254, 0, 254, false⟩).core.op = some (flight tLong 0x03 (.encoding ⟨253, 254, 0, 254, false⟩)) ∧
      253 < tLong.n ∧ 254 + 1 = 255 ∧ (sLong ⟨253, 254, 0, 254, false⟩).Inv) :=
  ⟨⟨rfl, rfl, by decide, by decide, sFly_inv (encInit_ok _)⟩,
    ⟨rfl, by decide, sFly_inv (by constructor <;> decide)⟩,
    ⟨rfl, by decide, rfl, sLong_inv (by constructor <;> decide)⟩⟩

/-- E_L > 1; the last byte was 0x00; and the pass ended on a full chunk. -/
theorem witness_EncoderFinalizes :
    ((sFly ⟨2, 3, 1, 2, false⟩).Inv ∧ (sFly ⟨2, 3, 1, 2, false⟩).core.op = some (flight tFly 0x02 (.encoding ⟨2, 3, 1, 2, false⟩)) ∧
      (flight tFly 0x02 (.encoding ⟨2, 3, 1, 2, false⟩)).latched.transfer = some tFly ∧ 2 = tFly.n) ∧
    ((sFly ⟨2, 3, 2, 1, true⟩).Inv ∧ (sFly ⟨2, 3, 2, 1, true⟩).core.op = some (flight tFly 0x02 (.encoding ⟨2, 3, 2, 1, true⟩))) ∧
    ((sLong ⟨254, 256, 255, 1, false⟩).Inv ∧
      (sLong ⟨254, 256, 255, 1, false⟩).core.op = some (flight tLong 0x03 (.encoding ⟨254, 256, 255, 1, false⟩)) ∧ 254 = tLong.n) :=
  ⟨⟨sFly_inv (by constructor <;> decide), rfl, rfl, rfl⟩, ⟨sFly_inv (by constructor <;> decide), rfl⟩,
    ⟨sLong_inv (by constructor <;> decide), rfl, rfl⟩⟩

theorem witness_UncheckedEncodeIsTheCheckedOne :
    (∃ u, exec .encu sEnc = .next u ∧ True) ∧ ∃ u, exec .enc sEnc = .next u ∧ u.core.status.code = some 0x00#8 :=
  ⟨lands_with (fun _ => True) (by decide), lands_with _ (by decide)⟩

theorem witness_FramesHoldNoSentinel :
    sEnc.core.operands.transfer = some tEnc ∧ ∃ u, exec .enc sEnc = .next u ∧ u.core.result = some 8 :=
  ⟨rfl, lands_with _ (by decide)⟩

/-- n = 0; n ≥ 1 with and without a 0x00; and a destination of exactly the frame's length. -/
theorem witness_LargestFrame :
    (∃ u, exec .encu (ready 16 ⟨0, 0, 0, 1⟩ []) = .next u ∧ u.core.result = some 1) ∧
    (∃ u, exec .enc (ready 16 ⟨0, 2, 8, 4⟩ [5, 6]) = .next u ∧ u.core.result = some 3) ∧
    0x00#8 ∉ sourceBytes (ready 16 ⟨0, 2, 8, 4⟩ [5, 6]) ⟨0, 2, 8, 4⟩ ∧
    (Ready (ready 16 ⟨0, 2, 8, 3⟩ [5, 6]) ⟨0, 2, 8, 3⟩ ∧ Admitted (ready 16 ⟨0, 2, 8, 3⟩ [5, 6]) ⟨0, 2, 8, 3⟩ ∧
      encodeCapacity 2 < 2 ^ 16 ∧ 3 = (frameOf (sourceBytes (ready 16 ⟨0, 2, 8, 3⟩ [5, 6]) ⟨0, 2, 8, 3⟩)).length) :=
  ⟨lands_with _ (by decide), lands_with _ (by decide), by decide, ready_ready _ _ _, admitted_of (by decide), by decide, by decide⟩

theorem witness_CapacitySuffices :
    Encodable sEnc tEnc ∧ ∃ v, issueThenSteps .enc 3 sEnc = .next v ∧ v.core.status.busy = true :=
  ⟨encodable_of (by decide) (by decide) (by decide), lands_with _ (by decide)⟩

/-! Capacity checks. -/

/-- One byte too few for ENC and for DEC; the completions with the code. -/
theorem witness_CheckedCommandsReportSmallBuffers :
    (Ready (ready 16 ⟨0x10, 7, 0x80, 8⟩ []) ⟨0x10, 7, 0x80, 8⟩ ∧ Admitted (ready 16 ⟨0x10, 7, 0x80, 8⟩ []) ⟨0x10, 7, 0x80, 8⟩ ∧
      encodeCapacity 7 < 2 ^ 16 ∧ 8 < encodeCapacity 7) ∧
    (Ready (ready 16 ⟨0, 2, 8, 0⟩ []) ⟨0, 2, 8, 0⟩ ∧ Admitted (ready 16 ⟨0, 2, 8, 0⟩ []) ⟨0, 2, 8, 0⟩ ∧ 1 < 2 ∧ 0 < 2 - 1) ∧
    ∃ u, writeCmd 0x06#8 (ready 16 ⟨0, 2, 8, 0⟩ []) = .next u ∧ u.core.status.code = some 0x02#8 :=
  ⟨⟨ready_ready _ _ _, admitted_of (by decide), by decide, by decide⟩,
    ⟨ready_ready _ _ _, admitted_of (by decide), by decide, by decide⟩, lands_with _ (by decide)⟩

theorem witness_UncheckedPreconditionFaults :
    (Ready (ready 16 ⟨0, 0, 0, 0⟩ []) ⟨0, 0, 0, 0⟩ ∧ Admitted (ready 16 ⟨0, 0, 0, 0⟩ []) ⟨0, 0, 0, 0⟩ ∧ 0 < encodeCapacity 0) ∧
    (Ready (ready 16 ⟨0, 2, 8, 0⟩ []) ⟨0, 2, 8, 0⟩ ∧ Admitted (ready 16 ⟨0, 2, 8, 0⟩ []) ⟨0, 2, 8, 0⟩ ∧ 1 < 2 ∧ 0 < 2 - 1) :=
  ⟨⟨ready_ready _ _ _, admitted_of (by decide), by decide⟩, ⟨ready_ready _ _ _, admitted_of (by decide), by decide, by decide⟩⟩

/-! The decoder. -/

/-- The chunks of R105's frame. -/
def cDec : List Chunk := [⟨1, []⟩, ⟨2, [1]⟩, ⟨2, [2]⟩, ⟨1, []⟩, ⟨2, [3]⟩]

theorem sDec_decodable : Decodable sDec tDec := decodable_of (by decide) (by decide) (by decide)

theorem witness_DecodeAcceptsExactlyTheWellFormed :
    Decodable sDec tDec ∧ (cDec ≠ [] ∧ (∀ c ∈ cDec, c.wf = true) ∧ chunkBytes cDec = sourceBytes sDec tDec) ∧
    (∃ u, exec .decu sDec = .next u ∧ u.core.status.code = some 0x00#8) ∧
    Decodable (ready 16 ⟨0, 1, 0, 0⟩ [1]) ⟨0, 1, 0, 0⟩ :=
  ⟨sDec_decodable, by decide, lands_with _ (by decide), decodable_of (by decide) (by decide) (by decide)⟩

/-- [0x02, 0x11, 0x00]: one chunk, then a zero marker; [0x00] with no destination. -/
theorem witness_ZeroMarkerIsReported :
    (Decodable (ready 16 ⟨0x10, 3, 0x80, 2⟩ [2, 0x11, 0]) ⟨0x10, 3, 0x80, 2⟩ ∧ (∀ c ∈ [Chunk.mk 2 [0x11]], c.wf = true) ∧
      sourceBytes (ready 16 ⟨0x10, 3, 0x80, 2⟩ [2, 0x11, 0]) ⟨0x10, 3, 0x80, 2⟩ = chunkBytes [⟨2, [0x11]⟩] ++ 0x00#8 :: []) ∧
    (Decodable (ready 16 ⟨0x10, 1, 0x80, 0⟩ [0]) ⟨0x10, 1, 0x80, 0⟩ ∧
      sourceBytes (ready 16 ⟨0x10, 1, 0x80, 0⟩ [0]) ⟨0x10, 1, 0x80, 0⟩ = chunkBytes [] ++ 0x00#8 :: []) :=
  ⟨⟨decodable_of (by decide) (by decide) (by decide), by decide, by decide⟩,
    ⟨decodable_of (by decide) (by decide) (by decide), by decide⟩⟩

/-- [0x02, 0x11, 0x03, 0x22] (R111), and the smallest overflow [0x02]. -/
theorem witness_ChunkOverflowIsReported :
    (Decodable (ready 16 ⟨0x10, 4, 0x80, 3⟩ [2, 0x11, 3, 0x22]) ⟨0x10, 4, 0x80, 3⟩ ∧ (∀ c ∈ [Chunk.mk 2 [0x11]], c.wf = true) ∧
      (0x03#8 ≠ 0x00#8 ∧ [0x22#8].length < (0x03#8).toNat - 1) ∧
      sourceBytes (ready 16 ⟨0x10, 4, 0x80, 3⟩ [2, 0x11, 3, 0x22]) ⟨0x10, 4, 0x80, 3⟩ = chunkBytes [⟨2, [0x11]⟩] ++ 0x03#8 :: [0x22]) ∧
    (Decodable (ready 16 ⟨0x10, 1, 0x80, 0⟩ [2]) ⟨0x10, 1, 0x80, 0⟩ ∧ 0 < (0x02#8).toNat - 1 ∧
      sourceBytes (ready 16 ⟨0x10, 1, 0x80, 0⟩ [2]) ⟨0x10, 1, 0x80, 0⟩ = chunkBytes [] ++ 0x02#8 :: []) :=
  ⟨⟨decodable_of (by decide) (by decide) (by decide), by decide, by decide, by decide⟩,
    ⟨decodable_of (by decide) (by decide) (by decide), by decide, by decide⟩⟩

/-- [0x03, 0x01, 0x00] and [0x03, 0x00, 0x00] (R111). -/
theorem witness_ZeroBinaryIsReported :
    (Decodable (ready 16 ⟨0x10, 3, 0x80, 2⟩ [3, 1, 0]) ⟨0x10, 3, 0x80, 2⟩ ∧
      (0x00#8 ∉ [0x01#8] ∧ [0x01#8].length < (0x03#8).toNat - 1 ∧ (0x03#8).toNat - 1 ≤ [0x01#8].length + 1 + 0) ∧
      sourceBytes (ready 16 ⟨0x10, 3, 0x80, 2⟩ [3, 1, 0]) ⟨0x10, 3, 0x80, 2⟩ = chunkBytes [] ++ 0x03#8 :: ([0x01] ++ 0x00#8 :: [])) ∧
    (Decodable (ready 16 ⟨0x10, 3, 0x80, 2⟩ [3, 0, 0]) ⟨0x10, 3, 0x80, 2⟩ ∧
      sourceBytes (ready 16 ⟨0x10, 3, 0x80, 2⟩ [3, 0, 0]) ⟨0x10, 3, 0x80, 2⟩ = chunkBytes [] ++ 0x03#8 :: ([] ++ 0x00#8 :: [0x00])) :=
  ⟨⟨decodable_of (by decide) (by decide) (by decide), by decide, by decide⟩,
    ⟨decodable_of (by decide) (by decide) (by decide), by decide⟩⟩

theorem witness_EmptyInputIsReported :
    Ready (ready 16 ⟨5, 0, 5, 0⟩ []) ⟨5, 0, 5, 0⟩ ∧ Admitted (ready 16 ⟨5, 0, 5, 0⟩ []) ⟨5, 0, 5, 0⟩ ∧
    ∃ u, writeCmd 0x07#8 (ready 16 ⟨5, 0, 5, 0⟩ []) = .next u ∧ u.core.status.code = some 0x01#8 :=
  ⟨ready_ready _ _ _, admitted_of (by decide), lands_with _ (by decide)⟩

/-- Each case of the three steps: (working registers, the source byte at D_I), over a frame of four bytes. -/
def tWalk : Transfer := ⟨0x10, 4, 0x80, 3⟩
def sWalk (d : DecRegs) : State := flying 16 tWalk [2, 5, 0, 0xFF] 0x06 (.decoding d)

theorem witness_DecoderSteps :
    (∀ d : DecRegs, (sWalk d).core.op = some (flight tWalk 0x06 (.decoding d)) ∧
      (flight tWalk 0x06 (.decoding d)).work = .decoding d ∧ (flight tWalk 0x06 (.decoding d)).latched.transfer = some tWalk) ∧
    (∀ x ∈ [(DecRegs.mk .readMarker 2 2 0 2 0, 0x00#8), (.mk .readMarker 3 3 0 2 0, 0xFF#8), (.mk .readMarker 0 0 0 2 0, 0x02#8),
        (.mk .copyChunk 2 1 0 2 0, 0x00#8), (.mk .copyChunk 2 1 0 3 1, 0x00#8), (.mk .copyChunk 1 0 0 2 1, 0x05#8),
        (.mk .maybeInsertSentinel 2 1 0 2 0, 0x00#8), (.mk .maybeInsertSentinel 2 1 0 0xFF 0, 0x00#8)],
      (sWalk x.1).mem.read (tWalk.src + x.1.i) = x.2) ∧
    tWalk.n < (3 + 1) + ((0xFF#8).toNat - 1) ∧ (0 + 1) + ((0x02#8).toNat - 1) ≤ tWalk.n ∧ 2 ≠ tWalk.n ∧
    (sWalk (.mk .maybeInsertSentinel 4 2 0 2 0)).mem.read (tWalk.src + tWalk.n) = 0x00#8 :=
  ⟨fun _ => ⟨rfl, rfl, rfl⟩, by decide, by decide, by decide, by decide, by decide⟩

theorem witness_UncheckedDecodeIsTheCheckedOne :
    (∃ u, exec .decu sDec = .next u ∧ True) ∧ ∃ u, exec .dec sDec = .next u ∧ u.core.status.code ≠ some 0x02#8 :=
  ⟨lands_with (fun _ => True) (by decide), lands_with _ (by decide)⟩

theorem witness_DecodeStaysBelowTheCapacity :
    (sDec.core.operands.transfer = some tDec ∧ ∃ u, exec .dec sDec = .next u ∧ u.core.result = some 7) ∧
    (∃ v, issueThenSteps .dec 5 sDec = .next v ∧ v.core.status.busy = true) ∧
    (Decodable (ready 16 ⟨0, 3, 8, 2⟩ [1, 1, 1]) ⟨0, 3, 8, 2⟩ ∧
      sourceBytes (ready 16 ⟨0, 3, 8, 2⟩ [1, 1, 1]) ⟨0, 3, 8, 2⟩ = List.replicate 3 0x01#8) :=
  ⟨⟨rfl, lands_with _ (by decide)⟩, lands_with _ (by decide), decodable_of (by decide) (by decide) (by decide), by decide⟩

/-! Encoder and decoder together. -/

theorem witness_RoundTrip : sEnc.core.operands.transfer = some tEnc ∧ Decodable sDec tDec ∧
    ∃ u, exec .enc sEnc = .next u ∧ u.core.result = some 8 ∧ sourceBytes sDec tDec = destBytes u tEnc 8 :=
  ⟨rfl, sDec_decodable, lands_with _ (by decide)⟩

/-- A canonical frame. -/
theorem witness_ReencodingGivesTheFrame :
    sDec.core.operands.transfer = some tDec ∧ (∀ c ∈ cDec, c.wf = true) ∧ chunkBytes cDec = sourceBytes sDec tDec ∧
    Encodable sEnc tEnc ∧ ∃ u, exec .dec sDec = .next u ∧ u.core.result = some 7 ∧ sourceBytes sEnc tEnc = destBytes u tDec 7 :=
  ⟨rfl, by decide, by decide, encodable_of (by decide) (by decide) (by decide), lands_with _ (by decide)⟩

/-- `n` bytes 0x07. -/
def sevens (n : Nat) : List Byte := List.replicate n 0x07

theorem sevens_length (n : Nat) : (sevens n).length = n := List.length_replicate

/-- The exceptional frame of R109: a full chunk and then the chunk [0x01]. -/
def cFull : Chunk := ⟨0xFF, sevens 254⟩
def tFull : Transfer := ⟨0, 256, 0x200, 255⟩
def sFull : State := ready 16 tFull (chunkBytes ([cFull] ++ [⟨0x01, []⟩]))
def tBack : Transfer := ⟨0, 254, 0x200, 256⟩
def sBack : State := ready 16 tBack (sevens 254)

theorem cFull_wf : ∀ c ∈ [cFull] ++ [Chunk.mk 0x01 []], c.wf = true := by
  intro c h
  simp only [List.cons_append, List.nil_append, List.mem_cons, List.not_mem_nil, or_false] at h
  rcases h with rfl | rfl
  · refine (Chunk.wf_iff _).2 ⟨by decide, sevens_length 254, ?_⟩
    intro b hb
    rw [List.eq_of_mem_replicate hb]; decide
  · decide

theorem witness_ReencodingGivesTheFrame_exception :
    sFull.core.operands.transfer = some tFull ∧ (∀ c ∈ [cFull, ⟨0x01, []⟩], c.wf = true) ∧
    chunkBytes [cFull, ⟨0x01, []⟩] = sourceBytes sFull tFull ∧ Encodable sBack tBack ∧
    (∃ before c, [cFull, ⟨0x01, []⟩] = before ++ [c, { marker := 0x01#8, data := [] }] ∧ c.marker = 0xFF#8) ∧
    ∃ u, exec .dec sFull = .next u ∧ u.core.result = some 254 ∧ sourceBytes sBack tBack = destBytes u tFull 254 := by
  have hsrc : sourceBytes sFull tFull = chunkBytes ([cFull] ++ [⟨0x01, []⟩]) := sourceBytes_ready (by
    rw [chunkBytes_append]; simp [cFull, tFull, sevens_length])
  have ha : Admitted sFull tFull := plain_admitted (by decide) (by decide) (by decide)
  have he := decodeCore_good ha.apart (by decide) [cFull] ⟨0x01, []⟩ cFull_wf hsrc
  have hp : payloadOf ([cFull] ++ [⟨0x01, []⟩]) = sevens 254 := by
    rw [payloadOf_append_last]
    simp [payloadBefore, Chunk.separator, cFull]
  rw [hp, sevens_length] at he
  refine ⟨rfl, cFull_wf, hsrc.symm, ⟨ready_ready _ _ _, plain_admitted (by decide) (by decide) (by decide), by decide, by decide⟩,
    ⟨[], cFull, rfl, rfl⟩, _, (ExecNext.decode .dec (.inl rfl) tFull _ rfl ha (by decide) (by decide) _ _ he).exec rfl, by simp [OpOutcome.result], ?_⟩
  rw [show sourceBytes sBack tBack = sevens 254 from sourceBytes_ready (sevens_length 254), destBytes,
    Memory.readBytes_congr (m := sFull.mem.writeBytes tFull.dst (sevens 254))
      fun k hk => read_settle_result _ _ _ _ (by omega)]
  have := Memory.readBytes_writeBytes sFull.mem tFull.dst (sevens 254)
  rw [sevens_length] at this
  exact this.symm

theorem witness_DelimiterIsAZeroMarker :
    (sDec.core.operands.transfer = some tDec ∧ ∃ u, exec .dec sDec = .next u ∧ u.core.status.code = some 0x00#8) ∧
    Decodable (ready 16 ⟨0x10, 9, 0x80, 8⟩ [1, 2, 1, 2, 2, 1, 2, 3, 0]) ⟨0x10, 9, 0x80, 8⟩ ∧
    sourceBytes (ready 16 ⟨0x10, 9, 0x80, 8⟩ [1, 2, 1, 2, 2, 1, 2, 3, 0]) ⟨0x10, 9, 0x80, 8⟩ = sourceBytes sDec tDec ++ [0x00#8] :=
  ⟨⟨rfl, lands_with _ (by decide)⟩, decodable_of (by decide) (by decide) (by decide), by decide⟩

/-! Registers and memory after an operation. -/

/-- The other events: each is the next of some state's schedule, so its clause speaks of a step. -/
theorem witness_StepRunsTheNextEvent_events :
    ∀ e ∈ [HostEvent.read 0x1#4 16, .write 0x2#4 16 5#16, .issue 0x02#8, .busRead 0 1, .busWrite 0 [0x02#8], .tick, .memRead 0x10,
      .memWrite 0x10 0x07#8, .select 0, .reset, .poll], ({ sEnc with host := [e] } : State).host = e :: [] := by
  simp

/-- A poll with DONE = 1 and with DONE = 0; nothing scheduled, with the core busy, with all idle, and with another core busy. -/
theorem witness_StepRunsTheNextEvent_idle :
    (sEnc.complete .emptyInput).core.status.done = true ∧ (sFly encInit).core.status.done = false ∧
    ((sFly encInit).host = [] ∧ (sFly encInit).core.status.busy = true) ∧ (sEnc.host = [] ∧ ∀ c ∈ sEnc.allCores, c.status.busy = false) ∧
    (({ sEnc with after := [(sFly encInit).core] } : State).core.status.busy = false ∧
      ({ sEnc with after := [(sFly encInit).core] } : State).allCores[1]? = some (sFly encInit).core ∧
      ∀ d ∈ ({ sEnc with after := [(sFly encInit).core] } : State).allCores.take 1, d.status.busy = false) := by
  refine ⟨rfl, rfl, ⟨rfl, rfl⟩, ⟨rfl, ?_⟩, rfl, rfl, ?_⟩ <;> intro c h <;> cases List.mem_singleton.1 h <;> rfl

/-- Each result register holding a value, the two of R115 different ones. -/
theorem witness_ResultRegistersOfEachCode_reads :
    (sEnc.complete (.ok 8)).core.result = some 8 ∧ (sEnc.complete (.zeroMarker 3)).core.errAt = some 3 ∧
    (sEnc.complete (.chunkOverflow 3 0x05#8 7)).core.errMarker = some 0x05#8 ∧ (sEnc.complete (.chunkOverflow 3 0x05#8 7)).core.errLen = some 7 ∧
    (sEnc.complete (.bufferTooSmall 8 9)).core.errHave = some 8 ∧ (sEnc.complete (.bufferTooSmall 8 9)).core.errWant = some 9 :=
  ⟨rfl, rfl, rfl, rfl, rfl, rfl⟩

/-- R115, R26: ENC with 8 bytes of destination where 9 are needed, and a host's reads of ERR_HAVE and ERR_WANT, each a step. -/
theorem test_read_have_want :
    let s := ({ ready 16 ⟨0x10, 7, 0x80, 8⟩ [] with host := [.write 0x0#4 8 0x02#8, .read 0xA#4 16] } : State)
    lands (Host.Core.run Sys2Proof.core 2 s) (fun u : State => u.reply == some (.value 8)) = true ∧
    lands (Host.Core.run Sys2Proof.core 2 { s with host := [.write 0x0#4 8 0x02#8, .read 0xB#4 16] })
      (fun u : State => u.reply == some (.value 9)) = true := by decide

/-- Every status code is reached by some word: 0x00 to 0x07 in turn. -/
theorem witness_ResultRegistersOfEachCode :
    (∃ u, writeCmd 0x02#8 sEnc = .next u ∧ u.core.status.code = some 0x00#8) ∧
    (∃ u, writeCmd 0x06#8 (ready 16 ⟨0, 0, 0, 0⟩ []) = .next u ∧ u.core.status.code = some 0x01#8) ∧
    (∃ u, writeCmd 0x02#8 (ready 16 ⟨0, 0, 0, 0⟩ []) = .next u ∧ u.core.status.code = some 0x02#8) ∧
    (∃ u, writeCmd 0x06#8 (ready 16 ⟨0, 1, 8, 0⟩ [0]) = .next u ∧ u.core.status.code = some 0x03#8) ∧
    (∃ u, writeCmd 0x07#8 (ready 16 ⟨0, 3, 8, 2⟩ [3, 1, 0]) = .next u ∧ u.core.status.code = some 0x04#8) ∧
    (∃ u, writeCmd 0x07#8 (ready 16 ⟨0, 1, 8, 0⟩ [2]) = .next u ∧ u.core.status.code = some 0x05#8) ∧
    (∃ u, writeCmd 0x05#8 (ready 16 ⟨0, 0, 0, 0⟩ []) = .next u ∧ u.core.status.code = some 0x06#8) ∧
    (∃ u, writeCmd 0x00#8 State.reset = .next u ∧ u.core.status.code = some 0x07#8) :=
  ⟨lands_with _ (by decide), lands_with _ (by decide), lands_with _ (by decide), lands_with _ (by decide), lands_with _ (by decide),
    lands_with _ (by decide), lands_with _ (by decide), lands_with _ (by decide)⟩

theorem witness_StatusCodesByCommand : ∃ u, writeCmd 0x03#8 sEnc = .next u ∧ True := lands_with (fun _ => True) (by decide)

theorem witness_CommandFrame :
    (∃ u, writeCmd 0x01#8 (ready 16 ⟨0, 5, 0, 0⟩ []) = .next u ∧ True) ∧ Instr.enccap.isTransform = false ∧
    (∃ u, writeCmd 0x02#8 sEnc = .next u ∧ True) ∧ Instr.enc.isTransform = true ∧
    (∃ u, writeCmd 0x06#8 (ready 16 ⟨0, 0, 0, 0⟩ []) = .next u ∧ u.core.status.code = some 0x01#8) ∧
    ∃ u, writeCmd 0x02#8 (ready 16 ⟨0, 0, 0, 0⟩ []) = .next u ∧ u.core.status.code = some 0x02#8 :=
  ⟨lands_with (fun _ => True) (by decide), rfl, lands_with (fun _ => True) (by decide), rfl, lands_with _ (by decide),
    lands_with _ (by decide)⟩

theorem witness_DestinationAfterCompletion :
    (sEnc.core.operands.transfer = some tEnc ∧ ∃ u, exec .encu sEnc = .next u ∧ u.core.result = some 8) ∧
    (sDec.core.operands.transfer = some tDec ∧ ∃ u, exec .decu sDec = .next u ∧ u.core.result = some 7) ∧
    (∃ u, writeCmd 0x04#8 State.reset = .next u ∧ u.core.status.code = some 0x07#8) :=
  ⟨⟨rfl, lands_with _ (by decide)⟩, ⟨rfl, lands_with _ (by decide)⟩, lands_with _ (by decide)⟩

/-- RESULT 8 in a destination of 9 bytes; a frame error; and cores none of whose operand registers has been written. -/
theorem witness_UnspecifiedValuesAreFree :
    (sEnc.core.operands.transfer = some tEnc ∧ Instr.enc.isTransform = true ∧ 8 + 0 < tEnc.d ∧
      ∃ u, exec .enc sEnc = .next u ∧ u.core.result = some 8) ∧
    (∃ u, exec .dec (ready 16 ⟨0, 3, 8, 2⟩ [3, 1, 0]) = .next u ∧ u.core.errAt.isSome = true) ∧
    (Instr.dec.isTransform = true ∧ Instr.deccap.isTransform = false ∧ State.reset.core.status.busy = false ∧
      State.reset.core.operands = Operands.empty ∧ State.reset.core.operands.srcLen = none) :=
  ⟨⟨rfl, rfl, by decide, lands_with _ (by decide)⟩, lands_with _ (by decide), rfl, rfl, rfl, rfl, rfl⟩

theorem witness_SourceIsNeverWritten :
    (sEnc.core.operands.transfer = some tEnc ∧ InSource tEnc 0x16 ∧ ∃ u, exec .enc sEnc = .next u ∧ True) ∧
    ((sFly encInit).Inv ∧ (sFly encInit).core.runningTransfer = some tFly ∧ InSource tFly 0x11 ∧
      ∃ u, coreStep (sFly encInit) = .next u ∧ True) :=
  ⟨⟨rfl, by unfold InSource; decide, lands_with (fun _ => True) (by decide)⟩,
    ⟨sFly_inv (encInit_ok _), by decide, by unfold InSource; decide, lands_with (fun _ => True) (by decide)⟩⟩

/-- A memory with the same source bytes and other bytes in the destination. -/
theorem witness_OnlyTheSourceIsRead :
    sEnc.core.operands.transfer = some tEnc ∧
    (sEnc.mem.write 0x80 0x55).readBytes tEnc.src tEnc.n = sourceBytes sEnc tEnc ∧ InDest tEnc 0x80 ∧ Instr.enc.isTransform = true ∧
    ∃ u, exec .enc sEnc = .next u ∧ u.core.result = some 8 :=
  ⟨rfl, by decide, by unfold InDest; decide, rfl, lands_with _ (by decide)⟩

/-- A core that holds the outcome of an earlier operation. -/
theorem witness_NothingIsCarriedOver :
    sEnc.core.status.busy = false ∧ (sEnc.core.complete (.zeroMarker 3)).status.busy = false ∧
    (sEnc.core.complete (.zeroMarker 3)).operands = sEnc.core.operands := ⟨rfl, rfl, rfl⟩

/-! Outcomes and faults. -/

/-- Two cores whose running regions the transform of the addressed one would meet. -/
def sTwo : State := { sEnc with after := [(sFly encInit).core] }

theorem witness_FaultsOnlyUnderTheirCondition :
    exec .enc (sFly encInit) = .fault .commandWhileBusy ∧ exec .enccap (ready 8 ⟨0, 254, 0, 0⟩ []) = .fault .capacityOverflow ∧
    exec .enc (ready 8 ⟨0xFF, 2, 0, 0⟩ []) = .fault .regionWrap ∧ exec .dec (ready 8 ⟨0, 2, 1, 2⟩ []) = .fault .regionOverlap ∧
    exec .decu { ready 8 ⟨0, 2, 2, 2⟩ [] with plat := { plain 8 with map := [] } } = .fault .unbackedRegion ∧
    exec .encu sTwo = .fault .regionAccessWhileBusy ∧ exec .encu (ready 16 ⟨0, 0, 0, 0⟩ []) = .fault .uncheckedPrecondition :=
  ⟨faults_with (by decide), faults_with (by decide), faults_with (by decide), faults_with (by decide),
    faults_with (by decide), faults_with (by decide), faults_with (by decide)⟩

/-- W = 8, each condition at its boundary: a region of two bytes at 0xFF; regions that share one byte; a map that ends one byte short. -/
theorem witness_RegionChecks :
    (Ready (ready 8 ⟨0xFF, 2, 0, 0⟩ []) ⟨0xFF, 2, 0, 0⟩ ∧ 2 ^ 8 < 0xFF + 2) ∧
    (Ready (ready 8 ⟨0, 2, 1, 2⟩ []) ⟨0, 2, 1, 2⟩ ∧ (0 + 2 ≤ 2 ^ 8 ∧ 1 + 2 ≤ 2 ^ 8 ∧ 0 < 1 + 2 ∧ 1 < 0 + 2)) ∧
    (Ready { ready 8 ⟨0, 2, 2, 3⟩ [] with plat := { plain 8 with map := [⟨0, 4, .ordinary, true, true⟩] } } ⟨0, 2, 2, 3⟩ ∧
      (0 + 2 ≤ 2 ^ 8 ∧ 2 + 3 ≤ 2 ^ 8 ∧ 0 + 2 ≤ 2) ∧
      (InDest ⟨0, 2, 2, 3⟩ 4 ∧ writableAt { plain 8 with map := [⟨0, 4, .ordinary, true, true⟩] } 4 = false)) ∧
    exec .enccap (ready 8 ⟨0, 254, 0, 0⟩ []) = .fault .capacityOverflow :=
  ⟨⟨⟨rfl, rfl⟩, by decide⟩, ⟨⟨rfl, rfl⟩, by decide⟩, ⟨⟨rfl, rfl⟩, by decide, ⟨by unfold InDest; decide, by decide⟩⟩, faults_with (by decide)⟩

theorem witness_PriorityOfOutcomes :
    (Ready (ready 8 ⟨0, 2, 1, 2⟩ []) ⟨0, 2, 1, 2⟩ ∧ ¬ Admitted (ready 8 ⟨0, 2, 1, 2⟩ []) ⟨0, 2, 1, 2⟩) ∧
    (Ready (ready 8 ⟨0, 254, 254, 2⟩ []) ⟨0, 254, 254, 2⟩ ∧ 2 ^ 8 ≤ encodeCapacity 254) ∧
    (Ready (ready 16 ⟨0, 2, 8, 0⟩ []) ⟨0, 2, 8, 0⟩ ∧ 0 < encodeCapacity 2 ∧ 1 < 2 ∧ 0 < 2 - 1) ∧
    (∃ u, exec .decu sDec = .next u ∧ True) ∧ (∃ u, exec .enc sEnc = .next u ∧ True) :=
  ⟨⟨⟨rfl, rfl⟩, fun h => absurd (regionFault_eq_none.2 h) (by decide)⟩, ⟨⟨rfl, rfl⟩, by decide⟩, ⟨⟨rfl, rfl⟩, by decide⟩,
    lands_with (fun _ => True) (by decide), lands_with (fun _ => True) (by decide)⟩

/-! The step view. -/

/-- R124, R125: the CMD write itself faults on an undersized destination. -/
theorem test_issue_encu_precondition : faults (issueCmd 0x03#8 (ready 16 ⟨0, 1, 8, 2⟩ [0])) .uncheckedPrecondition = true := by decide
theorem test_issue_decu_precondition : faults (issueCmd 0x07#8 (ready 16 ⟨0, 2, 8, 0⟩ [])) .uncheckedPrecondition = true := by decide
/-- R75, R125: and on a capacity that does not fit. -/
theorem test_issue_capacity : faults (issueCmd 0x01#8 (ready 8 ⟨0, 254, 0, 0⟩ [])) .capacityOverflow = true := by decide

theorem witness_AtomicViewIsTheStepView : exec .encu (ready 16 ⟨0, 1, 8, 2⟩ [0]) = .fault .uncheckedPrecondition ∧
    issueCmd (encode .decu) (ready 16 ⟨0, 2, 8, 0⟩ []) = .fault .uncheckedPrecondition :=
  ⟨faults_with (by decide), faults_with (by decide)⟩

theorem witness_CoreStepCounts :
    (decodeCmd 0x00#8 = none ∧ ∃ v, issueCmd 0x00#8 State.reset = .next v ∧ True) ∧
    (Encodable (ready 16 ⟨0, 0, 0, 1⟩ []) ⟨0, 0, 0, 1⟩ ∧ Encodable sEnc tEnc ∧ 1 ≤ tEnc.n) ∧
    (sDec.core.operands.transfer = some tDec ∧ 1 ≤ tDec.n) :=
  ⟨⟨by decide, lands_with (fun _ => True) (by decide)⟩,
    ⟨encodable_of (by decide) (by decide) (by decide), encodable_of (by decide) (by decide) (by decide), by decide⟩, rfl, by decide⟩

/-- The step view of R105's example ends in the atomic one after n + 2q = 18 steps, and no earlier. -/
theorem test_step_view : lands (exec .dec sDec) (fun u => lands (issueThenSteps .dec 18 sDec) (fun v => decide (u.core = v.core)) &&
    lands (issueThenSteps .dec 17 sDec) (fun v => v.core.status.busy)) = true := by decide

/-- Each command at the least destination that is no fault; ENC and DEC also with one that ends in BUFFER_TOO_SMALL; DEC and DECU with n − 1. -/
theorem witness_EveryOperationCompletes :
    (AdmittedFor .enccap (ready 8 ⟨0, 253, 0, 0⟩ []) ∧ AdmittedFor .deccap (ready 8 ⟨0, 0, 0, 0⟩ []) ∧
      AdmittedFor .enc (ready 16 ⟨0, 0, 0, 0⟩ []) ∧ AdmittedFor .encu sEnc ∧ AdmittedFor .dec (ready 16 ⟨0, 2, 8, 0⟩ []) ∧
      AdmittedFor .dec sDec ∧ AdmittedFor .decu sDec) ∧
    (sFly encInit).Inv ∧ (sFly encInit).core.op = some (flight tFly 0x02 (.encoding encInit)) :=
  ⟨⟨⟨rfl, 253, rfl, by decide⟩, ⟨rfl, 0, rfl⟩, ⟨⟨0, 0, 0, 0⟩, ready_ready _ _ _, admitted_of (by decide), by decide⟩,
      ⟨tEnc, encodable_of (by decide) (by decide) (by decide)⟩, ⟨⟨0, 2, 8, 0⟩, ready_ready _ _ _, admitted_of (by decide)⟩,
      ⟨tDec, sDec_decodable.ready, sDec_decodable.admitted⟩, ⟨tDec, sDec_decodable.ready, sDec_decodable.admitted, sDec_decodable.room⟩⟩,
    sFly_inv (encInit_ok _), rfl⟩

/-! Invariants. -/

theorem witness_InvariantAtReset : 1 ≤ (plain 1).width ∧ Memory.wf [(0, 1), (1, 2)] = true ∧
    ∀ c ∈ ([(0, 1), (1, 2)] : Memory), c.1 < 2 ^ (plain 1).width := by decide

theorem witness_InvariantIsKept : (sFly encInit).Inv ∧ ∃ u, step (sFly encInit) = .next u ∧ True :=
  ⟨sFly_inv (encInit_ok _), lands_with (fun _ => True) (by decide)⟩

/-- Two cores with operations in flight on disjoint regions. -/
def sPair : State := { sFly encInit with after := [(flying 16 ⟨0x20, 2, 0x90, 4⟩ [] 0x02 .started).core] }

/-- The other core's registers may be anything, its running regions being the same. -/
theorem witness_CoresStayIndependent :
    (sPair.CoresDisjoint ∧ ∃ u, step sPair = .next u ∧ True) ∧
    ((∀ r, (∃ k ∈ [] ++ [(sEnc.core.complete .emptyInput)], r ∈ k.runningRegions) ↔
        ∃ k ∈ ({ sEnc with after := [CodecCore.reset] } : State).others, r ∈ k.runningRegions) ∧
      (∃ u, writeCmd 0x02#8 { sEnc with after := [CodecCore.reset] } = .next u ∧ True) ∧
      writeCmd 0x03#8 sTwo = .fault .regionAccessWhileBusy) ∧
    ∃ u, coreStep sPair = .next u ∧ True :=
  ⟨⟨by unfold State.CoresDisjoint; decide, lands_with (fun _ => True) (by decide)⟩,
    ⟨fun r => by simp [State.others, CodecCore.runningRegions, CodecCore.runningTransfer, CodecCore.complete, CodecCore.reset, sEnc, ready,
        State.powerOn], lands_with (fun _ => True) (by decide), faults_with (by decide)⟩, lands_with (fun _ => True) (by decide)⟩

/-! Starting an operation, and the operand registers. -/

theorem witness_CmdWriteStartsAnOperation :
    (∃ u, issueCmd 0x02#8 sEnc = .next u ∧ True) ∧
    (sEnc.core.status.busy = false ∧ ∀ i, decodeCmd 0x02#8 = some i → ∀ f, exec i sEnc ≠ .fault f) ∧
    (sFly encInit).core.status.busy = true := by
  refine ⟨lands_with (fun _ => True) (by decide), ⟨rfl, ?_⟩, rfl⟩
  intro i hi f hf
  cases hi.symm.trans (by decide : decodeCmd 0x02#8 = some .enc)
  obtain ⟨u, hu, -⟩ := lands_with (x := exec .enc sEnc) (fun _ => True) (by decide)
  cases hu.symm.trans hf

theorem witness_OperandsAreLatched :
    (sEnc.core.operands.transfer = some tEnc ∧ ∃ u, issueCmd 0x02#8 sEnc = .next u ∧ True) ∧
    (sFly encInit).core.op = some (flight tFly 0x02 (.encoding encInit)) ∧ (∃ u, coreStep (sFly encInit) = .next u ∧ True) ∧
    (sFly encInit).core.status.busy = true ∧ (sFly encInit).core.operands.srcBase = some 0x10 ∧
    (sFly encInit).core.operands.srcLen = some 2 ∧ (sFly encInit).core.operands.dstBase = some 0x80 ∧
    (sFly encInit).core.operands.dstLen = some 4 :=
  ⟨⟨rfl, lands_with (fun _ => True) (by decide)⟩, rfl, lands_with (fun _ => True) (by decide), rfl, rfl, rfl, rfl, rfl⟩

theorem witness_OperandsReadBackAsWritten : State.reset.core.status.busy = false := rfl

/-! Register accesses. -/

theorem sEnc_inv : sEnc.Inv := ready_inv (by decide) (by decide) (by decide) (by decide)

theorem witness_StatusAlwaysReads : sEnc.Inv ∧ (sFly encInit).Inv := ⟨sEnc_inv, sFly_inv (encInit_ok _)⟩

theorem witness_ReadWithoutValueFaults :
    State.reset.core = CodecCore.reset ∧ Reg.ofNumber 0xB#4 = some .errWant ∧
    State.reset.core.operands.srcBase = none ∧ State.reset.core.operands.srcLen = none ∧
    State.reset.core.operands.dstBase = none ∧ State.reset.core.operands.dstLen = none ∧
    (∃ u, writeCmd 0x00#8 State.reset = .next u ∧ u.core.status.code ≠ some 0x00#8 ∧
      u.core.status.code ∉ [some 0x03#8, some 0x04#8, some 0x05#8] ∧ u.core.status.code ≠ some 0x05#8 ∧
      u.core.status.code ≠ some 0x02#8) :=
  ⟨rfl, rfl, rfl, rfl, rfl, rfl, lands_with _ (by decide)⟩

theorem witness_ReservedRegistersFault : 0xC ≤ (0xC#4).toNat ∧ 0xC ≤ (0xF#4).toNat := by decide

theorem witness_PartialAccessesFault :
    (0x0#4).toNat < 0xC ∧ 4 ≠ (if (0x0#4 = 0x0#4 ∨ 0x0#4 = 0x8#4) then 8 else if 0x0#4 = 0x1#4 then 16 else 32) ∧
    (0xB#4).toNat < 0xC ∧ 16 ≠ (if (0xB#4 = 0x0#4 ∨ 0xB#4 = 0x8#4) then 8 else if 0xB#4 = 0x1#4 then 16 else 32) := by decide

/-- A big-endian window, W = 16. -/
def bigWindow : Config.RegWindow := ⟨[0, 2, 4, 6, 8, 10, 12, 14, 16, 18, 20, 22], [1, 0], [1, 0]⟩
def sWindow : State := { sEnc with plat := { plain 16 with window := some bigWindow } }

theorem witness_RegisterWindowAgrees :
    sWindow.Inv ∧ sWindow.plat.window = some bigWindow ∧ bigWindow.wf sWindow.plat.width = true ∧ bigWindow.base.Nodup ∧
    Reg.ofNumber 0x3#4 = some .srcLen ∧ bigWindow.base[(0x3#4).toNat]? = some 6 ∧
    (∃ u, hostRead 0x3#4 (Reg.srcLen.width sWindow.plat.width) sWindow = .next u ∧ u.reply = some (.value 7)) ∧
    hostRead 0x6#4 (Reg.result.width sWindow.plat.width) sWindow = .fault .readNoValue ∧
    ([0x12, 0x34] : List Byte).length = Reg.srcLen.byteCount sWindow.plat.width ∧
    valueOfBytes (byteOrder bigWindow .srcLen) [0x12, 0x34] < 2 ^ Reg.srcLen.width sWindow.plat.width ∧
    1 ≠ Reg.srcLen.byteCount sWindow.plat.width :=
  ⟨⟨sEnc_inv.width, sEnc_inv.memForm, sEnc_inv.memFits, sEnc_inv.cores⟩, rfl, by decide, by decide, rfl, rfl, lands_with _ (by decide),
    faults_with (by decide), by decide, by decide, by decide⟩

/-- W = 12: four bits of padding; a write with them 0, and one with them 1. -/
def sPadded : State := { ready 12 tEnc [] with plat := { plain 12 with window := some bigWindow } }

theorem witness_RegisterWindowAgrees_padding :
    sPadded.Inv ∧ sPadded.plat.window = some bigWindow ∧ bigWindow.wf sPadded.plat.width = true ∧
    Reg.srcLen.width sPadded.plat.width = 12 ∧ Reg.srcLen.byteCount sPadded.plat.width = 2 ∧
    (∃ u, hostRead 0x3#4 12 sPadded = .next u ∧ u.reply = some (.value 7)) ∧
    valueOfBytes (byteOrder bigWindow .srcLen) [0x0F, 0xFF] < 2 ^ 12 ∧ 2 ^ 12 ≤ valueOfBytes (byteOrder bigWindow .srcLen) [0x10, 0x00] := by
  have h : (ready 12 tEnc []).Inv := ready_inv (by decide) (by decide) (by decide) (by decide)
  exact ⟨⟨h.width, h.memForm, h.memFits, h.cores⟩, rfl, by decide, by decide, by decide, lands_with _ (by decide), by decide, by decide⟩

/-- Log entry 27: the write completes, and the register holds a 12-bit value. -/
theorem test_padding_write : ∃ u v, busWrite 6 [0x10, 0x00] sPadded = .next u ∧ u.core.operands.srcLen = some v ∧ v < 2 ^ 12 :=
  ⟨_, _, rfl, rfl, (Config.freeWord 12 0).isLt⟩

/-! Hazards, memory accesses, reset, command lines. -/

theorem witness_BusyHazardsFault : (sFly encInit).Inv ∧ (sFly encInit).core.status.busy = true ∧
    (sFly encInit).core.op = some (flight tFly 0x02 (.encoding encInit)) ∧ decodeCmd 0x02#8 = some .enc ∧ Instr.enc.isTransform = true ∧
    (flight tFly 0x02 (.encoding encInit)).latched = tFly.operands ∧ InSource tFly 0x11 ∧ InDest tFly 0x83 :=
  ⟨sFly_inv (encInit_ok _), rfl, rfl, by decide, rfl, rfl, by unfold InSource; decide, by unfold InDest; decide⟩

/-- R140 H3: a write to a source byte the platform lets no one write, and a read of a destination byte it lets no one read. -/
theorem test_hazard_any_permission :
    let s := { sFly encInit with plat := { plain 16 with map := [⟨0, 0x40, .ordinary, true, false⟩, ⟨0x40, 0x100, .ordinary, false, true⟩] } }
    faults (memWrite 0x11 0x00 s) .regionAccessWhileBusy = true ∧ faults (memRead 0x83 s) .regionAccessWhileBusy = true := by decide

theorem witness_HostPlacesBytes :
    (2 ^ 16 - 1 < 2 ^ (sFly encInit).plat.width ∧ (sFly encInit).Inv ∧
      (∀ c ∈ (sFly encInit).allCores, ∀ t, c.runningTransfer = some t → ¬ InSource t (2 ^ 16 - 1) ∧ ¬ InDest t (2 ^ 16 - 1))) ∧
    writableAt (sFly encInit).plat (2 ^ 16 - 1) = true ∧ readableAt (sFly encInit).plat (2 ^ 16 - 1) = true := by
  refine ⟨⟨by decide, sFly_inv (encInit_ok _), ?_⟩, by decide, by decide⟩
  intro c h t ht
  cases List.mem_singleton.1 h
  cases ht.symm.trans (by decide : (sFly encInit).core.runningTransfer = some tFly)
  unfold InSource InDest
  decide

theorem witness_CoresStayIndependent_select :
    sPair.allCores[1]? = some (flying 16 ⟨0x20, 2, 0x90, 4⟩ [] 0x02 .started).core ∧ sPair.allCores.length ≤ 2 := ⟨rfl, Nat.le_refl 2⟩

theorem witness_ResetAbandonsTheOperation :
    (∃ s : State, s.Inv ∧ s.core.status.busy = true ∧ s.host = .reset :: [] ∧ s.core.runningTransfer = some tFly) ∧
    ∃ s : State, s.Inv ∧ s.core.status.busy = true ∧ s.host = .reset :: [] ∧ s.core.runningTransfer = none := by
  have h1 := sFly_inv (encInit_ok tFly)
  have h2 : (flying 16 tFly [] 0x00 .started).Inv :=
    flying_inv (by decide) (by decide) (by decide) (by decide) (by decide) (by decide) ⟨trivial, trivial⟩
  exact ⟨⟨{ sFly encInit with host := [.reset] }, ⟨h1.width, h1.memForm, h1.memFits, h1.cores⟩, rfl, rfl, by decide⟩,
    ⟨{ flying 16 tFly [] 0x00 .started with host := [.reset] }, ⟨h2.width, h2.memForm, h2.memFits, h2.cores⟩, rfl, rfl, by decide⟩⟩

theorem witness_StateAfterReset : ({ sEnc with host := [.reset] } : State).host = .reset :: [] ∧ sEnc.core.op = none := ⟨rfl, rfl⟩

/-- A line of ENC on a machine right after reset, with W = 16 and one memory byte placed. -/
def sLine : State :=
  { State.powerOn (plain 16) 0 [(0x10, 0x11)] with host := (Line.enc 0x10 1 0x80 3).events 16 ++ [] }

theorem witness_CommandLinesRun : sLine.core.status.busy = false ∧ (Line.enc 0x10 1 0x80 3).fits sLine.plat.width = true ∧
    sLine.host = (Line.enc 0x10 1 0x80 3).events sLine.plat.width ++ [] ∧
    ∃ u, exec (Line.enc 0x10 1 0x80 3).instr { sLine with
        host := .poll :: []
        core := { sLine.core with operands := (Line.enc 0x10 1 0x80 3).operandsAfter sLine.core.operands } } = .next u ∧
      u.core.status.code = some 0x00#8 :=
  ⟨rfl, by decide, rfl, lands_with _ (by decide)⟩

/-- R70: the line above, run: RESULT 2 and the frame [0x02, 0x11]. -/
theorem test_line_run : lands (Host.Core.run Sys2Proof.core 6 sLine) (fun u : State =>
    u.core.result == some 2 && u.mem.readBytes 0x80 2 == [0x02, 0x11] && u.host.isEmpty) = true := by decide

end Sys2Proof.Tests
end

section
/-! SUPPORT. What an idle core's STATUS, result registers and operation in flight contribute to a command: nothing (10_state.md R19). -/

namespace Sys2Proof.Machine

/-! ### A core replaced by one with the same operand registers -/

/-- A completion overwrites every register of the core but its operands (R27). -/
theorem CodecCore.complete_congr {c k : CodecCore} (h : k.operands = c.operands) (o : OpOutcome) : k.complete o = c.complete o := by
  unfold CodecCore.complete
  rw [h]

section
variable {s : State} {k : CodecCore} (h : k.operands = s.core.operands)
include h

theorem State.complete_withCore (o : OpOutcome) : ({ s with core := k } : State).complete o = s.complete o := by
  unfold State.complete
  rw [CodecCore.complete_congr h]

theorem State.settle_withCore (t : Transfer) (o : OpOutcome) (m : Memory) :
    ({ s with core := k } : State).settle t o m = s.settle t o m := by
  have hc : ({ s with core := k, mem := m } : State).complete o = ({ s with mem := m } : State).complete o :=
    State.complete_withCore (s := { s with mem := m }) h o
  simp only [State.settle, hc]

theorem State.raiseOr_withCore {e : Option OpOutcome} {go go' : Out} (hg : go = go') :
    ({ s with core := k } : State).raiseOr e go = s.raiseOr e go' := by
  cases e with
  | none => exact hg
  | some o => exact congrArg Host.Outcome.next (State.complete_withCore h o)

theorem encodeAll_withCore (t : Transfer) : encodeAll { s with core := k } t = encodeAll s t := by
  unfold encodeAll
  exact State.settle_withCore h t _ _

theorem decodeAll_withCore (t : Transfer) : decodeAll { s with core := k } t = decodeAll s t := by
  unfold decodeAll
  simp only [State.settle_withCore h]

/-- Latching reads the operand registers, and draws free values. -/
theorem withLength_withCore {next : Nat → State → Out}
    (hn : ∀ n f, next n { s.drawn f with core := k } = next n (s.drawn f)) :
    withLength k.operands { s with core := k } next = withLength s.core.operands s next := by
  rw [h]
  exact hn _ _

theorem withTransfer_withCore {next : Transfer → State → Out}
    (hn : ∀ t f, next t { s.drawn f with core := k } = next t (s.drawn f)) :
    withTransfer k.operands { s with core := k } next = withTransfer s.core.operands s next := by
  rw [h]
  exact hn _ _

/-- A command finds nothing in an idle core but its operand registers: its faults look at the platform and the other cores, its core
procedure at memory, and its completion overwrites the rest. -/
theorem exec_withCore (i : Instr) (hs : s.core.status.busy = false) (hk : k.status.busy = false) :
    exec i { s with core := k } = exec i s := by
  have idle (x y : Out) (hxy : x = y) : whenIdle { s with core := k } x = whenIdle s y := by
    rw [whenIdle_of_idle x hk, whenIdle_of_idle y hs, hxy]
  cases i <;> refine idle _ _ ?_
  case enccap =>
    exact withLength_withCore h fun n f => congrArg (fun u => unlessFault (capacityFault s n) (.next u))
      (State.complete_withCore (s := s.drawn f) h _)
  case deccap => exact withLength_withCore h fun n f => congrArg Host.Outcome.next (State.complete_withCore (s := s.drawn f) h _)
  case enc =>
    exact withTransfer_withCore h fun t f => congrArg (unlessFault (encFault (s.drawn f) t))
      (State.raiseOr_withCore (s := s.drawn f) h (congrArg Host.Outcome.next (encodeAll_withCore (s := s.drawn f) h t)))
  case encu =>
    exact withTransfer_withCore h fun t f => congrArg (fun u => unlessFault (encuFault (s.drawn f) t) (.next u))
      (encodeAll_withCore (s := s.drawn f) h t)
  case dec =>
    exact withTransfer_withCore h fun t f => congrArg (unlessFault (decFault (s.drawn f) t))
      (State.raiseOr_withCore (s := s.drawn f) h (decodeAll_withCore (s := s.drawn f) h t))
  case decu =>
    exact withTransfer_withCore h fun t f => congrArg (unlessFault (decuFault (s.drawn f) t))
      (State.raiseOr_withCore (s := s.drawn f) h (decodeAll_withCore (s := s.drawn f) h t))

theorem execIllegal_withCore (hs : s.core.status.busy = false) (hk : k.status.busy = false) :
    execIllegal { s with core := k } = execIllegal s := by
  unfold execIllegal
  rw [whenIdle_of_idle _ hs, whenIdle_of_idle _ hk, State.complete_withCore h]

end

/-- Settles O36: a legal word is a command, which finds nothing but operands in an idle core; an illegal one completes at once. -/
theorem nothingIsCarriedOver : Obligations.NothingIsCarriedOver := by
  intro c s k hs hk h
  unfold writeCmd
  split
  · exact exec_withCore h _ hs hk
  · exact execIllegal_withCore h hs hk

end Sys2Proof.Machine
end

section
/-! SUPPORT. The byte-addressed register window (20_memory.md R50): the byte orders, the register at an address, and what a whole read
there returns. -/

namespace Sys2Proof.Machine

/-! ### Values as bytes in an order (R11) -/

/-- Each byte stands back at its significance, wherever the order lists it. -/
theorem valueOfBytes_bytesOfValue (order : List Nat) (v : Nat) :
    valueOfBytes order (bytesOfValue order v) = (order.map fun k => v / 256 ^ k % 256 * 256 ^ k).sum := by
  induction order with
  | nil => rfl
  | cons k ks ih =>
    have hb : (BitVec.ofNat 8 (v / 256 ^ k)).toNat = v / 256 ^ k % 256 := BitVec.toNat_ofNat _ _
    rw [List.map_cons, List.sum_cons, ← ih, ← hb]
    rfl

/-- The base-256 digits of a value give it back, up to the number of digits. -/
theorem sum_digits_range (v m : Nat) : ((List.range m).map fun k => v / 256 ^ k % 256 * 256 ^ k).sum = v % 256 ^ m := by
  induction m with
  | zero => simp [Nat.mod_one]
  | succ m ih => rw [List.range_succ, List.map_append, List.sum_append, ih, Nat.mod_pow_succ]; simp [Nat.mul_comm]

/-- A value laid out in a byte order and read back in it is the value. -/
theorem valueOfBytes_bytesOfValue_of_perm {order : List Nat} {m v : Nat} (h : order.Perm (List.range m)) (hv : v < 256 ^ m) :
    valueOfBytes order (bytesOfValue order v) = v := by
  rw [valueOfBytes_bytesOfValue, (h.map _).sum_eq, sum_digits_range, Nat.mod_eq_of_lt hv]

/-- A register's byte order names each of its bytes once. -/
theorem byteOrder_perm {win : Config.RegWindow} {w : Nat} (h : win.wf w = true) (r : Reg) :
    (byteOrder win r).Perm (List.range (r.byteCount w)) := by
  simp only [Config.RegWindow.wf, Bool.and_eq_true, List.isPerm_iff] at h
  obtain ⟨⟨-, hstatus⟩, hword⟩ := h
  cases r
  case cmd => simp [byteOrder, Reg.byteCount, Reg.width]
  case errMarker => simp [byteOrder, Reg.byteCount, Reg.width]
  case status => simpa [byteOrder, Reg.byteCount, Reg.width] using hstatus
  all_goals exact hword

theorem length_bytesOfValue {win : Config.RegWindow} {w : Nat} (h : win.wf w = true) (r : Reg) (v : Nat) :
    (bytesOfValue (byteOrder win r) v).length = r.byteCount w := by
  rw [bytesOfValue, List.length_map, (byteOrder_perm h r).length_eq, List.length_range]

/-! ### The register at an address -/

/-- Registers at different addresses: the one whose first byte lies there is found. -/
theorem regAtAddress_eq {win : Config.RegWindow} {a : Nat} {k : BitVec 4} {r : Reg} (hd : win.base.Nodup)
    (hr : Reg.ofNumber k = some r) (ha : win.base[k.toNat]? = some a) : regAtAddress win a = some r := by
  obtain ⟨hk, rfl⟩ := List.getElem?_eq_some_iff.1 hr
  obtain ⟨hb, rfl⟩ := List.getElem?_eq_some_iff.1 ha
  have hf : (Reg.all.zip win.base).find? (fun x => decide (x.2 = win.base[k.toNat])) = some (Reg.all[k.toNat], win.base[k.toNat]) := by
    refine List.find?_eq_some_iff_getElem.2 ⟨by simp, k.toNat, by simp [hk, hb], by simp, fun j hj => ?_⟩
    have hne : win.base[j] ≠ win.base[k.toNat] := fun he => hj.ne ((hd.getElem_inj_iff).1 he)
    simp [hne]
  rw [regAtAddress, hf]
  rfl

section
variable {s : State} {win : Config.RegWindow} {r : Reg} {a : Nat} (hwin : s.plat.window = some win) (hreg : regAtAddress win a = some r)
include hwin hreg

theorem atRegister_whole (next : Config.RegWindow → Reg → Out) : atRegister a (r.byteCount s.plat.width) s next = next win r := by
  simp [atRegister, hwin, hreg]

theorem atRegister_partial {count : Nat} (h : count ≠ r.byteCount s.plat.width) (next : Config.RegWindow → Reg → Out) :
    atRegister a count s next = .fault .partialRegisterAccess := by
  simp [atRegister, hwin, hreg, h]

end

/-! ### Whole accesses by number -/

theorem hostRead_whole {k : BitVec 4} {r : Reg} (hr : Reg.ofNumber k = some r) (s : State) :
    hostRead k (r.width s.plat.width) s = readReg r .value s := by
  simp [hostRead, hr]

theorem hostWrite_whole {k : BitVec 4} {r : Reg} (hr : Reg.ofNumber k = some r) (s : State) (v : BitVec (r.width s.plat.width)) :
    hostWrite k (r.width s.plat.width) v s = writeReg r v.toNat s := by
  simp [hostWrite, hr]

theorem readReg_some {r : Reg} {rep : Nat → Reply} {s : State} {v : Nat × Nat} (h : s.regValue r = some v) :
    readReg r rep s = .next { s with reply := some (rep v.1), fresh := v.2 } := by
  simp [readReg, h]

theorem readReg_fault {r : Reg} {rep : Nat → Reply} {s : State} {f : Fault} (h : readReg r rep s = .fault f) :
    s.regValue r = none ∧ f = .readNoValue := by
  unfold readReg at h
  cases hv : s.regValue r with
  | none => rw [hv] at h; cases h; exact ⟨rfl, rfl⟩
  | some v => rw [hv] at h; cases h

/-- In the invariant a register's value has the register's width. -/
theorem State.Inv.regValue_lt {s : State} (h : s.Inv) {r : Reg} {v : Nat × Nat} (hv : s.regValue r = some v) :
    v.1 < 2 ^ r.width s.plat.width := by
  have hc : s.core.Ok s.plat.width := h.cores _ (State.mem_allCores.2 (.inl rfl))
  cases r <;> simp only [State.regValue, Option.map_eq_some_iff, Option.some.injEq, reduceCtorEq] at hv
  case status => subst hv; exact BitVec.isLt _
  all_goals obtain ⟨x, hx, rfl⟩ := hv
  case errMarker => exact x.isLt
  case srcBase => exact hc.operandsFit.srcBase x hx
  case srcLen => exact hc.operandsFit.srcLen x hx
  case dstBase => exact hc.operandsFit.dstBase x hx
  case dstLen => exact hc.operandsFit.dstLen x hx
  case result => exact hc.resultFits x hx
  case errAt => exact hc.errAtFits x hx
  case errLen => exact hc.errLenFits x hx
  case errHave => exact hc.errHaveFits x hx
  case errWant => exact hc.errWantFits x hx

/-! ### Padding (log entry 27) -/

theorem Reg.width_add_padding (w : Nat) (r : Reg) : r.width w + r.padding w = 8 * r.byteCount w := by
  unfold Reg.padding Reg.byteCount
  omega

/-- "none for CMD, STATUS and ERR_MARKER": STATUS takes two whole bytes. -/
theorem Reg.padding_status (w : Nat) : Reg.padding w .status = 0 := by
  simp [Reg.padding, Reg.byteCount, Reg.width]

theorem paddingRead_lt (pad f : Nat) : (paddingRead pad f).1 < 2 ^ pad := by
  unfold paddingRead
  split
  · exact Nat.two_pow_pos _
  · exact BitVec.isLt _

/-- A register's bytes have room for its value and the padding above it. -/
theorem padded_lt {w v top : Nat} {r : Reg} (hv : v < 2 ^ r.width w) (ht : top < 2 ^ r.padding w) :
    top * 2 ^ r.width w + v < 256 ^ r.byteCount w := by
  have h256 : 256 ^ r.byteCount w = 2 ^ r.padding w * 2 ^ r.width w := by
    rw [← Nat.pow_add, Nat.add_comm, Reg.width_add_padding, Nat.pow_mul]
  calc top * 2 ^ r.width w + v < (top + 1) * 2 ^ r.width w := by rw [Nat.succ_mul]; omega
    _ ≤ 256 ^ r.byteCount w := h256 ▸ Nat.mul_le_mul_right _ ht

/-- Drawing free values gives no register a value and takes none away. -/
theorem State.regValue_drawn_eq_none {s : State} {f : Nat} {r : Reg} : (s.drawn f).regValue r = none ↔ s.regValue r = none := by
  cases r <;> simp [State.regValue]

/-- The draw for a register's padding does not touch its value: STATUS, whose value draws itself, has no padding. -/
theorem State.regValue_afterPadding {s : State} {r : Reg} {v : Nat × Nat} (hv : s.regValue r = some v) :
    ∃ g, (s.drawn (paddingRead (r.padding s.plat.width) s.fresh).2).regValue r = some (v.1, g) ∧
      (r.padding s.plat.width = 0 → g = v.2) := by
  by_cases hp : r.padding s.plat.width = 0
  · exact ⟨v.2, by simpa [hp, paddingRead] using hv, fun _ => rfl⟩
  · refine ⟨(paddingRead (r.padding s.plat.width) s.fresh).2, ?_, fun h => absurd h hp⟩
    cases r
    case status => exact absurd (Reg.padding_status _) hp
    case cmd => cases hv
    all_goals
      obtain ⟨x, hx, rfl⟩ := Option.map_eq_some_iff.1 hv
      simp [State.regValue, hx]

/-! ### Whole accesses by address -/

section
variable {s : State} {win : Config.RegWindow} {r : Reg} {a : Nat} (hwin : s.plat.window = some win) (hreg : regAtAddress win a = some r)
include hwin hreg

/-- A whole read of a register with a value returns the bytes of that value with some padding above it. -/
theorem busRead_some {v : Nat × Nat} (hv : s.regValue r = some v) :
    ∃ top g, busRead a (r.byteCount s.plat.width) s =
        .next { s with reply := some (.bytes (bytesOfValue (byteOrder win r) (top * 2 ^ r.width s.plat.width + v.1))), fresh := g } ∧
      top < 2 ^ r.padding s.plat.width ∧ (r.padding s.plat.width = 0 → g = v.2) := by
  obtain ⟨g, hg, hpad⟩ := State.regValue_afterPadding hv
  refine ⟨(paddingRead (r.padding s.plat.width) s.fresh).1, g, ?_, paddingRead_lt _ _, hpad⟩
  unfold busRead
  rw [atRegister_whole hwin hreg, readReg_some hg]
  rfl

theorem busRead_none (hv : s.regValue r = none) : busRead a (r.byteCount s.plat.width) s = .fault .readNoValue := by
  unfold busRead
  rw [atRegister_whole hwin hreg, readReg, State.regValue_drawn_eq_none.2 hv]

/-- A whole write is the register write of the value its bytes stand for, if the register can hold it. -/
theorem busWrite_fits {bs : List Byte} (hl : bs.length = r.byteCount s.plat.width)
    (hv : valueOfBytes (byteOrder win r) bs < 2 ^ r.width s.plat.width) :
    busWrite a bs s = writeReg r (valueOfBytes (byteOrder win r) bs) s := by
  unfold busWrite
  rw [hl, atRegister_whole hwin hreg]
  exact if_pos hv

theorem busWrite_padded {bs : List Byte} (hl : bs.length = r.byteCount s.plat.width)
    (hv : 2 ^ r.width s.plat.width ≤ valueOfBytes (byteOrder win r) bs) :
    busWrite a bs s = writeReg r (Config.freeWord (r.width s.plat.width) s.fresh).toNat (s.drawn (s.fresh + 1)) := by
  unfold busWrite
  rw [hl, atRegister_whole hwin hreg]
  exact if_neg (Nat.not_lt.2 hv)

/-- In the invariant the bytes a whole read returns stand, up to the register's width, for the register's value. -/
theorem busRead_value (hinv : s.Inv) (hwf : win.wf s.plat.width = true) {v : Nat × Nat} (hv : s.regValue r = some v) :
    ∃ bs g, busRead a (r.byteCount s.plat.width) s = .next { s with reply := some (.bytes bs), fresh := g } ∧
      bs.length = r.byteCount s.plat.width ∧ valueOfBytes (byteOrder win r) bs % 2 ^ r.width s.plat.width = v.1 ∧
      (r.padding s.plat.width = 0 → valueOfBytes (byteOrder win r) bs = v.1 ∧ g = v.2) := by
  obtain ⟨top, g, hread, htop, hpad⟩ := busRead_some hwin hreg hv
  have hlt : v.1 < 2 ^ r.width s.plat.width := hinv.regValue_lt hv
  have hback := valueOfBytes_bytesOfValue_of_perm (byteOrder_perm hwf r) (padded_lt hlt htop)
  refine ⟨_, g, hread, length_bytesOfValue hwf r _, ?_, fun hp => ⟨?_, hpad hp⟩⟩
  · rw [hback, Nat.mul_comm, Nat.mul_add_mod, Nat.mod_eq_of_lt hlt]
  · rw [hp] at htop
    rw [hback, Nat.lt_one_iff.1 htop, Nat.zero_mul, Nat.zero_add]

end

/-- Settles O55: the address finds the register, and a whole access there is the register access, its bytes in the platform's order. -/
theorem registerWindowAgrees : Obligations.RegisterWindowAgrees := by
  intro s win k r a hinv hwin hwf hnodup hr ha
  have hreg : regAtAddress win a = some r := regAtAddress_eq hnodup hr ha
  refine ⟨fun u v hu hrep => ?_, fun f hf => ?_, fun bs hl => ⟨fun hv => ?_, fun hv => ?_⟩, fun count hc => ⟨?_, ?_⟩⟩
  · rw [hostRead_whole hr] at hu
    obtain ⟨x, hx, rfl⟩ := readReg_next hu
    cases hrep
    obtain ⟨bs, g, hread, hlen, hmod, hexact⟩ := busRead_value hwin hreg hinv hwf hx
    exact ⟨bs, g, hread, hlen, hmod, fun he => hexact (by rw [Reg.padding, ← he, Nat.sub_self])⟩
  · rw [hostRead_whole hr] at hf
    obtain ⟨hnone, rfl⟩ := readReg_fault hf
    exact busRead_none hwin hreg hnone
  · rw [busWrite_fits hwin hreg hl hv, hostWrite_whole hr, BitVec.toNat_ofNat, Nat.mod_eq_of_lt hv]
  · rw [busWrite_padded hwin hreg hl hv]
    exact (hostWrite_whole hr (s.drawn (s.fresh + 1)) _).symm
  · exact atRegister_partial hwin hreg hc _
  · rintro bs rfl
    exact atRegister_partial hwin hreg hc _

end Sys2Proof.Machine
end

section
/-! SUPPORT. Outcomes as data: the row of R27's table each belongs to, when its values are W-bit ones, and that every command word which
answers a next state completes with one (10_state.md R27, R31). -/

namespace Sys2Proof.Machine

/-! ### The rows of R27 -/

@[simp] theorem OpOutcome.result_isSome (o : OpOutcome) : o.result.isSome = true ↔ o.code = 0x00#8 := by
  cases o <;> simp [OpOutcome.result, OpOutcome.code]

@[simp] theorem OpOutcome.errAt_isSome (o : OpOutcome) :
    o.errAt.isSome = true ↔ o.code = 0x03#8 ∨ o.code = 0x04#8 ∨ o.code = 0x05#8 := by
  cases o <;> simp [OpOutcome.errAt, OpOutcome.code]

@[simp] theorem OpOutcome.overflow_isSome (o : OpOutcome) : o.overflow.isSome = true ↔ o.code = 0x05#8 := by
  cases o <;> simp [OpOutcome.overflow, OpOutcome.code]

@[simp] theorem OpOutcome.tooSmall_isSome (o : OpOutcome) : o.tooSmall.isSome = true ↔ o.code = 0x02#8 := by
  cases o <;> simp [OpOutcome.tooSmall, OpOutcome.code]

theorem OpOutcome.code_le (o : OpOutcome) : o.code.toNat ≤ 7 := by
  cases o <;> simp [OpOutcome.code]

/-- Every value the outcome writes to a result register is a W-bit one (R21). -/
def OpOutcome.Fits (w : Nat) : OpOutcome → Prop
  | .ok r => r < 2 ^ w
  | .emptyInput => True
  | .bufferTooSmall given want => given < 2 ^ w ∧ want < 2 ^ w
  | .zeroMarker pos => pos < 2 ^ w
  | .zeroBinary pos => pos < 2 ^ w
  | .chunkOverflow pos _ len => pos < 2 ^ w ∧ len < 2 ^ w
  | .invalidArgument => True
  | .illegalCommand => True

/-- DECCAP's outcome fits where its operand does (R77). -/
theorem deccapOutcome_fits {w n : Nat} (h : n < 2 ^ w) : (deccapOutcome n).Fits w := by
  by_cases hn : n = 0
  · simp [deccapOutcome, decodeCapacity, hn, OpOutcome.Fits]
  · simp only [deccapOutcome, decodeCapacity, if_neg hn, OpOutcome.Fits]
    omega

/-- The walk ends with lengths and positions inside its frame (R108). -/
theorem Walk.Ok.fits {t : Transfer} {o : OpOutcome} {m : Memory} {w : Nat} (h : (Walk.ended o m).Ok t) (hn : t.n < 2 ^ w) :
    o.Fits w := by
  cases o
  case ok r => exact Nat.lt_of_le_of_lt (Nat.le_trans h (Nat.sub_le _ _)) hn
  case zeroMarker pos => exact Nat.lt_trans h hn
  case zeroBinary pos => exact Nat.lt_trans h hn
  case chunkOverflow pos marker len => exact ⟨Nat.lt_trans h.1 hn, h.2 ▸ hn⟩
  all_goals exact h.elim

/-- DECODE_CORE ends as its walk can end (R107, R116 to R118). -/
theorem decodeCore_ended {t : Transfer} {m m' : Memory} {o : OpOutcome} (hn : 1 ≤ t.n) (h : decodeCore t m = some (o, m')) :
    (Walk.ended o m').Ok t := by
  obtain ⟨o₂, m₂, h₂, hok⟩ := decodeCore_ends m hn
  cases h.symm.trans h₂
  exact hok

/-! ### Every command word that answers completes -/

/-- Drawing free values is no change of the frame. -/
theorem SameFrame.of_drawn {s u : State} {f : Nat} (h : SameFrame (s.drawn f) u) : SameFrame s u :=
  ⟨h.plat, h.before, h.after, h.host, h.reply, h.operands⟩

theorem ExecNext.completed {s u : State} {i : Instr} (h : ExecNext s i u) : ∃ o, Completed u o ∧ SameFrame s u := by
  cases h with
  | enccap n f hn hw => exact ⟨_, completed_complete _ _, (sameFrame_complete _ _).of_drawn⟩
  | deccap n f hn => exact ⟨_, completed_complete _ _, (sameFrame_complete _ _).of_drawn⟩
  | encSmall t f ht ha hw hd => exact ⟨_, completed_complete _ _, (sameFrame_complete _ _).of_drawn⟩
  | encode i hi t f ht ha hw hd => exact ⟨_, completed_settle _ t _ _, (sameFrame_settle _ t _ _).of_drawn⟩
  | decEmpty i hi t f ht ha hn => exact ⟨_, completed_complete _ _, (sameFrame_complete _ _).of_drawn⟩
  | decSmall t f ht ha hn hd => exact ⟨_, completed_complete _ _, (sameFrame_complete _ _).of_drawn⟩
  | decode i hi t f ht ha hn hd o m he => exact ⟨_, completed_settle _ t _ _, (sameFrame_settle _ t _ _).of_drawn⟩

/-- A command word that answers a next state completes with some outcome and changes only what `SameFrame` allows (R25, R31, R52). -/
theorem writeCmd_completed {c : Byte} {s u : State} (h : writeCmd c s = .next u) : ∃ o, Completed u o ∧ SameFrame s u := by
  rcases writeCmd_next h with ⟨i, -, hx⟩ | ⟨-, -, rfl⟩
  · exact (exec_next hx).completed
  · exact ⟨_, completed_complete s _, sameFrame_complete s _⟩

end Sys2Proof.Machine
end

section
/-! SUPPORT. The invariant is kept (10_state.md R23, R27; 20_memory.md R40; 41_encoder.md R92; 42_decoder.md R108): memory, one core, and the
whole machine, each from what the inversion lemmas say can happen. -/

namespace Sys2Proof.Machine

/-! ### Memory inside the address space -/

/-- Canonical memory inside the 2^W addresses (R40), as `State.Inv` asks. -/
structure Memory.Ok (w : Nat) (m : Memory) : Prop where
  form : m.wf = true
  fits : ∀ c ∈ m, c.1 < 2 ^ w

/-- A listed byte of a canonical memory is what its address reads as. -/
theorem Memory.read_of_mem {m : Memory} (h : m.wf = true) {c : Host.Cell} (hc : c ∈ m) : m.read c.1 = c.2 := by
  induction m with
  | nil => cases hc
  | cons d m ih =>
    obtain ⟨a, v⟩ := d
    obtain ⟨h1, -, h3⟩ := (Memory.wf_cons_iff a v m).1 h
    rcases List.mem_cons.1 hc with rfl | hc
    · exact if_pos rfl
    · rw [Memory.read_cons, if_neg (h1 c hc).ne', ih h3 hc]

/-- Canonical memory that reads, above the address space, as a memory inside it does, is inside it too. -/
theorem Memory.Ok.of_read_eq {w : Nat} {m m' : Memory} (h : m.Ok w) (hf : m'.wf = true)
    (hr : ∀ a, 2 ^ w ≤ a → m'.read a = m.read a) : m'.Ok w := by
  refine ⟨hf, fun c hc => Nat.lt_of_not_le fun hge => ?_⟩
  have hblank : m.read c.1 = Memory.blank := Memory.read_of_lacks fun d hd he => by have := h.fits d hd; omega
  exact ((Memory.wf_iff m').1 hf).2 c hc (by rw [← Memory.read_of_mem hf hc, hr c.1 hge, hblank])

theorem Memory.Ok.write {w : Nat} {m : Memory} (h : m.Ok w) {a : Nat} (ha : a < 2 ^ w) (v : Byte) : (m.write a v).Ok w :=
  h.of_read_eq (Memory.wf_write a v h.form) fun b hb => Memory.read_write_other m v (by omega)

theorem Memory.Ok.scramble {w : Nat} {m : Memory} (h : m.Ok w) {a k : Nat} (ha : a + k ≤ 2 ^ w) (f : Nat) :
    (m.scramble a k f).Ok w :=
  h.of_read_eq (Memory.wf_scramble a k f h.form) fun b hb => Memory.read_scramble_outside m a k f (.inr (by omega))

theorem settle_wf (s : State) (t : Transfer) (o : OpOutcome) {m : Memory} (h : m.wf = true) : (s.settle t o m).mem.wf = true := by
  cases o
  case ok => exact Memory.wf_scramble _ _ _ h
  case zeroMarker => exact Memory.wf_scramble _ _ _ h
  case zeroBinary => exact Memory.wf_scramble _ _ _ h
  case chunkOverflow => exact Memory.wf_scramble _ _ _ h
  all_goals exact h

/-- Completing a transform whose destination lies in the address space keeps memory in it. -/
theorem Memory.Ok.settle {w : Nat} {m : Memory} (h : m.Ok w) (s : State) {t : Transfer} (o : OpOutcome) (ht : t.dst + t.d ≤ 2 ^ w) :
    (s.settle t o m).mem.Ok w :=
  h.of_read_eq (settle_wf s t o h.form) fun a ha => read_settle_outside s t o m (by unfold InDest; omega)

/-- A core procedure that leaves everything beyond the destination region alone keeps memory in the address space. -/
theorem Memory.Ok.of_outside {w : Nat} {m m' : Memory} {t : Transfer} (h : m.Ok w) (ht : t.dst + t.d ≤ 2 ^ w) (hf : m'.wf = true)
    (hr : ∀ a, t.dst + t.d ≤ a → m'.read a = m.read a) : m'.Ok w :=
  h.of_read_eq hf fun a ha => hr a (by omega)

theorem Memory.Ok.encodeCore {w : Nat} {m : Memory} {t : Transfer} (h : m.Ok w) (ht : t.dst + t.d ≤ 2 ^ w)
    (hd : encodeCapacity t.n ≤ t.d) : (encodeCore t m).2.Ok w :=
  h.of_outside ht (encodeCore_wf t h.form) fun a ha =>
    encodeCore_outside t m (.inr (by have := encodeCore_le t m; omega))

theorem Memory.Ok.encByteStep {w : Nat} {m : Memory} {t : Transfer} {e : EncRegs} (h : m.Ok w) (ht : t.dst + t.d ≤ 2 ^ w)
    (hd : encodeCapacity t.n ≤ t.d) (he : e.Ok t) (hi : e.i < t.n) : (encByteStep t e m).2.Ok w :=
  h.of_outside ht (encByteStep_wf t e h.form) fun a ha =>
    encByteStep_outside m he a (.inr (.inl (by have := (encByteStep_ok m he hi).cursor_lt.1; omega)))

theorem encFinalize_le (t : Transfer) (e : EncRegs) (m : Memory) : (encFinalize t e m).1 ≤ e.c := by
  unfold encFinalize
  split <;> simp

theorem Memory.Ok.encFinalize {w : Nat} {m : Memory} {t : Transfer} {e : EncRegs} (h : m.Ok w) (ht : t.dst + t.d ≤ 2 ^ w)
    (hd : encodeCapacity t.n ≤ t.d) (he : e.Ok t) : (encFinalize t e m).2.Ok w := by
  have hc := he.cursor_lt.1
  have hslot := he.slot
  have hlow := he.lenLow
  unfold Machine.encFinalize
  split
  · exact h.write (by omega) _
  · exact h

theorem Memory.Ok.decStep {w : Nat} {m : Memory} {t : Transfer} {d : DecRegs} (h : m.Ok w) (ht : t.dst + t.d ≤ 2 ^ w)
    (hn : t.n ≤ t.d + 1) (hd : d.Ok t) : (decStep t d m).mem.Ok w := by
  rcases decStep_mem m hd with he | ⟨o, v, ho, he⟩ <;> rw [he]
  · exact h
  · exact h.write (by omega) v

theorem Memory.Ok.decodeCore {w : Nat} {m m' : Memory} {t : Transfer} {o : OpOutcome} (h : m.Ok w) (ht : t.dst + t.d ≤ 2 ^ w)
    (hn : 1 ≤ t.n) (hd : t.n ≤ t.d + 1) (he : decodeCore t m = some (o, m')) : m'.Ok w :=
  h.of_outside ht (decodeCore_wf hn he h.form) fun a ha => decodeCore_outside hn he (.inr (by omega))

/-! ### One core -/

theorem Operands.fits_empty (w : Nat) : Operands.empty.Fits w := by
  constructor <;> rintro v ⟨⟩

theorem CodecCore.reset_ok (w : Nat) : CodecCore.reset.Ok w where
  notBoth := by simp [CodecCore.reset]
  codeDone := rfl
  codeRange := by rintro k ⟨⟩
  busyOp := rfl
  resultCode := by simp [CodecCore.reset]
  errAtCode := by simp [CodecCore.reset]
  errMarkerCode := by simp [CodecCore.reset]
  errLenCode := by simp [CodecCore.reset]
  errHaveCode := by simp [CodecCore.reset]
  errWantCode := by simp [CodecCore.reset]
  operandsFit := Operands.fits_empty w
  resultFits := by rintro v ⟨⟩
  errAtFits := by rintro v ⟨⟩
  errLenFits := by rintro v ⟨⟩
  errHaveFits := by rintro v ⟨⟩
  errWantFits := by rintro v ⟨⟩
  latchedFit := by rintro fl ⟨⟩
  working := by rintro fl ⟨⟩
  regionsFit := by rintro r ⟨⟩
  regionsApart := by rintro t ⟨⟩

/-- A completion with W-bit fields leaves a consistent core, whatever the core was doing (R27, R31). -/
theorem CodecCore.complete_ok {w : Nat} {c : CodecCore} {o : OpOutcome} (hc : c.operands.Fits w) (ho : o.Fits w) :
    (c.complete o).Ok w where
  notBoth := by simp
  codeDone := rfl
  codeRange := by rintro k ⟨⟩; exact o.code_le
  busyOp := rfl
  resultCode := by simp
  errAtCode := by simp
  errMarkerCode := by simp
  errLenCode := by simp
  errHaveCode := by simp
  errWantCode := by simp
  operandsFit := hc
  resultFits v hv := by cases o <;> cases hv; exact ho
  errAtFits v hv := by
    cases o <;> cases hv
    case zeroMarker => exact ho
    case zeroBinary => exact ho
    case chunkOverflow => exact ho.1
  errLenFits v hv := by cases o <;> cases hv; exact ho.2
  errHaveFits v hv := by cases o <;> cases hv; exact ho.1
  errWantFits v hv := by cases o <;> cases hv; exact ho.2
  latchedFit := by rintro fl ⟨⟩
  working := by rintro fl ⟨⟩
  regionsFit := by rintro r ⟨⟩
  regionsApart := by rintro t ⟨⟩

/-- Regions of a core that runs the transform `t`, or none. -/
theorem CodecCore.mem_runningRegions {c : CodecCore} {r : Nat × Nat} :
    r ∈ c.runningRegions ↔ ∃ t, c.runningTransfer = some t ∧ (r = (t.src, t.n) ∨ r = (t.dst, t.d)) := by
  unfold CodecCore.runningRegions
  cases c.runningTransfer <;> simp

/-- A started operation whose latched operands pass the checks of the CMD write leaves a consistent core (R31). -/
theorem CodecCore.start_ok {w : Nat} {c : CodecCore} {cmd : Byte} {l : Operands} (hc : c.operands.Fits w) (hl : l.Fits w)
    (hk : latchedOk w cmd l)
    (hr : ∀ t, (c.start cmd l).runningTransfer = some t →
      t.src + t.n ≤ 2 ^ w ∧ t.dst + t.d ≤ 2 ^ w ∧ overlaps t.src t.n t.dst t.d = false) :
    (c.start cmd l).Ok w where
  notBoth := by simp [Status.started]
  codeDone := rfl
  codeRange := by rintro k ⟨⟩
  busyOp := rfl
  resultCode := by simp [Status.started]
  errAtCode := by simp [Status.started]
  errMarkerCode := by simp [Status.started]
  errLenCode := by simp [Status.started]
  errHaveCode := by simp [Status.started]
  errWantCode := by simp [Status.started]
  operandsFit := hc
  resultFits := by rintro v ⟨⟩
  errAtFits := by rintro v ⟨⟩
  errLenFits := by rintro v ⟨⟩
  errHaveFits := by rintro v ⟨⟩
  errWantFits := by rintro v ⟨⟩
  latchedFit := by rintro fl ⟨⟩; exact hl
  working := by rintro fl ⟨⟩; exact ⟨hk, trivial⟩
  regionsFit r h := by
    obtain ⟨t, ht, rfl | rfl⟩ := CodecCore.mem_runningRegions.1 h
    · exact (hr t ht).1
    · exact (hr t ht).2.1
  regionsApart t ht := (hr t ht).2.2

/-- The operation in flight, at other working registers. -/
def CodecCore.working (c : CodecCore) (fl : InFlight) (k : Work) : CodecCore := { c with op := some { fl with work := k } }

theorem CodecCore.working_runningTransfer {c : CodecCore} {fl : InFlight} (h : c.op = some fl) (k : Work) :
    (c.working fl k).runningTransfer = c.runningTransfer := by
  simp only [CodecCore.runningTransfer, CodecCore.working, h]

/-- Working registers in their ranges leave a consistent core (R33 to R36). -/
theorem CodecCore.Ok.working_ok {w : Nat} {c : CodecCore} (h : c.Ok w) {fl : InFlight} (hop : c.op = some fl) {k : Work}
    (hk : ({ fl with work := k } : InFlight).WorkOk) : (c.working fl k).Ok w :=
  have hrun := CodecCore.working_runningTransfer hop k
  { h with
    busyOp := (congrArg Option.isSome hop).symm.trans h.busyOp
    latchedFit := by rintro _ ⟨⟩; exact h.latchedFit fl hop
    working := by rintro _ ⟨⟩; exact ⟨(h.working fl hop).latched, hk⟩
    regionsFit := by rw [CodecCore.runningRegions_congr hrun]; exact h.regionsFit
    regionsApart := by rw [hrun]; exact h.regionsApart }

/-- Operand registers play no part in the rest of a core (R38). -/
theorem CodecCore.Ok.operands_ok {w : Nat} {c : CodecCore} (h : c.Ok w) {o : Operands} (ho : o.Fits w) :
    ({ c with operands := o } : CodecCore).Ok w :=
  { h with operandsFit := ho }

/-- The destination region of a running transform is inside the address space, and its operands are W-bit values. -/
theorem CodecCore.Ok.running {w : Nat} {c : CodecCore} (h : c.Ok w) {t : Transfer} (ht : c.runningTransfer = some t) :
    t.src + t.n ≤ 2 ^ w ∧ t.dst + t.d ≤ 2 ^ w :=
  ⟨h.regionsFit (t.src, t.n) (CodecCore.mem_runningRegions.2 ⟨t, ht, .inl rfl⟩),
    h.regionsFit (t.dst, t.d) (CodecCore.mem_runningRegions.2 ⟨t, ht, .inr rfl⟩)⟩

/-! ### The machine -/

theorem State.Inv.core_ok {s : State} (h : s.Inv) : s.core.Ok s.plat.width := h.cores _ (State.mem_allCores.2 (.inl rfl))

theorem State.Inv.mem_ok {s : State} (h : s.Inv) : s.mem.Ok s.plat.width := ⟨h.memForm, h.memFits⟩

/-- Memory and the addressed core may change to consistent ones. -/
theorem State.Inv.of_frame {s u : State} (h : s.Inv) (hp : u.plat = s.plat) (hb : u.before = s.before) (ha : u.after = s.after)
    (hm : u.mem.Ok s.plat.width) (hc : u.core.Ok s.plat.width) : u.Inv where
  width := hp ▸ h.width
  memForm := hm.form
  memFits := hp ▸ hm.fits
  cores c hcs := by
    rw [hp]
    rcases State.mem_allCores.1 hcs with rfl | ho
    · exact hc
    · rw [State.others, hb, ha] at ho
      exact h.cores c (State.mem_allCores.2 (.inr ho))

/-- The schedule, the last reply and the free-value counter are no part of the invariant. -/
theorem State.Inv.with_own {s : State} (h : s.Inv) (es : List HostEvent) (r : Option Reply) (f : Nat) :
    ({ s with host := es, reply := r, fresh := f } : State).Inv :=
  h.of_frame rfl rfl rfl h.mem_ok h.core_ok

theorem State.Inv.drawn {s : State} (h : s.Inv) (f : Nat) : (s.drawn f).Inv := h.with_own _ _ _

theorem State.Inv.complete {s : State} (h : s.Inv) {o : OpOutcome} (ho : o.Fits s.plat.width) : (s.complete o).Inv :=
  h.of_frame rfl rfl rfl h.mem_ok (CodecCore.complete_ok h.core_ok.operandsFit ho)

theorem State.Inv.settle {s : State} (h : s.Inv) {t : Transfer} {o : OpOutcome} {m : Memory} (ho : o.Fits s.plat.width)
    (hm : m.Ok s.plat.width) (ht : t.dst + t.d ≤ 2 ^ s.plat.width) : (s.settle t o m).Inv :=
  h.of_frame (by simp) (by simp) (by simp) (hm.settle s o ht) (by
    rw [State.settle_core]; exact CodecCore.complete_ok h.core_ok.operandsFit ho)

theorem State.Inv.working {s : State} (h : s.Inv) {fl : InFlight} (hop : s.core.op = some fl) {m : Memory} {k : Work}
    (hm : m.Ok s.plat.width) (hk : ({ fl with work := k } : InFlight).WorkOk) : (s.working m fl k).Inv :=
  h.of_frame rfl rfl rfl hm (h.core_ok.working_ok hop hk)

/-! ### A command as one transition -/

theorem State.Inv.readLength_lt {s : State} (h : s.Inv) {n f : Nat} (hn : s.core.operands.readLength s.plat.width s.fresh = (n, f)) :
    n < 2 ^ s.plat.width := by
  have hg := s.core.operands.readLength_gives s.plat.width s.fresh
  rw [hn] at hg
  cases hl : s.core.operands.srcLen with
  | none => exact hg.2 hl
  | some v => rw [← show v = n from hg.1 v hl]; exact h.core_ok.operandsFit.srcLen v hl

theorem State.Inv.readTransfer_fits {s : State} (h : s.Inv) {t : Transfer} {f : Nat}
    (ht : s.core.operands.readTransfer s.plat.width s.fresh = (t, f)) : t.operands.Fits s.plat.width := by
  have hg := s.core.operands.readTransfer_gives s.plat.width s.fresh
  rw [ht] at hg
  exact hg.fits h.core_ok.operandsFit

/-- A command's completion keeps the invariant. -/
theorem ExecNext.inv {s u : State} {i : Instr} (hs : s.Inv) (h : ExecNext s i u) : u.Inv := by
  cases h with
  | enccap n f hn hw => exact (hs.drawn f).complete hw
  | deccap n f hn => exact (hs.drawn f).complete (deccapOutcome_fits (hs.readLength_lt hn))
  | encSmall t f ht ha hw hd => exact (hs.drawn f).complete ⟨(hs.readTransfer_fits ht).dstLen _ rfl, hw⟩
  | encode i hi t f ht ha hw hd =>
    exact (hs.drawn f).settle (Nat.lt_of_le_of_lt (encodeCore_le t s.mem) hw) (hs.mem_ok.encodeCore ha.dstFits hd) ha.dstFits
  | decEmpty i hi t f ht ha hn => exact (hs.drawn f).complete trivial
  | decSmall t f ht ha hn hd =>
    have hf := hs.readTransfer_fits ht
    exact (hs.drawn f).complete ⟨hf.dstLen _ rfl, Nat.lt_of_le_of_lt (Nat.sub_le _ _) (hf.srcLen _ rfl)⟩
  | decode i hi t f ht ha hn hd o m he =>
    exact (hs.drawn f).settle ((decodeCore_ended hn he).fits ((hs.readTransfer_fits ht).srcLen _ rfl))
      (hs.mem_ok.decodeCore ha.dstFits hn hd he) ha.dstFits

theorem writeCmd_inv {c : Byte} {s u : State} (hs : s.Inv) (h : writeCmd c s = .next u) : u.Inv := by
  rcases writeCmd_next h with ⟨i, -, hx⟩ | ⟨-, -, rfl⟩
  · exact (exec_next hx).inv hs
  · exact hs.complete trivial

/-! ### The start of an operation -/

/-- The lengths a CMD write latches pass its checks: what they leave of the invariant of an operation in flight (R125 step 1). -/
theorem latchedOk_of_lengthFault {i : Instr} {s : State} {c : Byte} {n : Nat} {o : Operands} (hc : decodeCmd c = some i)
    (hi : i.isTransform = false) (hv : lengthFault i s n = none) (ho : o.srcLen = some n) : latchedOk s.plat.width c o := by
  unfold latchedOk
  rw [hc]
  cases i <;> cases hi
  case enccap => exact ⟨n, ho, capacityFault_eq_none.1 hv⟩
  case deccap => exact ⟨n, ho⟩

theorem latchedOk_of_transferFault {i : Instr} {s : State} {c : Byte} {t : Transfer} (hc : decodeCmd c = some i)
    (hi : i.isTransform = true) (hv : transferFault i s t = none) : latchedOk s.plat.width c t.operands := by
  unfold latchedOk
  rw [hc]
  cases i <;> cases hi
  case enc => exact ⟨t, rfl, (encFault_eq_none.1 hv).2⟩
  case encu => exact ⟨t, rfl, (encuFault_eq_none.1 hv).2⟩
  case dec => exact ⟨t, rfl⟩
  case decu => exact ⟨t, rfl, (decuFault_eq_none.1 hv).2⟩

theorem IssueNext.core_ok {s u : State} {c : Byte} (hs : s.Inv) (h : IssueNext s c u) : u.core.Ok s.plat.width := by
  have hf := hs.core_ok.operandsFit
  cases h with
  | illegal hc =>
    refine CodecCore.start_ok hf hf (by simp [latchedOk, hc]) fun t ht => ?_
    simp [CodecCore.start_runningTransfer, hc] at ht
  | sizing i hc hi n f hn hv =>
    refine CodecCore.start_ok hf { hf with srcLen := ?_ } (latchedOk_of_lengthFault hc hi hv rfl) fun t ht => ?_
    · rintro v ⟨⟩; exact hs.readLength_lt hn
    · simp [CodecCore.start_runningTransfer, hc, hi] at ht
  | transform i hc hi t f ht hv =>
    refine CodecCore.start_ok hf (hs.readTransfer_fits ht) (latchedOk_of_transferFault hc hi hv) fun t' ht' => ?_
    simp only [CodecCore.start_runningTransfer, hc, hi, if_true, Transfer.operands_transfer, Option.some.injEq] at ht'
    subst ht'
    have ha := transferFault_admitted hi hv
    exact ⟨ha.srcFits, ha.dstFits, overlaps_eq_false.2 ha.disjoint⟩

theorem issueCmd_inv {c : Byte} {s u : State} (hs : s.Inv) (h : issueCmd c s = .next u) : u.Inv := by
  have hn := (issueCmd_next h).2
  have hc := hn.core_ok hs
  cases hn <;> exact hs.of_frame rfl rfl rfl hs.mem_ok hc

/-! ### One core step -/

theorem latchedOk.transfer {w : Nat} {c : Byte} {o : Operands} (h : latchedOk w c o) {i : Instr} (hc : decodeCmd c = some i)
    (hi : i.isTransform = true) : ∃ t, o.transfer = some t := by
  unfold latchedOk at h
  rw [hc] at h
  cases i <;> cases hi
  case dec => exact h
  all_goals exact h.imp fun t ht => ht.1

/-- The addressed core runs the transform `t`: what the invariant says of it. -/
structure State.Runs (s : State) (fl : InFlight) (t : Transfer) : Prop where
  latched : fl.latched.transfer = some t
  running : s.core.runningTransfer = some t
  fits : t.operands.Fits s.plat.width
  dstFits : t.dst + t.d ≤ 2 ^ s.plat.width

/-- A transform in flight reads its latched operands, and they are those of its regions (R38). -/
theorem State.Inv.runs {s : State} (hs : s.Inv) {fl : InFlight} (hop : s.core.op = some fl) {i : Instr}
    (hc : decodeCmd fl.cmd = some i) (hi : i.isTransform = true) : ∃ t, s.Runs fl t := by
  obtain ⟨t, ht⟩ := (hs.core_ok.working fl hop).latched.transfer hc hi
  have hr : s.core.runningTransfer = some t := by simp [CodecCore.runningTransfer, hop, hc, hi, ht]
  exact ⟨t, ht, hr, Operands.eq_operands ht ▸ hs.core_ok.latchedFit fl hop, (hs.core_ok.running hr).2⟩

theorem State.Inv.runs_of_read {s : State} (hs : s.Inv) {fl : InFlight} (hop : s.core.op = some fl) {i : Instr}
    (hc : decodeCmd fl.cmd = some i) (hi : i.isTransform = true) {t : Transfer} {f : Nat}
    (ht : fl.latched.readTransfer s.plat.width s.fresh = (t, f)) : s.Runs fl t := by
  obtain ⟨t', h⟩ := hs.runs hop hc hi
  rw [Operands.readTransfer_of_some _ _ h.latched] at ht
  cases ht
  exact h

/-- The capacity of an encoder in flight is a W-bit value, and ENCU's destination has it (R75, R124). -/
theorem State.Inv.capacity {s : State} (hs : s.Inv) {fl : InFlight} (hop : s.core.op = some fl) {t : Transfer}
    (ht : fl.latched.transfer = some t) (hc : decodeCmd fl.cmd = some .enc ∨ decodeCmd fl.cmd = some .encu) :
    encodeCapacity t.n < 2 ^ s.plat.width ∧ (decodeCmd fl.cmd = some .encu → encodeCapacity t.n ≤ t.d) := by
  have hl := (hs.core_ok.working fl hop).latched
  unfold latchedOk at hl
  rcases hc with hc | hc <;> rw [hc] at hl ⊢
  · obtain ⟨t', ht', hw⟩ := hl
    cases ht.symm.trans ht'
    exact ⟨hw, nofun⟩
  · obtain ⟨t', ht', hw, hd⟩ := hl
    cases ht.symm.trans ht'
    exact ⟨hw, fun _ => hd⟩

/-- The encoder `fl` of the addressed core is past its checks on the operands `t` (R83). -/
structure State.Encodes (s : State) (fl : InFlight) (t : Transfer) : Prop where
  runs : s.Runs fl t
  cmd : decodeCmd fl.cmd = some .enc ∨ decodeCmd fl.cmd = some .encu
  fits : encodeCapacity t.n < 2 ^ s.plat.width
  room : encodeCapacity t.n ≤ t.d

/-- The decoder `fl` of the addressed core is past its checks on the operands `t` (R96). -/
structure State.Decodes (s : State) (fl : InFlight) (t : Transfer) : Prop where
  runs : s.Runs fl t
  cmd : decodeCmd fl.cmd = some .dec ∨ decodeCmd fl.cmd = some .decu
  nonempty : 1 ≤ t.n
  room : t.n ≤ t.d + 1

section
variable {s : State} (hs : s.Inv) {fl : InFlight} (hop : s.core.op = some fl) {t : Transfer} {f : Nat}
  (ht : fl.latched.readTransfer s.plat.width s.fresh = (t, f))
include hs hop ht

/-- The first core step of ENC and ENCU goes on with a destination of the capacity (R87). -/
theorem State.Inv.encodes_first (hc : decodeCmd fl.cmd = some .enc ∧ encodeCapacity t.n ≤ t.d ∨ decodeCmd fl.cmd = some .encu) :
    s.Encodes fl t := by
  rcases hc with ⟨hc, hd⟩ | hc
  · have hr := hs.runs_of_read hop hc rfl ht
    exact ⟨hr, .inl hc, (hs.capacity hop hr.latched (.inl hc)).1, hd⟩
  · have hr := hs.runs_of_read hop hc rfl ht
    obtain ⟨hcap, hd⟩ := hs.capacity hop hr.latched (.inr hc)
    exact ⟨hr, .inr hc, hcap, hd hc⟩

/-- The encoder's working registers are those of an encoder past its checks. -/
theorem State.Inv.encodes_next {e : EncRegs} (hw : fl.work = .encoding e) : s.Encodes fl t ∧ 1 ≤ t.n ∧ e.Ok t := by
  have hk := (hs.core_ok.working fl hop).work
  unfold InFlight.WorkOk at hk
  rw [hw] at hk
  obtain ⟨t', ht', hc, hn, hd, he⟩ := hk
  cases (Operands.readTransfer_of_some _ _ ht').symm.trans ht
  have hr : s.Runs fl t := by
    rcases hc with hc | hc <;> exact hs.runs_of_read hop hc rfl ht
  exact ⟨⟨hr, hc, (hs.capacity hop ht' hc).1, hd⟩, hn, he⟩

/-- The first core step of DEC and DECU walks a frame that is not empty, with room for its payload (R101). -/
theorem State.Inv.decodes_first (hc : decodeCmd fl.cmd = some .dec ∧ t.n ≤ t.d + 1 ∨ decodeCmd fl.cmd = some .decu) (hn : 1 ≤ t.n) :
    s.Decodes fl t := by
  rcases hc with ⟨hc, hd⟩ | hc
  · exact ⟨hs.runs_of_read hop hc rfl ht, .inl hc, hn, hd⟩
  · have hr := hs.runs_of_read hop hc rfl ht
    have hl := (hs.core_ok.working fl hop).latched
    simp only [latchedOk, hc] at hl
    obtain ⟨t', ht', hd⟩ := hl
    cases hr.latched.symm.trans ht'
    exact ⟨hr, .inr hc, hn, hd⟩

/-- The decoder's working registers are those of a decoder past its checks. -/
theorem State.Inv.decodes_next {d : DecRegs} (hw : fl.work = .decoding d) : s.Decodes fl t ∧ d.Ok t := by
  have hk := (hs.core_ok.working fl hop).work
  unfold InFlight.WorkOk at hk
  rw [hw] at hk
  obtain ⟨t', ht', hc, hn, hroom, hd⟩ := hk
  cases (Operands.readTransfer_of_some _ _ ht').symm.trans ht
  have hr : s.Runs fl t := by
    rcases hc with hc | hc <;> exact hs.runs_of_read hop hc rfl ht
  exact ⟨⟨hr, hc, hn, hroom⟩, hd⟩

end

/-- A step of the walk keeps the invariant, whether the walk goes on or ends (R96). -/
theorem State.Inv.afterWalk {s : State} (hs : s.Inv) {fl : InFlight} (hop : s.core.op = some fl) {t : Transfer}
    (hd : s.Decodes fl t) {w : Walk} (hw : w.Ok t) (hm : w.mem.Ok s.plat.width) (f : Nat) : ((s.drawn f).afterWalk t w).Inv := by
  have hr := hd.runs
  rw [State.afterWalk_eq (s := s.drawn f) hop]
  cases w with
  | running d m => exact (hs.drawn f).working hop hm ⟨t, hr.latched, hd.cmd, hd.nonempty, hd.room, hw⟩
  | ended o m => exact (hs.drawn f).settle (hw.fits (hr.fits.srcLen _ rfl)) hm hr.dstFits

theorem encEmpty_eq_encodeCore {t : Transfer} (h : t.n = 0) (m : Memory) : encEmpty t m = encodeCore t m :=
  (if_pos h).symm

/-- A core step keeps the invariant. -/
theorem CoreNext.inv {s u : State} (hs : s.Inv) (h : CoreNext s u) : u.Inv := by
  cases h with
  | idle h => exact hs
  | illegal fl h hw hc => exact hs.complete trivial
  | enccap fl h hw hc n f hn =>
    have hl := (hs.core_ok.working fl h).latched
    simp only [latchedOk, hc] at hl
    obtain ⟨n', hn', hcap⟩ := hl
    cases (Operands.readLength_of_some _ _ hn').symm.trans hn
    exact (hs.drawn _).complete hcap
  | deccap fl h hw hc n f hn =>
    have hl := (hs.core_ok.working fl h).latched
    simp only [latchedOk, hc] at hl
    obtain ⟨n', hn'⟩ := hl
    cases (Operands.readLength_of_some _ _ hn').symm.trans hn
    exact (hs.drawn _).complete (deccapOutcome_fits ((hs.core_ok.latchedFit fl h).srcLen _ hn'))
  | encSmall fl h hw hc t f ht hd =>
    have hr := hs.runs_of_read h hc rfl ht
    exact (hs.drawn f).complete ⟨hr.fits.dstLen _ rfl, (hs.capacity h hr.latched (.inl hc)).1⟩
  | encEmpty fl h hw t f ht hc hn =>
    have he := hs.encodes_first h ht hc
    rw [encEmpty_eq_encodeCore hn]
    exact (hs.drawn f).settle (Nat.lt_of_le_of_lt (encodeCore_le t s.mem) he.fits) (hs.mem_ok.encodeCore he.runs.dstFits he.room)
      he.runs.dstFits
  | encStart fl h hw t f ht hc hn =>
    have he := hs.encodes_first h ht hc
    exact (hs.drawn f).working h hs.mem_ok ⟨t, he.runs.latched, he.cmd, hn, he.room, encInit_ok t⟩
  | encByte fl h e hw t f ht hi =>
    obtain ⟨he, hn, hok⟩ := hs.encodes_next h ht hw
    exact (hs.drawn f).working h (hs.mem_ok.encByteStep he.runs.dstFits he.room hok hi)
      ⟨t, he.runs.latched, he.cmd, hn, he.room, encByteStep_ok s.mem hok hi⟩
  | encFinal fl h e hw t f ht hi =>
    obtain ⟨he, -, hok⟩ := hs.encodes_next h ht hw
    have hlen : (encFinalize t e s.mem).1 < 2 ^ s.plat.width := by
      have hc := hok.cursor_lt.1
      have hle := encFinalize_le t e s.mem
      have hw := he.fits
      omega
    exact (hs.drawn f).settle hlen (hs.mem_ok.encFinalize he.runs.dstFits he.room hok) he.runs.dstFits
  | decEmpty fl h hw hc t f ht hn => exact (hs.drawn f).complete trivial
  | decSmall fl h hw hc t f ht hn hd =>
    have hr := hs.runs_of_read h hc rfl ht
    exact (hs.drawn f).complete ⟨hr.fits.dstLen _ rfl, Nat.lt_of_le_of_lt (Nat.sub_le _ _) (hr.fits.srcLen _ rfl)⟩
  | decStart fl h hw t f ht hc hn =>
    have hd := hs.decodes_first h ht hc hn
    exact hs.afterWalk h hd (decFirst_ok s.mem hn) (by rw [decFirst_mem]; exact hs.mem_ok) f
  | decWalk fl h d hw t f ht =>
    obtain ⟨hd, hok⟩ := hs.decodes_next h ht hw
    exact hs.afterWalk h hd (decStep_ok s.mem hok) (hs.mem_ok.decStep hd.runs.dstFits hd.room hok) f

/-! ### One step -/

/-- A reset of the addressed core makes an abandoned destination unspecified and touches nothing else (R136, R137). -/
theorem resetCore_inv {s : State} (hs : s.Inv) : (resetCore s).Inv := by
  refine hs.of_frame (resetCore_plat s) (resetCore_before s) (resetCore_after s) ?_ (CodecCore.reset_ok _)
  unfold resetCore
  cases hr : s.core.runningTransfer with
  | none => exact hs.mem_ok
  | some t => exact hs.mem_ok.scramble (hs.core_ok.running hr).2 s.fresh

theorem selectCore_inv {k : Nat} {s u : State} (hs : s.Inv) (h : selectCore k s = .next u) : u.Inv := by
  obtain ⟨hp, hc, hm, -, -, -⟩ := selectCore_next h
  exact ⟨hp ▸ hs.width, hm ▸ hs.memForm, by rw [hp, hm]; exact hs.memFits, by rw [hp, hc]; exact hs.cores⟩

/-- Whatever the outside world does keeps the invariant. -/
theorem HostNext.inv {s u : State} (hs : s.Inv) (h : HostNext s u) : u.Inv := by
  cases h with
  | reply r f => exact hs.with_own _ _ _
  | command c u h => exact writeCmd_inv hs h
  | operands o hb ho => exact hs.of_frame rfl rfl rfl hs.mem_ok (hs.core_ok.operands_ok (ho hs.core_ok.operandsFit))
  | ignored => exact hs
  | started c u h => exact issueCmd_inv hs h
  | core u h => exact (coreStep_next h).inv hs
  | memWrite a v ha => exact hs.of_frame rfl rfl rfl (hs.mem_ok.write ha v) hs.core_ok
  | reset => exact resetCore_inv hs
  | select k u h => exact selectCore_inv hs h

/-- Settles O45: each thing a step can do keeps memory in form and inside the address space, and the cores consistent. -/
theorem invariantIsKept : Obligations.InvariantIsKept := by
  intro s u hs h
  rcases step_next h with ⟨es, f, hn⟩ | ⟨es, r, f, rfl | hc⟩
  · exact hn.inv (hs.with_own es s.reply f)
  · exact hs.with_own es r f
  · exact (coreStep_next hc).inv (hs.with_own es r f)

end Sys2Proof.Machine
end

section
/-! SUPPORT. The host's register accesses by number (10_state.md R23 to R30): a read returns the value a register holds, or is the fault of
R28; a write reaches the operand registers of an idle core and no read-only register. -/

namespace Sys2Proof.Machine

/-! ### Reads -/

/-- What a register other than STATUS holds; CMD holds no value at any time (R22, R28). -/
def CodecCore.held (c : CodecCore) : Reg → Option Nat
  | .cmd => none
  | .status => none
  | .srcBase => c.operands.srcBase
  | .srcLen => c.operands.srcLen
  | .dstBase => c.operands.dstBase
  | .dstLen => c.operands.dstLen
  | .result => c.result
  | .errAt => c.errAt
  | .errMarker => c.errMarker.map (·.toNat)
  | .errLen => c.errLen
  | .errHave => c.errHave
  | .errWant => c.errWant

theorem State.regValue_eq_held (s : State) {r : Reg} (hr : r ≠ .status) : s.regValue r = (s.core.held r).map fun v => (v, s.fresh) := by
  cases r
  case status => exact absurd rfl hr
  case errMarker => simp [State.regValue, CodecCore.held, Function.comp_def]
  all_goals rfl

/-- STATUS always reads (R23). -/
theorem hostRead_status (s : State) :
    hostRead 0x1#4 16 s = .next { s with reply := some (.value s.statusRead.1.toNat), fresh := s.statusRead.2 } := rfl

section
variable {s : State} {k : BitVec 4} {r : Reg} (hk : Reg.ofNumber k = some r) (hr : r ≠ .status)
include hk hr

/-- A whole read of a register that holds a value returns it and changes only the reply (R26). -/
theorem hostRead_held {v : Nat} (h : s.core.held r = some v) :
    hostRead k (r.width s.plat.width) s = .next { s with reply := some (.value v) } := by
  have hv : s.regValue r = some (v, s.fresh) := by rw [State.regValue_eq_held s hr, h]; rfl
  rw [hostRead_whole hk, readReg_some hv]

/-- A whole read of a register that holds no value (R28). -/
theorem hostRead_empty (h : s.core.held r = none) : hostRead k (r.width s.plat.width) s = .fault .readNoValue := by
  have hv : s.regValue r = none := by rw [State.regValue_eq_held s hr, h]; rfl
  rw [hostRead_whole hk, readReg, hv]

end

/-- After reset no register holds a value but STATUS (R136). -/
theorem CodecCore.held_reset (r : Reg) : CodecCore.reset.held r = none := by
  cases r <;> rfl

/-! ### The STATUS word -/

theorem toNat_append_eq {n m : Nat} (x : BitVec n) (y : BitVec m) : (x ++ y).toNat = x.toNat * 2 ^ m + y.toNat := by
  rw [BitVec.toNat_append, ← Nat.shiftLeft_add_eq_or_of_lt y.isLt, Nat.shiftLeft_eq]

/-- The STATUS word as a number: its fields at the bits of R23. -/
theorem Status.word_toNat (st : Status) (free : Byte) :
    (st.word free).toNat = 512 * st.done.toNat + 256 * st.busy.toNat + (st.codeField free).toNat := by
  simp only [Status.word, toNat_append_eq, BitVec.toNat_ofBool, BitVec.toNat_ofNat]
  omega

/-! ### Writes -/

theorem writeOperands_idle {s : State} (h : s.core.status.busy = false) (o : Operands) :
    writeOperands o s = .next { s with core := { s.core with operands := o } } := by
  simp [writeOperands, h]

theorem writeOperands_busy {s : State} (h : s.core.status.busy = true) (o : Operands) :
    writeOperands o s = .fault .operandWriteWhileBusy := by
  simp [writeOperands, h]

/-- A register whose write sets the operand registers to `o`, where it then holds the value, reads back as written (R24). -/
theorem operand_readBack {s : State} {k : BitVec 4} {r : Reg} {o : Operands} (hk : Reg.ofNumber k = some r) (hr : r ≠ .status)
    (hb : s.core.status.busy = false) (v : BitVec (r.width s.plat.width)) (hw : writeReg r v.toNat s = writeOperands o s)
    (ho : ({ s.core with operands := o } : CodecCore).held r = some v.toNat) :
    ∃ u, hostWrite k (r.width s.plat.width) v s = .next u ∧ u = { s with core := { s.core with operands := o } } ∧
      hostRead k (r.width s.plat.width) u = .next { u with reply := some (.value v.toNat) } :=
  ⟨_, by rw [hostWrite_whole hk, hw, writeOperands_idle hb], rfl,
    hostRead_held (s := { s with core := { s.core with operands := o } }) hk hr ho⟩

/-! ### The statements -/

/-- Settles O52: no register has a number from 0xC on. -/
theorem reservedRegistersFault : Obligations.ReservedRegistersFault := by
  intro s k bits v hk
  have hr : Reg.ofNumber k = none := List.getElem?_eq_none hk
  simp [hostRead, hostWrite, hr]

/-- Settles O53: a whole write reaches no read-only register. -/
theorem readOnlyWritesAreIgnored : Obligations.ReadOnlyWritesAreIgnored := by
  intro s v16 v8 v
  refine ⟨hostWrite_whole (r := .status) rfl s v16, hostWrite_whole (r := .errMarker) rfl s v8, fun k hk => ?_⟩
  simp only [List.mem_cons, List.not_mem_nil, or_false] at hk
  rcases hk with rfl | rfl | rfl | rfl | rfl
  · exact hostWrite_whole (r := .result) rfl s v
  · exact hostWrite_whole (r := .errAt) rfl s v
  · exact hostWrite_whole (r := .errLen) rfl s v
  · exact hostWrite_whole (r := .errHave) rfl s v
  · exact hostWrite_whole (r := .errWant) rfl s v

/-- Settles O49: the write stores the value in its operand register, and the read finds it there. -/
theorem operandsReadBackAsWritten : Obligations.OperandsReadBackAsWritten := fun _ v hb =>
  ⟨operand_readBack (r := .srcBase) rfl nofun hb v rfl rfl, operand_readBack (r := .srcLen) rfl nofun hb v rfl rfl,
    operand_readBack (r := .dstBase) rfl nofun hb v rfl rfl, operand_readBack (r := .dstLen) rfl nofun hb v rfl rfl⟩

/-- Settles O50: the fields are digits of the STATUS word, and the invariant ties CODE and the flags. -/
theorem statusAlwaysReads : Obligations.StatusAlwaysReads := by
  intro s hs
  have hc := hs.core_ok
  refine ⟨⟨_, _, hostRead_status s, ?_⟩, hc.notBoth, by rw [hc.codeDone], fun v => hostWrite_whole (r := .status) rfl s v⟩
  have hlt := (s.core.status.codeField (Config.freeCode s.fresh)).isLt
  have hdone := s.core.status.done.toNat_le
  have hbusy := s.core.status.busy.toNat_le
  rw [State.statusRead, Status.word_toNat]
  refine ⟨by omega, by omega, by omega, fun k hk => ?_⟩
  have hfield : s.core.status.codeField (Config.freeCode s.fresh) = k := by simp [Status.codeField, hk]
  rw [hfield] at hlt ⊢
  omega

/-- Settles O29: a completion writes the row of its code, and a register that holds a value reads as it. -/
theorem resultRegistersOfEachCode : Obligations.ResultRegistersOfEachCode := by
  refine ⟨fun c s u h => ?_, fun s v => ⟨fun h => ?_, fun h => ?_, fun m h => ?_, fun h => ?_, fun h => ?_, fun h => ?_⟩⟩
  · obtain ⟨o, hc, -⟩ := writeCmd_completed h
    refine ⟨o.code, by rw [hc.status], ?_, ?_, ?_, ?_, ?_, ?_⟩
    · rw [hc.result, o.result_isSome]
    · rw [hc.errHave, Option.isSome_map, o.tooSmall_isSome]
    · rw [hc.errWant, Option.isSome_map, o.tooSmall_isSome]
    · rw [hc.errAt, o.errAt_isSome]
    · rw [hc.errMarker, Option.isSome_map, o.overflow_isSome]
    · rw [hc.errLen, Option.isSome_map, o.overflow_isSome]
  · exact hostRead_held (r := .result) rfl nofun h
  · exact hostRead_held (r := .errAt) rfl nofun h
  · exact hostRead_held (r := .errMarker) rfl nofun (congrArg (Option.map BitVec.toNat) h)
  · exact hostRead_held (r := .errLen) rfl nofun h
  · exact hostRead_held (r := .errHave) rfl nofun h
  · exact hostRead_held (r := .errWant) rfl nofun h

/-- An `Option` register that does not hold a value under R27's row holds none. -/
theorem eq_none_of_isSome_iff {α : Type} {x : Option α} {p : Prop} (h : x.isSome = true ↔ p) (hp : ¬ p) : x = none := by
  cases x with
  | none => rfl
  | some a => exact absurd (h.1 rfl) hp

/-- Settles O51: CMD holds nothing, reset empties every register but STATUS, and a completion those outside the row of its code. -/
theorem readWithoutValueFaults : Obligations.ReadWithoutValueFaults := by
  refine ⟨fun s => hostRead_empty (r := .cmd) rfl nofun rfl,
    fun s k r h hk hr => hostRead_empty hk hr (h ▸ CodecCore.held_reset r),
    fun s => ⟨fun h => ?_, fun h => ?_, fun h => ?_, fun h => ?_⟩, fun c s u h => ?_, fun s => ⟨_, hostRead_status s⟩⟩
  · exact hostRead_empty (r := .srcBase) rfl nofun h
  · exact hostRead_empty (r := .srcLen) rfl nofun h
  · exact hostRead_empty (r := .dstBase) rfl nofun h
  · exact hostRead_empty (r := .dstLen) rfl nofun h
  · obtain ⟨k, hk, hres, hhave, hwant, hat, hmark, hlen⟩ := resultRegistersOfEachCode.1 c s u h
    rw [hk]
    simp only [ne_eq, Option.some.injEq, List.mem_cons, List.not_mem_nil, or_false]
    refine ⟨fun hn => ?_, fun hn => ?_, fun hn => ⟨?_, ?_⟩, fun hn => ⟨?_, ?_⟩⟩
    · exact hostRead_empty (r := .result) rfl nofun (eq_none_of_isSome_iff hres hn)
    · exact hostRead_empty (r := .errAt) rfl nofun (eq_none_of_isSome_iff hat hn)
    · exact hostRead_empty (r := .errMarker) rfl nofun (congrArg (Option.map BitVec.toNat) (eq_none_of_isSome_iff hmark hn))
    · exact hostRead_empty (r := .errLen) rfl nofun (eq_none_of_isSome_iff hlen hn)
    · exact hostRead_empty (r := .errHave) rfl nofun (eq_none_of_isSome_iff hhave hn)
    · exact hostRead_empty (r := .errWant) rfl nofun (eq_none_of_isSome_iff hwant hn)

end Sys2Proof.Machine
end

section
/-! SUPPORT. What a step runs (10_state.md R25; log entries 6, 17, 19): the next event of the schedule, or the idle step. -/

namespace Sys2Proof.Machine

theorem step_event {s : State} {e : HostEvent} {rest : List HostEvent} (h : s.host = e :: rest) : step s = hostEvent e rest s := by
  rw [step, h]

theorem step_unscheduled {s : State} (h : s.host = []) : step s = idleStep s := by
  rw [step, h]

/-- A host write of a word to CMD runs that word. -/
theorem hostWrite_cmd (c : Byte) (s : State) : hostWrite 0x0#4 8 c s = writeCmd c s := by
  refine (hostWrite_whole (r := .cmd) rfl s c).trans ?_
  exact congrArg (writeCmd · s) ((BitVec.ofNat_toNat 8 c).trans (BitVec.setWidth_eq c))

theorem step_cmdWrite {s : State} {c : Byte} {rest : List HostEvent} (h : s.host = .write 0x0#4 8 c :: rest) :
    step s = writeCmd c { s with host := rest } :=
  (step_event h).trans (hostWrite_cmd c _)

theorem writeCmd_legal {c : Byte} {i : Instr} (h : decodeCmd c = some i) (s : State) : writeCmd c s = exec i s := by
  rw [writeCmd, h]

theorem writeCmd_illegal {c : Byte} (h : decodeCmd c = none) (s : State) : writeCmd c s = execIllegal s := by
  rw [writeCmd, h]

/-- A poll reads STATUS: with DONE = 1 that is all (R70). -/
theorem pollStatus_done {s : State} (h : s.core.status.done = true) (rest : List HostEvent) :
    pollStatus rest s = hostRead 0x1#4 16 { s with host := rest } := if_pos h

/-- With DONE = 0 the poll stays next, and the core takes a step (log entry 19). -/
theorem pollStatus_notDone {s : State} (h : s.core.status.done = false) (rest : List HostEvent) :
    ∃ u, hostRead 0x1#4 16 s = .next u ∧ pollStatus rest s = coreStep u :=
  ⟨_, hostRead_status s, if_neg (by simp [h])⟩

theorem firstBusy_eq_none {s : State} (h : ∀ c ∈ s.allCores, c.status.busy = false) : s.firstBusy = none :=
  List.findIdx?_eq_none_iff.2 h

/-- The first busy core is the one with no busy core before it. -/
theorem firstBusy_eq_some {s : State} {k : Nat} {c : CodecCore} (hk : s.allCores[k]? = some c) (hc : c.status.busy = true)
    (hd : ∀ d ∈ s.allCores.take k, d.status.busy = false) : s.firstBusy = some k := by
  obtain ⟨hlt, rfl⟩ := List.getElem?_eq_some_iff.1 hk
  refine List.findIdx?_eq_some_iff_getElem.2 ⟨hlt, hc, fun j hj => ?_⟩
  have hmem : s.allCores[j] ∈ s.allCores.take k := List.mem_take_iff_getElem.2 ⟨j, by omega, rfl⟩
  simp [hd _ hmem]

theorem decodeCmd_of_tableWord {w : Nat} {i : Instr} (h : decodeTableWord 8 w = some i) : decodeCmd (BitVec.ofNat 8 w) = some i := by
  unfold decodeTableWord at h
  split at h
  · exact h
  · cases h

/-- Settles O4: each event is `hostEvent`'s arm for it, and with nothing scheduled `idleStep` looks for a busy core. -/
theorem stepRunsTheNextEvent : Obligations.StepRunsTheNextEvent := by
  refine ⟨fun s c rest i h hc => ?_, fun s c rest h hc => ?_, fun s w i h => ?_, fun s rest => ?_, fun s h => ?_⟩
  · rw [step_cmdWrite h, writeCmd_legal hc]
  · rw [step_cmdWrite h, writeCmd_illegal hc]
  · have hhost : (s.withFetchWord 8 w).host = .write 0x0#4 8 (BitVec.ofNat 8 w) :: s.host := rfl
    rw [step_cmdWrite hhost, writeCmd_legal (decodeCmd_of_tableWord h)]
    rfl
  · refine ⟨fun k bits h => step_event h, fun k bits v h => step_event h, fun c h => step_event h, fun a count h => step_event h,
      fun a bs h => step_event h, fun h => step_event h, fun a h => step_event h, fun a b h => step_event h, fun k h => step_event h,
      fun h => step_event h, fun h hd => (step_event h).trans (pollStatus_done hd rest), fun h hd => ?_⟩
    rw [step_event h]
    exact pollStatus_notDone hd rest
  · rw [step_unscheduled h]
    unfold idleStep
    refine ⟨fun hb => if_pos hb, fun hidle => ?_, fun hb k c hk hc hd => ?_⟩
    · have hb : s.core.status.busy = false := hidle _ (State.mem_allCores.2 (.inl rfl))
      simp [hb, firstBusy_eq_none hidle]
    · simp [hb, firstBusy_eq_some hk hc hd]

end Sys2Proof.Machine
end

section
/-! SUPPORT. The frame of a command (20_memory.md R41, R42): what its completion leaves of memory. -/

namespace Sys2Proof.Machine

/-- The walk ends with OK or an error of the frame, never with EMPTY_INPUT or BUFFER_TOO_SMALL (R107, R116 to R118). -/
theorem Walk.Ok.code_ne {t : Transfer} {o : OpOutcome} {m : Memory} (h : (Walk.ended o m).Ok t) : o.code ≠ 0x01#8 ∧ o.code ≠ 0x02#8 := by
  cases o
  case emptyInput => exact h.elim
  case bufferTooSmall => exact h.elim
  all_goals simp [OpOutcome.code]

/-- Memory stays for a sizing command and after EMPTY_INPUT and BUFFER_TOO_SMALL (R41, R53). -/
theorem ExecNext.mem_kept {s u : State} {i : Instr} (h : ExecNext s i u)
    (hk : i.isTransform = false ∨ u.core.status.code = some 0x01#8 ∨ u.core.status.code = some 0x02#8) : u.mem = s.mem := by
  cases h with
  | enccap n f hn hw => rfl
  | deccap n f hn => rfl
  | encSmall t f ht ha hw hd => rfl
  | encode i hi t f ht ha hw hd => rcases hi with rfl | rfl <;> simp [Instr.isTransform, OpOutcome.code] at hk
  | decEmpty i hi t f ht ha hn => rfl
  | decSmall t f ht ha hn hd => rfl
  | decode i hi t f ht ha hn hd o m he =>
    have hc := (decodeCore_ended hn he).code_ne
    rcases hi with rfl | rfl <;> simp [Instr.isTransform, hc] at hk

/-- A transform writes in the destination region of the operands it read, and nowhere else (R42, R59). -/
theorem ExecNext.outsideKept {s u : State} {i : Instr} (h : ExecNext s i u) (hi : i.isTransform = true) :
    ∃ t, s.core.operands.Gives s.plat.width t ∧ OutsideKept s u t := by
  have gives {t : Transfer} {f : Nat} (ht : s.core.operands.readTransfer s.plat.width s.fresh = (t, f)) :
      s.core.operands.Gives s.plat.width t := by
    have hg := s.core.operands.readTransfer_gives s.plat.width s.fresh
    rwa [ht] at hg
  cases h with
  | enccap n f hn hw => cases hi
  | deccap n f hn => cases hi
  | encSmall t f ht ha hw hd => exact ⟨t, gives ht, fun a _ => rfl⟩
  | encode i hi t f ht ha hw hd =>
    refine ⟨t, gives ht, fun a hout => ?_⟩
    rw [read_settle_outside _ t _ _ hout]
    have hle := encodeCore_le t s.mem
    exact encodeCore_outside t s.mem (by unfold InDest at hout; omega)
  | decEmpty i hi t f ht ha hn => exact ⟨t, gives ht, fun a _ => rfl⟩
  | decSmall t f ht ha hn hd => exact ⟨t, gives ht, fun a _ => rfl⟩
  | decode i hi t f ht ha hn hd o m he =>
    refine ⟨t, gives ht, fun a hout => ?_⟩
    rw [read_settle_outside _ t _ _ hout]
    exact decodeCore_outside hn he (by unfold InDest at hout; omega)

/-- Settles O31: an illegal word completes and no more; a command is one of `ExecNext`'s completions. -/
theorem commandFrame : Obligations.CommandFrame := by
  intro c s u h
  obtain ⟨o, -, hframe⟩ := writeCmd_completed h
  refine ⟨hframe, ?_⟩
  rcases writeCmd_next h with ⟨i, hc, hx⟩ | ⟨hc, -, rfl⟩
  · have hn := exec_next hx
    refine ⟨fun hall => hn.mem_kept (.inl (hall i hc)), fun hcode => hn.mem_kept (.inr hcode), fun j hj hi => ?_⟩
    cases hc.symm.trans hj
    exact hn.outsideKept hi
  · exact ⟨fun _ => rfl, fun _ => rfl, fun j hj => by cases hc.symm.trans hj⟩

end Sys2Proof.Machine
end

section
/-! SUPPORT. The start of an operation (10_state.md R31, R38): what a CMD write that leaves it in flight latches, and that it starts wherever
the command as one transition is no fault. -/

namespace Sys2Proof.Machine

/-! ### What is latched -/

theorem Operands.latchedAs_self (o : Operands) : o.LatchedAs o := ⟨fun _ h => h, fun _ h => h, fun _ h => h, fun _ h => h⟩

theorem Operands.GivesLength.latchedAs {o : Operands} {w n : Nat} (h : o.GivesLength w n) : o.LatchedAs { o with srcLen := some n } :=
  { o.latchedAs_self with srcLen := fun v hv => congrArg some (h.1 v hv).symm }

theorem Operands.Gives.latchedAs {o : Operands} {w : Nat} {t : Transfer} (h : o.Gives w t) : o.LatchedAs t.operands where
  srcBase v hv := congrArg some (h.src v hv).symm
  srcLen v hv := congrArg some (h.n v hv).symm
  dstBase v hv := congrArg some (h.dst v hv).symm
  dstLen v hv := congrArg some (h.d v hv).symm

/-- Operand registers that all hold a value are latched as they are. -/
theorem Operands.LatchedAs.eq {o l : Operands} (h : o.LatchedAs l) {t : Transfer} (ht : o.transfer = some t) : l = o := by
  cases Operands.eq_operands ht
  obtain ⟨a, b, c, d⟩ := l
  obtain ⟨ha, hb, hc, hd⟩ := h
  cases ha _ rfl
  cases hb _ rfl
  cases hc _ rfl
  cases hd _ rfl
  rfl

/-- A CMD write starts the core with a latched copy of the operand registers, and draws free values at most (R31 steps 1 and 2). -/
theorem IssueNext.start {s u : State} {c : Byte} (h : IssueNext s c u) :
    ∃ l f, u = (s.drawn f).start c l ∧ s.core.operands.LatchedAs l := by
  cases h with
  | illegal hc => exact ⟨_, s.fresh, rfl, Operands.latchedAs_self _⟩
  | sizing i hc hi n f hn hv =>
    have hg := s.core.operands.readLength_gives s.plat.width s.fresh
    rw [hn] at hg
    exact ⟨_, f, rfl, hg.latchedAs⟩
  | transform i hc hi t f ht hv =>
    have hg := s.core.operands.readTransfer_gives s.plat.width s.fresh
    rw [ht] at hg
    exact ⟨_, f, rfl, hg.latchedAs⟩

/-! ### The faults of the CMD write are those of the command -/

/-- A transform as one transition takes the faults of its CMD write, and then goes on (R125 step 1). -/
theorem exec_transform {i : Instr} (hi : i.isTransform = true) : ∃ go : Transfer → State → Out, ∀ s,
    exec i s = whenIdle s (withTransfer s.core.operands s fun t s1 => unlessFault (transferFault i s1 t) (go t s1)) := by
  cases i <;> cases hi <;> exact ⟨_, fun s => rfl⟩

theorem exec_sizing {i : Instr} (hi : i.isTransform = false) : ∃ go : Nat → State → Out, ∀ s,
    exec i s = whenIdle s (withLength s.core.operands s fun n s1 => unlessFault (lengthFault i s1 n) (go n s1)) := by
  cases i <;> cases hi
  case enccap => exact ⟨_, fun s => rfl⟩
  case deccap => exact ⟨fun n s1 => .next (s1.complete (deccapOutcome n)), fun s => rfl⟩

/-- On an idle core the CMD write of a command starts it, or takes a fault which is the command's. -/
theorem startCommand_next_or_fault {s : State} (hb : s.core.status.busy = false) (c : Byte) (i : Instr) :
    (∃ u, startCommand c i s = .next u) ∨ ∃ f, startCommand c i s = .fault f ∧ exec i s = .fault f := by
  unfold startCommand
  split
  · obtain ⟨go, hgo⟩ := exec_transform ‹i.isTransform = true›
    obtain ⟨t, f, -, hx⟩ := withTransfer_eq s.core.operands s
    rw [hgo, whenIdle_of_idle _ hb, hx, hx]
    cases transferFault i (s.drawn f) t with
    | none => exact .inl ⟨_, rfl⟩
    | some x => exact .inr ⟨x, rfl, rfl⟩
  · obtain ⟨go, hgo⟩ := exec_sizing (i := i) (by simpa using ‹¬ i.isTransform = true›)
    obtain ⟨n, f, -, hx⟩ := withLength_eq s.core.operands s
    rw [hgo, whenIdle_of_idle _ hb, hx, hx]
    cases lengthFault i (s.drawn f) n with
    | none => exact .inl ⟨_, rfl⟩
    | some x => exact .inr ⟨x, rfl, rfl⟩

theorem issueCmd_legal {c : Byte} {i : Instr} (hc : decodeCmd c = some i) {s : State} (hb : s.core.status.busy = false) :
    issueCmd c s = startCommand c i s := by
  rw [issueCmd, whenIdle_of_idle _ hb, hc]

theorem issueCmd_illegal {c : Byte} (hc : decodeCmd c = none) {s : State} (hb : s.core.status.busy = false) :
    issueCmd c s = .next (s.start c s.core.operands) := by
  rw [issueCmd, whenIdle_of_idle _ hb, hc]

/-! ### A busy core -/

theorem whenIdle_of_busy {s : State} (next : Out) (h : s.core.status.busy = true) : whenIdle s next = .fault .commandWhileBusy :=
  if_pos h

theorem writeCmd_busy (c : Byte) {s : State} (h : s.core.status.busy = true) : writeCmd c s = .fault .commandWhileBusy := by
  cases hc : decodeCmd c with
  | none => rw [writeCmd_illegal hc]; exact whenIdle_of_busy _ h
  | some i => rw [writeCmd_legal hc]; cases i <;> exact whenIdle_of_busy _ h

/-- Settles O47: `IssueNext` says what the start leaves, and a CMD write takes no fault that the command does not take. -/
theorem cmdWriteStartsAnOperation : Obligations.CmdWriteStartsAnOperation := by
  refine ⟨fun c s u h => ?_, fun c s hb hf => ?_, fun c s hb => ⟨whenIdle_of_busy _ hb, ?_⟩⟩
  · obtain ⟨hb, hn⟩ := issueCmd_next h
    obtain ⟨l, f, rfl, hl⟩ := hn.start
    exact ⟨hb, rfl, ⟨l, rfl, hl⟩, rfl, rfl, rfl, rfl, rfl, rfl, ⟨rfl, rfl, rfl, rfl, rfl, rfl⟩, rfl⟩
  · cases hc : decodeCmd c with
    | none => exact ⟨_, issueCmd_illegal hc hb⟩
    | some i =>
      rw [issueCmd_legal hc hb]
      rcases startCommand_next_or_fault hb c i with hu | ⟨f, -, hx⟩
      · exact hu
      · exact absurd hx (hf i hc f)
  · rw [hostWrite_cmd, writeCmd_busy c hb]

end Sys2Proof.Machine
end

section
/-! SUPPORT. What an operation does not look at (10_state.md R38, R39): a core step and a command commute with every update of the state
that leaves alone what they read. -/

namespace Sys2Proof.Machine

/-- An answer, its next state updated by `g`. -/
def mapNext (g : State → State) : Out → Out
  | .next s => .next (g s)
  | .fault f => .fault f
  | .refused r => .refused r

/-- The state with another memory. -/
def State.store (s : State) (m : Memory) : State := { s with mem := m }

/-- An update of the state that leaves the platform, memory, the free-value counter and the operation in flight, and commutes with every change
an operation makes. -/
structure Ignored (g : State → State) : Prop where
  plat : ∀ s, (g s).plat = s.plat
  mem : ∀ s, (g s).mem = s.mem
  fresh : ∀ s, (g s).fresh = s.fresh
  op : ∀ s, (g s).core.op = s.core.op
  store : ∀ s m, g (s.store m) = (g s).store m
  drawn : ∀ s f, g (s.drawn f) = (g s).drawn f
  complete : ∀ s o, g (s.complete o) = (g s).complete o
  withWork : ∀ s w, g (s.withWork w) = (g s).withWork w

/-- The operand registers, which the operation in flight has latched (R38). -/
theorem ignored_operands (o : Operands) : Ignored fun s => { s with core := { s.core with operands := o } } := by
  constructor <;> intros <;> rfl

/-- The other cores (R39). -/
theorem ignored_cores (b a : List CodecCore) : Ignored fun s => { s with before := b, after := a } := by
  constructor <;> intros <;> rfl

namespace Ignored

variable {g : State → State} (h : Ignored g)
include h

theorem scramble (s : State) (a k : Nat) : g (s.scramble a k) = (g s).scramble a k := by
  have hs (v : State) : v.scramble a k = (v.store (v.mem.scramble a k v.fresh)).drawn (v.fresh + k) := rfl
  rw [hs, hs, h.drawn, h.store, h.mem, h.fresh]

theorem settle (s : State) (t : Transfer) (o : OpOutcome) (m : Memory) : g (s.settle t o m) = (g s).settle t o m := by
  have hc : g ((s.store m).complete o) = ((g s).store m).complete o := by rw [h.complete, h.store]
  cases o
  case ok r => exact (h.scramble _ _ _).trans (congrArg (State.scramble · (t.dst + r) (t.d - r)) hc)
  case zeroMarker => exact (h.scramble _ _ _).trans (congrArg (State.scramble · t.dst t.d) hc)
  case zeroBinary => exact (h.scramble _ _ _).trans (congrArg (State.scramble · t.dst t.d) hc)
  case chunkOverflow => exact (h.scramble _ _ _).trans (congrArg (State.scramble · t.dst t.d) hc)
  all_goals exact hc

theorem work (s : State) (m : Memory) (w : Work) : g ((s.store m).withWork w) = ((g s).store m).withWork w := by
  rw [h.withWork, h.store]

/-! ### The shapes an operation is made of -/

theorem withLength {o : Operands} {next : Nat → State → Out} (s : State)
    (hn : ∀ n f, next n (g (s.drawn f)) = mapNext g (next n (s.drawn f))) :
    withLength o (g s) next = mapNext g (withLength o s next) := by
  simp only [Machine.withLength, h.plat, h.fresh, ← h.drawn, hn]

theorem withTransfer {o : Operands} {next : Transfer → State → Out} (s : State)
    (hn : ∀ t f, next t (g (s.drawn f)) = mapNext g (next t (s.drawn f))) :
    withTransfer o (g s) next = mapNext g (withTransfer o s next) := by
  simp only [Machine.withTransfer, h.plat, h.fresh, ← h.drawn, hn]

theorem raiseOr (s : State) (e : Option OpOutcome) {x y : Out} (hx : x = mapNext g y) :
    (g s).raiseOr e x = mapNext g (s.raiseOr e y) := by
  cases e with
  | none => exact hx
  | some o => exact congrArg Host.Outcome.next (h.complete s o).symm

/-! ### A core step -/

theorem encodeFirst (s : State) (t : Transfer) : encodeFirst (g s) t = g (encodeFirst s t) := by
  unfold Machine.encodeFirst
  split
  · rw [h.settle, h.mem]
  · rw [h.withWork]

theorem encodeNext (s : State) (t : Transfer) (e : EncRegs) : encodeNext (g s) t e = g (encodeNext s t e) := by
  unfold Machine.encodeNext
  rw [h.mem]
  split
  · exact (h.work s _ _).symm
  · exact (h.settle s t _ _).symm

theorem afterWalk (s : State) (t : Transfer) (w : Walk) : (g s).afterWalk t w = g (s.afterWalk t w) := by
  cases w with
  | running d m => exact (h.work s m _).symm
  | ended o m => exact (h.settle s t o m).symm

theorem firstStep (i : Instr) (o : Operands) (s : State) : firstStep i o (g s) = mapNext g (firstStep i o s) := by
  cases i <;> simp only [Machine.firstStep]
  case enccap => exact h.withLength s fun n f => congrArg Host.Outcome.next (h.complete _ _).symm
  case enc => exact h.withTransfer s fun t f => h.raiseOr _ _ (congrArg Host.Outcome.next (h.encodeFirst _ t))
  case encu => exact h.withTransfer s fun t f => congrArg Host.Outcome.next (h.encodeFirst _ t)
  case deccap => exact h.withLength s fun n f => congrArg Host.Outcome.next (h.complete _ _).symm
  case dec => exact h.withTransfer s fun t f => h.raiseOr _ _ (by rw [h.mem, h.afterWalk]; rfl)
  case decu => exact h.withTransfer s fun t f => h.raiseOr _ _ (by rw [h.mem, h.afterWalk]; rfl)

theorem coreStep (s : State) : coreStep (g s) = mapNext g (coreStep s) := by
  unfold Machine.coreStep
  rw [h.op]
  cases s.core.op with
  | none => rfl
  | some fl =>
    dsimp only
    cases fl.work with
    | started =>
      dsimp only
      cases decodeCmd fl.cmd with
      | none => exact congrArg Host.Outcome.next (h.complete s _).symm
      | some i => exact h.firstStep i fl.latched s
    | encoding e => exact h.withTransfer s fun t f => congrArg Host.Outcome.next (h.encodeNext _ t e)
    | decoding d => exact h.withTransfer s fun t f => by rw [h.mem, h.afterWalk]; rfl

theorem coreStep_next {s u : State} (hu : Machine.coreStep s = .next u) : Machine.coreStep (g s) = .next (g u) := by
  rw [h.coreStep, hu]; rfl

/-! ### A command as one transition -/

theorem encodeAll (s : State) (t : Transfer) : encodeAll (g s) t = g (encodeAll s t) := by
  unfold Machine.encodeAll
  rw [h.settle, h.mem]

theorem decodeAll (s : State) (t : Transfer) : decodeAll (g s) t = mapNext g (decodeAll s t) := by
  unfold Machine.decodeAll
  rw [h.mem]
  cases decodeCore t s.mem with
  | none => rfl
  | some r => exact congrArg Host.Outcome.next (h.settle s t r.1 r.2).symm

end Ignored

theorem whenIdle_mapNext {g : State → State} {s : State} (hb : (g s).core.status = s.core.status) {x y : Out} (hx : x = mapNext g y) :
    whenIdle (g s) x = mapNext g (whenIdle s y) := by
  unfold whenIdle
  rw [hb]
  split
  · rfl
  · exact hx

theorem unlessFault_mapNext {g : State → State} {e f : Option Fault} (hf : f = e) {x y : Out} (hx : x = mapNext g y) :
    unlessFault f x = mapNext g (unlessFault e y) := by
  subst hf
  cases f with
  | none => exact hx
  | some f => rfl

section
variable {g : State → State} (h : Ignored g) {s : State}
include h

theorem Ignored.capacityFault (n : Nat) : capacityFault (g s) n = capacityFault s n := by
  unfold Machine.capacityFault
  rw [h.plat]

/-- The faults of a transform are those of the region checks and of its lengths. -/
theorem Ignored.transferFault {t : Transfer} (hf : regionFault (g s) t = regionFault s t) (i : Instr) :
    transferFault i (g s) t = transferFault i s t := by
  have henc : encFault (g s) t = encFault s t := by rw [encFault, encFault, hf, h.capacityFault]
  cases i
  case enccap => rfl
  case enc => exact henc
  case encu => exact congrArg (Option.or · _) henc
  case deccap => rfl
  case dec => exact hf
  case decu => exact congrArg (Option.or · _) hf

/-- A command commutes with an update that leaves STATUS, the operand registers and the region checks alone as well. -/
theorem Ignored.exec (hb : (g s).core.status = s.core.status) (ho : (g s).core.operands = s.core.operands)
    (hf : ∀ t, regionFault (g s) t = regionFault s t) (i : Instr) : exec i (g s) = mapNext g (exec i s) := by
  have hfault (f : Nat) (t : Transfer) : Machine.transferFault i (g (s.drawn f)) t = Machine.transferFault i (s.drawn f) t := by
    rw [h.drawn, transferFault_drawn, transferFault_drawn, h.transferFault (hf t)]
  cases i <;> refine whenIdle_mapNext hb ?_ <;> rw [ho]
  case enccap =>
    exact h.withLength s fun n f => unlessFault_mapNext (h.capacityFault n) (congrArg Host.Outcome.next (h.complete _ _).symm)
  case enc =>
    exact h.withTransfer s fun t f => unlessFault_mapNext (hfault f t)
      (h.raiseOr _ _ (congrArg Host.Outcome.next (h.encodeAll _ t)))
  case encu =>
    exact h.withTransfer s fun t f => unlessFault_mapNext (hfault f t) (congrArg Host.Outcome.next (h.encodeAll _ t))
  case deccap => exact h.withLength s fun n f => congrArg Host.Outcome.next (h.complete _ _).symm
  case dec => exact h.withTransfer s fun t f => unlessFault_mapNext (hfault f t) (h.raiseOr _ _ (h.decodeAll _ t))
  case decu => exact h.withTransfer s fun t f => unlessFault_mapNext (hfault f t) (h.raiseOr _ _ (h.decodeAll _ t))

/-- So does every command word (R62, R66). -/
theorem Ignored.writeCmd (hb : (g s).core.status = s.core.status) (ho : (g s).core.operands = s.core.operands)
    (hf : ∀ t, regionFault (g s) t = regionFault s t) (c : Byte) : writeCmd c (g s) = mapNext g (writeCmd c s) := by
  cases hc : decodeCmd c with
  | none =>
    rw [writeCmd_illegal hc, writeCmd_illegal hc]
    exact whenIdle_mapNext hb (congrArg Host.Outcome.next (h.complete s _).symm)
  | some i => rw [writeCmd_legal hc, writeCmd_legal hc, h.exec hb ho hf]

end

end Sys2Proof.Machine
end

section
/-! SUPPORT. What a core step leaves (10_state.md R38, R39): the frame, the operation in flight, the regions it runs over. -/

namespace Sys2Proof.Machine

/-- Where a core step leads: an idle core stays, an operation in flight completes, or goes on with the same command and latched operands at
working registers (R36, R38). -/
def State.Advances (s u : State) : Prop :=
  (s.core.op = none ∧ u = s) ∨ (∃ o, Completed u o) ∨
    ∃ fl k, s.core.op = some fl ∧ k ≠ .started ∧ u.core.op = some { fl with work := k }

theorem State.frame_afterWalk {s : State} {fl : InFlight} (h : s.core.op = some fl) (f : Nat) (t : Transfer) (w : Walk) :
    SameFrame s ((s.drawn f).afterWalk t w) ∧ s.Advances ((s.drawn f).afterWalk t w) := by
  rw [State.afterWalk_eq (s := s.drawn f) h]
  cases w with
  | running d m => exact ⟨⟨rfl, rfl, rfl, rfl, rfl, rfl⟩, .inr (.inr ⟨fl, .decoding d, h, nofun, rfl⟩)⟩
  | ended o m => exact ⟨(sameFrame_settle (s.drawn f) t o m).of_drawn, .inr (.inl ⟨o, completed_settle _ t o m⟩)⟩

/-- A core step changes only what `SameFrame` allows, and idles, completes or goes on. -/
theorem CoreNext.frame {s u : State} (h : CoreNext s u) : SameFrame s u ∧ s.Advances u := by
  cases h with
  | idle h => exact ⟨⟨rfl, rfl, rfl, rfl, rfl, rfl⟩, .inl ⟨h, rfl⟩⟩
  | illegal fl h hw hc => exact ⟨sameFrame_complete s _, .inr (.inl ⟨_, completed_complete _ _⟩)⟩
  | enccap fl h hw hc n f hn => exact ⟨(sameFrame_complete _ _).of_drawn, .inr (.inl ⟨_, completed_complete _ _⟩)⟩
  | deccap fl h hw hc n f hn => exact ⟨(sameFrame_complete _ _).of_drawn, .inr (.inl ⟨_, completed_complete _ _⟩)⟩
  | encSmall fl h hw hc t f ht hd => exact ⟨(sameFrame_complete _ _).of_drawn, .inr (.inl ⟨_, completed_complete _ _⟩)⟩
  | encEmpty fl h hw t f ht hc hn => exact ⟨(sameFrame_settle _ t _ _).of_drawn, .inr (.inl ⟨_, completed_settle _ t _ _⟩)⟩
  | encStart fl h hw t f ht hc hn => exact ⟨⟨rfl, rfl, rfl, rfl, rfl, rfl⟩, .inr (.inr ⟨fl, .encoding _, h, nofun, rfl⟩)⟩
  | encByte fl h e hw t f ht hi => exact ⟨⟨rfl, rfl, rfl, rfl, rfl, rfl⟩, .inr (.inr ⟨fl, .encoding _, h, nofun, rfl⟩)⟩
  | encFinal fl h e hw t f ht hi => exact ⟨(sameFrame_settle _ t _ _).of_drawn, .inr (.inl ⟨_, completed_settle _ t _ _⟩)⟩
  | decEmpty fl h hw hc t f ht hn => exact ⟨(sameFrame_complete _ _).of_drawn, .inr (.inl ⟨_, completed_complete _ _⟩)⟩
  | decSmall fl h hw hc t f ht hn hd => exact ⟨(sameFrame_complete _ _).of_drawn, .inr (.inl ⟨_, completed_complete _ _⟩)⟩
  | decStart fl h hw t f ht hc hn => exact State.frame_afterWalk h f t _
  | decWalk fl h d hw t f ht => exact State.frame_afterWalk h f t _

theorem State.Advances.latched {s u : State} (h : s.Advances u) {fl fl' : InFlight} (hfl : s.core.op = some fl) (hfl' : u.core.op = some fl') :
    fl'.cmd = fl.cmd ∧ fl'.latched = fl.latched := by
  rcases h with ⟨hnone, -⟩ | ⟨o, hc⟩ | ⟨fl₀, k, h₀, -, hk⟩
  · cases hfl.symm.trans hnone
  · cases hfl'.symm.trans hc.op
  · cases hfl.symm.trans h₀
    cases hfl'.symm.trans hk
    exact ⟨rfl, rfl⟩

theorem CodecCore.runningTransfer_idle {c : CodecCore} (h : c.op = none) : c.runningTransfer = none := by
  rw [CodecCore.runningTransfer, h]

/-- The regions of an operation are those of its latched operands to its end (R38, R52). -/
theorem State.Advances.runningRegions {s u : State} (h : s.Advances u) {r : Nat × Nat} (hr : r ∈ u.core.runningRegions) :
    r ∈ s.core.runningRegions := by
  obtain ⟨t, ht, hrt⟩ := CodecCore.mem_runningRegions.1 hr
  rcases h with ⟨-, rfl⟩ | ⟨o, hc⟩ | ⟨fl, k, hfl, -, hk⟩
  · exact hr
  · cases ht.symm.trans (CodecCore.runningTransfer_idle hc.op)
  · refine CodecCore.mem_runningRegions.2 ⟨t, ?_, hrt⟩
    rw [← ht]
    simp only [CodecCore.runningTransfer, hfl, hk]

/-- Settles O48: the latched copy is what `IssueNext` says, and a core step commutes with every change of the operand registers. -/
theorem operandsAreLatched : Obligations.OperandsAreLatched := by
  refine ⟨fun c s u h => ?_, fun s u o fl hfl h => ?_, fun s k v hb hk => ?_, fun s v hb => ?_⟩
  · obtain ⟨l, f, rfl, hl⟩ := (issueCmd_next h).2.start
    exact ⟨_, rfl, rfl, hl, fun t ht => hl.eq ht⟩
  · obtain ⟨hframe, hop⟩ := (coreStep_next h).frame
    exact ⟨(ignored_operands o).coreStep_next h, hframe.operands, fun fl' hfl' => hop.latched hfl hfl'⟩
  · simp only [List.mem_cons, List.not_mem_nil, or_false] at hk
    rcases hk with rfl | rfl | rfl | rfl
    · exact (hostWrite_whole (r := .srcBase) rfl s v).trans (writeOperands_busy hb _)
    · exact (hostWrite_whole (r := .srcLen) rfl s v).trans (writeOperands_busy hb _)
    · exact (hostWrite_whole (r := .dstBase) rfl s v).trans (writeOperands_busy hb _)
    · exact (hostWrite_whole (r := .dstLen) rfl s v).trans (writeOperands_busy hb _)
  · exact ⟨hostRead_held (r := .srcBase) rfl nofun, hostRead_held (r := .srcLen) rfl nofun, hostRead_held (r := .dstBase) rfl nofun,
      hostRead_held (r := .dstLen) rfl nofun⟩

end Sys2Proof.Machine
end

section
/-! SUPPORT. Cores share nothing but memory (10_state.md R39; 60_exceptions.md R133): which cores a step changes, and that running regions of
different cores stay disjoint. -/

namespace Sys2Proof.Machine

/-! ### Disjoint regions -/

/-- No region of one core's operation meets one of the other's. -/
def CodecCore.ApartFrom (c d : CodecCore) : Prop :=
  ∀ r ∈ c.runningRegions, ∀ q ∈ d.runningRegions, overlaps r.1 r.2 q.1 q.2 = false

theorem CodecCore.ApartFrom.symm {c d : CodecCore} (h : c.ApartFrom d) : d.ApartFrom c :=
  fun r hr q hq => (overlaps_comm r.1 r.2 q.1 q.2).trans (h q hq r hr)

/-- Disjointness of all cores: of the addressed one from each other, and of the others. -/
theorem State.coresDisjoint_iff (s : State) :
    s.CoresDisjoint ↔ (∀ d ∈ s.others, s.core.ApartFrom d) ∧ s.others.Pairwise CodecCore.ApartFrom :=
  (List.pairwise_middle fun h => CodecCore.ApartFrom.symm h).trans List.pairwise_cons

/-- The addressed core may change as long as its regions stay apart from the others'. -/
theorem State.CoresDisjoint.of_core {s u : State} (h : s.CoresDisjoint) (hb : u.before = s.before) (ha : u.after = s.after)
    (hc : ∀ d ∈ s.others, s.core.ApartFrom d → u.core.ApartFrom d) : u.CoresDisjoint := by
  rw [State.coresDisjoint_iff] at h ⊢
  have ho : u.others = s.others := by rw [State.others, State.others, hb, ha]
  rw [ho]
  exact ⟨fun d hd => hc d hd (h.1 d hd), h.2⟩

/-- A core that runs no region beyond those it ran stays apart from the others. -/
theorem State.CoresDisjoint.of_subset {s u : State} (h : s.CoresDisjoint) (hb : u.before = s.before) (ha : u.after = s.after)
    (hr : ∀ r ∈ u.core.runningRegions, r ∈ s.core.runningRegions) : u.CoresDisjoint :=
  h.of_core hb ha fun _ _ hd r hru q hq => hd r (hr r hru) q hq

theorem Admitted.apartFrom {s : State} {t : Transfer} (h : Admitted s t) {c d : CodecCore} (hc : c.runningTransfer = some t)
    (hd : d ∈ s.others) : c.ApartFrom d := by
  intro r hr q hq
  obtain ⟨t', ht', hrt⟩ := CodecCore.mem_runningRegions.1 hr
  cases hc.symm.trans ht'
  rcases hrt with rfl | rfl
  · exact h.srcFree d hd q hq
  · exact h.dstFree d hd q hq

theorem CodecCore.apartFrom_idle {c : CodecCore} (h : c.runningTransfer = none) (d : CodecCore) : c.ApartFrom d := by
  intro r hr
  obtain ⟨t, ht, -⟩ := CodecCore.mem_runningRegions.1 hr
  cases h.symm.trans ht

/-- What a CMD write starts is admitted beside the other cores' operations (R52, R133). -/
theorem IssueNext.apartFrom {s u : State} {c : Byte} (h : IssueNext s c u) {d : CodecCore} (hd : d ∈ s.others) : u.core.ApartFrom d := by
  cases h with
  | illegal hc => exact CodecCore.apartFrom_idle (by simp [CodecCore.start_runningTransfer, hc]) d
  | sizing i hc hi n f hn hv => exact CodecCore.apartFrom_idle (by simp [CodecCore.start_runningTransfer, hc, hi]) d
  | transform i hc hi t f ht hv =>
    exact (transferFault_admitted hi hv).apartFrom (by simp [CodecCore.start_runningTransfer, hc, hi]) hd

/-! ### What the outside world can do -/

theorem SameFrame.cores {s u : State} (h : SameFrame s u) : u.plat = s.plat ∧ u.before = s.before ∧ u.after = s.after :=
  ⟨h.plat, h.before, h.after⟩

theorem issueCmd_sameFrame {c : Byte} {s u : State} (h : issueCmd c s = .next u) : SameFrame s u := by
  obtain ⟨l, f, rfl, -⟩ := (issueCmd_next h).2.start
  exact ⟨rfl, rfl, rfl, rfl, rfl, rfl⟩

theorem writeCmd_sameFrame {c : Byte} {s u : State} (h : writeCmd c s = .next u) : SameFrame s u := by
  obtain ⟨o, -, hf⟩ := writeCmd_completed h
  exact hf

/-- Whatever happens, the platform and the other cores stay, unless another core is turned to. -/
theorem HostNext.cores {s u : State} (h : HostNext s u) :
    (u.plat = s.plat ∧ u.before = s.before ∧ u.after = s.after) ∨ ∃ k, selectCore k s = .next u := by
  cases h with
  | reply r f => exact .inl ⟨rfl, rfl, rfl⟩
  | command c u h => exact .inl (writeCmd_sameFrame h).cores
  | operands o hb ho => exact .inl ⟨rfl, rfl, rfl⟩
  | ignored => exact .inl ⟨rfl, rfl, rfl⟩
  | started c u h => exact .inl (issueCmd_sameFrame h).cores
  | core u h => exact .inl (coreStep_next h).frame.1.cores
  | memWrite a v ha => exact .inl ⟨rfl, rfl, rfl⟩
  | reset => exact .inl ⟨resetCore_plat s, resetCore_before s, resetCore_after s⟩
  | select k u h => exact .inr ⟨k, h⟩

theorem coreStep_coresDisjoint {s u : State} (hs : s.CoresDisjoint) (h : coreStep s = .next u) : u.CoresDisjoint := by
  obtain ⟨hf, hop⟩ := (coreStep_next h).frame
  exact hs.of_subset hf.before hf.after fun r hr => hop.runningRegions hr

theorem HostNext.coresDisjoint {s u : State} (hs : s.CoresDisjoint) (h : HostNext s u) : u.CoresDisjoint := by
  cases h with
  | reply r f => exact hs
  | command c u h =>
    obtain ⟨o, hc, hf⟩ := writeCmd_completed h
    exact hs.of_core hf.before hf.after fun d _ _ => CodecCore.apartFrom_idle (CodecCore.runningTransfer_idle hc.op) d
  | operands o hb ho => exact hs.of_subset rfl rfl fun r hr => hr
  | ignored => exact hs
  | started c u h =>
    have hf := issueCmd_sameFrame h
    exact hs.of_core hf.before hf.after fun d hd _ => (issueCmd_next h).2.apartFrom hd
  | core u h => exact coreStep_coresDisjoint hs h
  | memWrite a v ha => exact hs
  | reset =>
    exact hs.of_core (resetCore_before s) (resetCore_after s) fun d _ _ => CodecCore.apartFrom_idle (c := CodecCore.reset) rfl d
  | select k u h =>
    obtain ⟨-, hc, -⟩ := selectCore_next h
    unfold State.CoresDisjoint
    rw [hc]
    exact hs

theorem step_coresDisjoint {s u : State} (hs : s.CoresDisjoint) (h : step s = .next u) : u.CoresDisjoint := by
  rcases step_next h with ⟨es, f, hn⟩ | ⟨es, r, f, rfl | hc⟩
  · exact HostNext.coresDisjoint (s := { s with host := es, fresh := f }) hs hn
  · exact hs
  · exact coreStep_coresDisjoint (s := { s with host := es, reply := r, fresh := f }) hs hc

/-- A write of a register never turns to another core. -/
theorem writeReg_cores {r : Reg} {v : Nat} {s u : State} (h : writeReg r v s = .next u) :
    u.plat = s.plat ∧ u.before = s.before ∧ u.after = s.after := by
  have operands {o : Operands} (h : writeOperands o s = .next u) : u.plat = s.plat ∧ u.before = s.before ∧ u.after = s.after := by
    obtain ⟨-, rfl⟩ := writeOperands_next h
    exact ⟨rfl, rfl, rfl⟩
  cases r
  case cmd => exact (writeCmd_sameFrame h).cores
  case srcBase => exact operands h
  case srcLen => exact operands h
  case dstBase => exact operands h
  case dstLen => exact operands h
  all_goals cases h; exact ⟨rfl, rfl, rfl⟩

theorem busWrite_cores {addr : Nat} {bs : List Byte} {s u : State} (h : busWrite addr bs s = .next u) :
    u.plat = s.plat ∧ u.before = s.before ∧ u.after = s.after := by
  obtain ⟨win, r, h⟩ := atRegister_next h
  dsimp only at h
  split at h
  · exact writeReg_cores h
  · exact writeReg_cores (s := s.drawn (s.fresh + 1)) h

/-- A step leaves the platform and the other cores as they are, or turns to another core with the schedule advanced. -/
theorem step_cores {s u : State} (h : step s = .next u) :
    (u.plat = s.plat ∧ u.before = s.before ∧ u.after = s.after) ∨ ∃ es k, selectCore k { s with host := es } = .next u := by
  have host {es : List HostEvent} (hn : HostNext { s with host := es } u) :
      (u.plat = s.plat ∧ u.before = s.before ∧ u.after = s.after) ∨ ∃ es k, selectCore k { s with host := es } = .next u :=
    hn.cores.imp_right fun ⟨k, hk⟩ => ⟨es, k, hk⟩
  cases hh : s.host with
  | nil =>
    rw [step_unscheduled hh, idleStep] at h
    split at h
    · exact .inl (coreStep_next h).frame.1.cores
    · split at h
      · exact .inr ⟨s.host, _, h⟩
      · cases h; exact .inl ⟨rfl, rfl, rfl⟩
  | cons e rest =>
    rw [step_event hh] at h
    cases e with
    | read k bits => exact host (hostRead_next h)
    | write k bits v => exact host (hostWrite_next h)
    | issue c => exact host (.started c u h)
    | busRead addr count => exact host (busRead_next h)
    | busWrite addr bs => exact .inl (busWrite_cores (s := { s with host := rest }) h)
    | tick => exact host (.core u h)
    | poll =>
      simp only [hostEvent, pollStatus] at h
      split at h
      · cases h; exact .inl ⟨rfl, rfl, rfl⟩
      · exact .inl (coreStep_next h).frame.1.cores
    | memRead a => exact host (memRead_next h)
    | memWrite a v => exact host (memWrite_next h)
    | reset => cases h; exact host .reset
    | select k => exact .inr ⟨rest, k, h⟩

/-! ### What a command sees of the other cores -/

theorem meetsRunning_eq_true {cs : List CodecCore} {a k : Nat} :
    meetsRunning cs a k = true ↔ ∃ r, (∃ c ∈ cs, r ∈ c.runningRegions) ∧ overlaps a k r.1 r.2 = true := by
  simp only [meetsRunning, List.any_eq_true]
  exact ⟨fun ⟨c, hc, r, hr, ho⟩ => ⟨r, ⟨c, hc, hr⟩, ho⟩, fun ⟨r, ⟨c, hc, hr⟩, ho⟩ => ⟨c, hc, r, hr, ho⟩⟩

/-- The region checks see the running regions of the other cores and nothing else of them (R133). -/
theorem regionFault_of_regions {s s' : State} (hp : s'.plat = s.plat)
    (hr : ∀ r, (∃ c ∈ s'.others, r ∈ c.runningRegions) ↔ ∃ c ∈ s.others, r ∈ c.runningRegions) (t : Transfer) :
    regionFault s' t = regionFault s t := by
  have hm (a k : Nat) : meetsRunning s'.others a k = meetsRunning s.others a k := by
    rw [Bool.eq_iff_iff, meetsRunning_eq_true, meetsRunning_eq_true]
    simp only [hr]
  unfold regionFault meetsOthers
  rw [hp, hm, hm]

theorem selectCore_of_some {s : State} {k : Nat} {c : CodecCore} (h : s.allCores[k]? = some c) :
    ∃ u, selectCore k s = .next u ∧ u.core = c ∧ u.before.length = k := by
  obtain ⟨hlt, -⟩ := List.getElem?_eq_some_iff.1 h
  unfold selectCore
  rw [h]
  exact ⟨_, rfl, rfl, List.length_take_of_le (Nat.le_of_lt hlt)⟩

theorem selectCore_of_none {s : State} {k : Nat} (h : s.allCores.length ≤ k) : selectCore k s = .refused .noSuchCore := by
  rw [selectCore, List.getElem?_eq_none h]

/-- Settles O46: commands and core steps commute with a change of the other cores, and only a select turns to one of them. -/
theorem coresStayIndependent : Obligations.CoresStayIndependent := by
  refine ⟨fun s u h => ?_, fun c s b a hr => ?_, fun s u b a h => (ignored_cores b a).coreStep_next h,
    fun s k => ⟨fun c hc => ?_, selectCore_of_none⟩⟩
  · rcases step_cores h with ⟨hp, hb, ha⟩ | ⟨es, k, hk⟩
    · exact ⟨hp, .inl ⟨hb, ha⟩, fun hs => step_coresDisjoint hs h⟩
    · obtain ⟨hp, hc, hm, -, -, hf⟩ := selectCore_next hk
      exact ⟨hp, .inr ⟨hc, hm, hf⟩, fun hs => step_coresDisjoint hs h⟩
  · have hx := (ignored_cores b a).writeCmd (s := s) rfl rfl 
      (regionFault_of_regions (s' := { s with before := b, after := a }) rfl hr) c
    exact ⟨fun u hu => hx.trans (congrArg (mapNext _) hu), fun f hf => hx.trans (congrArg (mapNext _) hf)⟩
  · obtain ⟨u, hu, hcore, hlen⟩ := selectCore_of_some hc
    obtain ⟨hp, hall, hm, hh, hrep, hf⟩ := selectCore_next hu
    exact ⟨u, hu, hcore, hlen, hall, hp, hm, hh, hrep, hf⟩

end Sys2Proof.Machine
end

section
/-! SUPPORT. The core steps of an operation as a whole (41_encoder.md R87; 42_decoder.md R101): they run the core procedure, complete with its
outcome, and so come to what the command answers as one transition (20_memory.md R52). -/

namespace Sys2Proof.Machine

theorem decodeCmd_encode (i : Instr) : decodeCmd (encode i) = some i := by
  cases i <;> rfl

theorem coreSteps_one {s u : State} (h : coreStep s = .next u) : coreSteps 1 s = .next u := coreSteps_succ_next 0 h

/-- `j` core steps after one. -/
theorem coreSteps_cons {s u v : State} {j : Nat} (h : coreStep s = .next u) (hj : coreSteps j u = .next v) :
    coreSteps (j + 1) s = .next v := (coreSteps_succ_next j h).trans hj

/-! ### Completion forgets the steps -/

theorem State.settle_working (s : State) (m m' : Memory) (fl : InFlight) (w : Work) (t : Transfer) (o : OpOutcome) :
    (s.working m fl w).settle t o m' = s.settle t o m' := by
  cases o <;> rfl

theorem State.settle_start (s : State) (c : Byte) (l : Operands) (t : Transfer) (o : OpOutcome) (m : Memory) :
    (s.start c l).settle t o m = s.settle t o m := by
  cases o <;> rfl

theorem State.working_self {s : State} {fl : InFlight} (h : s.core.op = some fl) : s.working s.mem fl fl.work = s := by
  have hc : ({ s.core with op := some fl } : CodecCore) = s.core := by rw [← h]
  exact congrArg (fun c => { s with core := c }) hc

section
variable {s : State} {fl : InFlight} {t : Transfer} (hl : fl.latched.transfer = some t)
include hl

/-! ### The encoder -/

theorem coreStep_encoding (m : Memory) (e : EncRegs) :
    coreStep (s.working m fl (.encoding e)) = .next (encodeNext (s.working m fl (.encoding e)) t e) := by
  simp only [coreStep, State.working, withTransfer_of_some _ _ hl]

theorem coreStep_encByte {m : Memory} {e : EncRegs} (hi : e.i < t.n) :
    coreStep (s.working m fl (.encoding e)) = .next (s.working (encByteStep t e m).2 fl (.encoding (encByteStep t e m).1)) := by
  rw [coreStep_encoding hl, encodeNext_eq rfl, if_pos hi]
  rfl

theorem coreStep_encFinalize {m : Memory} {e : EncRegs} (hi : t.n ≤ e.i) :
    coreStep (s.working m fl (.encoding e)) = .next (s.settle t (.ok (encFinalize t e m).1) (encFinalize t e m).2) := by
  rw [coreStep_encoding hl, encodeNext_eq rfl, if_neg (by omega), State.settle_working]
  rfl

/-- `k` payload bytes take `k` core steps. -/
theorem coreSteps_encLoop (k : Nat) (e : EncRegs) (m : Memory) (hk : e.i + k ≤ t.n) :
    coreSteps k (s.working m fl (.encoding e)) = .next (s.working (encLoop t k e m).2 fl (.encoding (encLoop t k e m).1)) := by
  induction k generalizing e m with
  | zero => rfl
  | succ k ih =>
    have hi := (encByteStep_mono t e m).1
    exact coreSteps_cons (coreStep_encByte hl (by omega)) (ih _ _ (by omega))

/-- The payload bytes left and then the finalization: the encoder completes (R83, R87). -/
theorem coreSteps_encoding (m : Memory) {e : EncRegs} (he : e.Ok t) :
    coreSteps (t.n - e.i + 1) (s.working m fl (.encoding e)) =
      .next (s.settle t (.ok (encFinalize t (encLoop t (t.n - e.i) e m).1 (encLoop t (t.n - e.i) e m).2).1)
        (encFinalize t (encLoop t (t.n - e.i) e m).1 (encLoop t (t.n - e.i) e m).2).2) := by
  have hc := he.cursor
  have hi := (encLoop_ok (t.n - e.i) m he (by omega)).2
  rw [coreSteps_add 1 (coreSteps_encLoop hl (t.n - e.i) e m (by omega))]
  exact coreSteps_one (coreStep_encFinalize hl (by omega))

theorem coreSteps_encInit (hn : 1 ≤ t.n) (m : Memory) :
    coreSteps (t.n + 1) (s.working m fl (.encoding encInit)) =
      .next (s.settle t (.ok (encodeCore t m).1) (encodeCore t m).2) := by
  have hcore : encodeCore t m = encFinalize t (encLoop t t.n encInit m).1 (encLoop t t.n encInit m).2 := if_neg (by omega)
  rw [hcore]
  exact coreSteps_encoding hl m (encInit_ok t)

/-! ### The decoder -/

theorem coreStep_decoding (m : Memory) (d : DecRegs) :
    coreStep (s.working m fl (.decoding d)) = .next ((s.working m fl (.decoding d)).afterWalk t (decStep t d m)) := by
  simp only [coreStep, State.working, withTransfer_of_some _ _ hl]

/-- The steps of the walk take a core step each, and the walk ends with the completion (R96, R101). -/
theorem coreSteps_walk (hop : s.core.op = some fl) (k : Nat) (w : Walk) {o : OpOutcome} {m : Memory} (h : decLoop t k w = some (o, m)) :
    coreSteps k (s.afterWalk t w) = .next (s.settle t o m) := by
  have ended {k : Nat} {o' : OpOutcome} {m' : Memory} (h : decLoop t k (.ended o' m') = some (o, m)) :
      coreSteps k (s.afterWalk t (.ended o' m')) = .next (s.settle t o m) := by
    rw [decLoop] at h
    cases h
    exact coreSteps_idle (completed_settle s t o m).op k
  induction k generalizing w with
  | zero =>
    cases w with
    | ended o' m' => exact ended h
    | running d m' => cases h
  | succ k ih =>
    cases w with
    | ended o' m' => exact ended h
    | running d m' =>
      have hstep : coreStep (s.afterWalk t (.running d m')) = .next (s.afterWalk t (decStep t d m')) := by
        rw [State.afterWalk_eq hop, coreStep_decoding hl, State.afterWalk_eq hop, State.afterWalk_eq (fl := { fl with work := .decoding d }) rfl]
        cases decStep t d m' with
        | running d₂ m₂ => rfl
        | ended o₂ m₂ => exact congrArg Host.Outcome.next (State.settle_working s m' m₂ fl _ t o₂)
      exact coreSteps_cons hstep (ih _ h)

end

/-! ### A command in core steps -/

theorem coreStep_start {s : State} {i : Instr} (l : Operands) :
    coreStep (s.start (encode i) l) = firstStep i l (s.start (encode i) l) := by
  simp only [coreStep, State.start_core, CodecCore.start_op, decodeCmd_encode]

theorem issueThenSteps_of {s v : State} {i : Instr} (hb : s.core.status.busy = false) (h : IssueNext s (encode i) v) (k : Nat) :
    issueThenSteps i k s = coreSteps k v := by
  rw [issueThenSteps, h.issueCmd hb]

theorem decError_eq_none {t : Transfer} (hn : 1 ≤ t.n) (hd : t.n ≤ t.d + 1) : decError t = none := by
  rw [decError_eq, if_neg (by omega), if_neg (by omega)]

theorem decuError_eq_none {t : Transfer} (hn : 1 ≤ t.n) : decuError t = none := if_neg (by omega)

section
variable {s : State} {t : Transfer} {i : Instr}

/-- An encoder past its checks runs ENCODE_CORE in core steps (R87). -/
theorem coreSteps_encode (hi : i = .enc ∨ i = .encu) (hd : encodeCapacity t.n ≤ t.d) :
    ∃ k, coreSteps k (s.start (encode i) t.operands) = .next (s.settle t (.ok (encodeCore t s.mem).1) (encodeCore t s.mem).2) := by
  have hfirst : coreStep (s.start (encode i) t.operands) = .next (encodeFirst (s.start (encode i) t.operands) t) := by
    rw [coreStep_start]
    rcases hi with rfl | rfl
    · have he : encError t = none := if_neg (by omega)
      exact congrArg (fun e => State.raiseOr _ e _) he
    · rfl
  rw [encodeFirst_eq rfl] at hfirst
  by_cases hn : t.n = 0
  · rw [if_pos hn, encEmpty_eq_encodeCore hn, State.settle_start] at hfirst
    exact ⟨1, coreSteps_one hfirst⟩
  · rw [if_neg hn] at hfirst
    have hrest := coreSteps_encInit (s := s.start (encode i) t.operands) (fl := { cmd := encode i, latched := t.operands, work := .started })
      (t.operands_transfer) (by omega) s.mem
    rw [State.settle_start] at hrest
    exact ⟨t.n + 1 + 1, coreSteps_cons hfirst hrest⟩

/-- A decoder past its checks runs DECODE_CORE in core steps (R101). -/
theorem coreSteps_decode (hi : i = .dec ∨ i = .decu) (hn : 1 ≤ t.n) (hd : t.n ≤ t.d + 1) {o : OpOutcome} {m : Memory}
    (he : decodeCore t s.mem = some (o, m)) : ∃ k, coreSteps k (s.start (encode i) t.operands) = .next (s.settle t o m) := by
  have hfirst : coreStep (s.start (encode i) t.operands) = .next ((s.start (encode i) t.operands).afterWalk t (decFirst t s.mem)) := by
    rw [coreStep_start]
    rcases hi with rfl | rfl
    · exact congrArg (fun e => State.raiseOr _ e _) (decError_eq_none hn hd)
    · exact congrArg (fun e => State.raiseOr _ e _) (decuError_eq_none hn)
  have hrest := coreSteps_walk (s := s.start (encode i) t.operands) t.operands_transfer rfl _ _ he
  rw [State.settle_start] at hrest
  exact ⟨3 * t.n + 1, coreSteps_cons hfirst hrest⟩

end

/-- Whatever a command answers as one transition, its core steps come to (R52). -/
theorem ExecNext.steps {s u : State} {i : Instr} (h : ExecNext s i u) (hb : s.core.status.busy = false) :
    ∃ k, issueThenSteps i k s = .next u := by
  cases h with
  | enccap n f hn hw =>
    refine ⟨1, ?_⟩
    rw [issueThenSteps_of hb (.sizing .enccap (decodeCmd_encode _) rfl n f hn (capacityFault_eq_none.2 hw))]
    exact coreSteps_one (coreStep_start _)
  | deccap n f hn =>
    refine ⟨1, ?_⟩
    rw [issueThenSteps_of hb (.sizing .deccap (decodeCmd_encode _) rfl n f hn rfl)]
    exact coreSteps_one (coreStep_start _)
  | encSmall t f ht ha hw hd =>
    refine ⟨1, ?_⟩
    rw [issueThenSteps_of hb (.transform .enc (decodeCmd_encode _) rfl t f ht (encFault_eq_none.2 ⟨ha, hw⟩))]
    have he : encError t = some (.bufferTooSmall t.d (encodeCapacity t.n)) := if_pos hd
    exact coreSteps_one ((coreStep_start _).trans (congrArg (fun e => State.raiseOr _ e _) he))
  | encode i hi t f ht ha hw hd =>
    have hissue : IssueNext s (Sys2Proof.encode i) ((s.drawn f).start (Sys2Proof.encode i) t.operands) := by
      rcases hi with rfl | rfl
      · exact .transform _ (decodeCmd_encode _) rfl t f ht (encFault_eq_none.2 ⟨ha, hw⟩)
      · exact .transform _ (decodeCmd_encode _) rfl t f ht (encuFault_eq_none.2 ⟨ha, hw, hd⟩)
    simp only [issueThenSteps_of hb hissue]
    exact coreSteps_encode (s := s.drawn f) hi hd
  | decEmpty i hi t f ht ha hn =>
    refine ⟨1, ?_⟩
    rcases hi with rfl | rfl
    · rw [issueThenSteps_of hb (.transform .dec (decodeCmd_encode _) rfl t f ht (decFault_eq_none.2 ha))]
      have he : decError t = some .emptyInput := by rw [decError_eq, if_pos hn]
      exact coreSteps_one ((coreStep_start _).trans (congrArg (fun e => State.raiseOr _ e _) he))
    · rw [issueThenSteps_of hb (.transform .decu (decodeCmd_encode _) rfl t f ht (decuFault_eq_none.2 ⟨ha, by omega⟩))]
      have he : decuError t = some .emptyInput := if_pos hn
      exact coreSteps_one ((coreStep_start _).trans (congrArg (fun e => State.raiseOr _ e _) he))
  | decSmall t f ht ha hn hd =>
    refine ⟨1, ?_⟩
    rw [issueThenSteps_of hb (.transform .dec (decodeCmd_encode _) rfl t f ht (decFault_eq_none.2 ha))]
    have he : decError t = some (.bufferTooSmall t.d (t.n - 1)) := by rw [decError_eq, if_neg (by omega), if_pos ⟨hn, hd⟩]
    exact coreSteps_one ((coreStep_start _).trans (congrArg (fun e => State.raiseOr _ e _) he))
  | decode i hi t f ht ha hn hd o m he =>
    have hissue : IssueNext s (Sys2Proof.encode i) ((s.drawn f).start (Sys2Proof.encode i) t.operands) := by
      rcases hi with rfl | rfl
      · exact .transform _ (decodeCmd_encode _) rfl t f ht (decFault_eq_none.2 ha)
      · exact .transform _ (decodeCmd_encode _) rfl t f ht (decuFault_eq_none.2 ⟨ha, hd⟩)
    simp only [issueThenSteps_of hb hissue]
    exact coreSteps_decode (s := s.drawn f) hi hn hd he

/-! ### Every operation completes -/

/-- An admitted operand set is one on which the command completes (R32). -/
theorem AdmittedFor.execNext {i : Instr} {s : State} (h : AdmittedFor i s) : s.core.status.busy = false ∧ ∃ u, ExecNext s i u := by
  have read {t : Transfer} (hr : Ready s t) : s.core.operands.readTransfer s.plat.width s.fresh = (t, s.fresh) :=
    Operands.readTransfer_of_some _ _ hr.transfer
  cases i
  case enccap =>
    obtain ⟨hb, n, hn, hw⟩ := h
    exact ⟨hb, _, .enccap n s.fresh (Operands.readLength_of_some _ _ hn) hw⟩
  case deccap =>
    obtain ⟨hb, n, hn⟩ := h
    exact ⟨hb, _, .deccap n s.fresh (Operands.readLength_of_some _ _ hn)⟩
  case enc =>
    obtain ⟨t, hr, ha, hw⟩ := h
    rcases Nat.lt_or_ge t.d (encodeCapacity t.n) with hd | hd
    · exact ⟨hr.idle, _, .encSmall t s.fresh (read hr) ha hw hd⟩
    · exact ⟨hr.idle, _, .encode .enc (.inl rfl) t s.fresh (read hr) ha hw hd⟩
  case encu =>
    obtain ⟨t, hr, ha, hw, hd⟩ := h
    exact ⟨hr.idle, _, .encode .encu (.inr rfl) t s.fresh (read hr) ha hw hd⟩
  case dec =>
    obtain ⟨t, hr, ha⟩ := h
    refine ⟨hr.idle, ?_⟩
    rcases Nat.eq_zero_or_pos t.n with hn | hn
    · exact ⟨_, .decEmpty .dec (.inl rfl) t s.fresh (read hr) ha hn⟩
    · rcases Nat.lt_or_ge (t.d + 1) t.n with hd | hd
      · exact ⟨_, .decSmall t s.fresh (read hr) ha (by omega) (by omega)⟩
      · obtain ⟨o, m, he, -⟩ := decodeCore_ends s.mem hn
        exact ⟨_, .decode .dec (.inl rfl) t s.fresh (read hr) ha hn hd o m he⟩
  case decu =>
    obtain ⟨t, hr, ha, hd⟩ := h
    refine ⟨hr.idle, ?_⟩
    rcases Nat.eq_zero_or_pos t.n with hn | hn
    · exact ⟨_, .decEmpty .decu (.inr rfl) t s.fresh (read hr) ha hn⟩
    · obtain ⟨o, m, he, -⟩ := decodeCore_ends s.mem hn
      exact ⟨_, .decode .decu (.inr rfl) t s.fresh (read hr) ha hn hd o m he⟩

theorem Completed.idle {s : State} {o : OpOutcome} (h : Completed s o) : s.core.status.busy = false ∧ s.core.status.done = true := by
  rw [h.status]
  exact ⟨rfl, rfl⟩

/-- An operation in flight past its first core step completes (R32): its payload bytes or its walk are bounded. -/
theorem State.Inv.completes_working {s : State} (hs : s.Inv) {fl : InFlight} (hop : s.core.op = some fl) (hw : fl.work ≠ .started) :
    ∃ k u o, coreSteps k s = .next u ∧ Completed u o := by
  obtain ⟨t, f, ht, -⟩ := withTransfer_eq fl.latched s
  have hself : s.working s.mem fl fl.work = s := State.working_self hop
  cases hk : fl.work with
  | started => exact absurd hk hw
  | encoding e =>
    rw [hk] at hself
    obtain ⟨he, -, hok⟩ := hs.encodes_next hop ht hk
    have hrun := coreSteps_encoding (s := s) he.runs.latched s.mem hok
    rw [hself] at hrun
    exact ⟨_, _, _, hrun, completed_settle _ _ _ _⟩
  | decoding d =>
    rw [hk] at hself
    obtain ⟨hd, hok⟩ := hs.decodes_next hop ht hk
    obtain ⟨o, m, he, -⟩ := decLoop_ends _ (.running d s.mem) hok (Nat.le_refl _)
    have hstart : s.afterWalk t (.running d s.mem) = s := (State.afterWalk_eq hop t _).trans hself
    have hrun := coreSteps_walk hd.runs.latched hop _ _ he
    rw [hstart] at hrun
    exact ⟨_, _, _, hrun, completed_settle _ _ _ _⟩

/-- In the invariant every operation in flight completes (R32). -/
theorem State.Inv.completes {s : State} (hs : s.Inv) {fl : InFlight} (hop : s.core.op = some fl) :
    ∃ k u o, coreSteps k s = .next u ∧ Completed u o := by
  obtain ⟨v, hv⟩ := coreStep_isNext s
  have hn := coreStep_next hv
  rcases hn.frame.2 with ⟨hnone, -⟩ | ⟨o, hc⟩ | ⟨fl', w, -, hw, hvop⟩
  · cases hop.symm.trans hnone
  · exact ⟨1, v, o, coreSteps_one hv, hc⟩
  · obtain ⟨k, u, o, hu, hc⟩ := (hn.inv hs).completes_working hvop hw
    exact ⟨k + 1, u, o, coreSteps_cons hv hu, hc⟩

/-- Settles O43: an admitted command completes as one transition and so in core steps, and an operation in flight has bounded work left. -/
theorem everyOperationCompletes : Obligations.EveryOperationCompletes := by
  refine ⟨fun i s h => ?_, fun s fl hs hop => ?_⟩
  · obtain ⟨hb, u, hn⟩ := h.execNext
    obtain ⟨k, hk⟩ := hn.steps hb
    obtain ⟨o, hc, -⟩ := hn.completed
    exact ⟨k, u, hn.exec hb, hk, hc.idle⟩
  · obtain ⟨k, u, o, hu, hc⟩ := hs.completes hop
    exact ⟨k, u, hu, hc.idle⟩

end Sys2Proof.Machine
end

section
/-! SUPPORT. The CMD write and the command as one transition (20_memory.md R52): the one is a fault where the other is, and no command is
refused. -/

namespace Sys2Proof.Machine

/-- A sizing command whose length establishes no fault completes (R76, R77). -/
theorem execNext_of_lengthFault {i : Instr} {s : State} {n f : Nat} (hi : i.isTransform = false)
    (hn : s.core.operands.readLength s.plat.width s.fresh = (n, f)) (hv : lengthFault i s n = none) : ∃ u, ExecNext s i u := by
  cases i <;> cases hi
  case enccap => exact ⟨_, .enccap n f hn (capacityFault_eq_none.1 hv)⟩
  case deccap => exact ⟨_, .deccap n f hn⟩

/-- A transform whose operands establish no fault completes: with an error status, or with what its core procedure answers (R125). -/
theorem execNext_of_transferFault {i : Instr} {s : State} {t : Transfer} {f : Nat} (hi : i.isTransform = true)
    (ht : s.core.operands.readTransfer s.plat.width s.fresh = (t, f)) (hv : transferFault i s t = none) : ∃ u, ExecNext s i u := by
  cases i <;> cases hi
  case enc =>
    obtain ⟨ha, hw⟩ := encFault_eq_none.1 hv
    rcases Nat.lt_or_ge t.d (encodeCapacity t.n) with hd | hd
    · exact ⟨_, .encSmall t f ht ha hw hd⟩
    · exact ⟨_, .encode .enc (.inl rfl) t f ht ha hw hd⟩
  case encu =>
    obtain ⟨ha, hw, hd⟩ := encuFault_eq_none.1 hv
    exact ⟨_, .encode .encu (.inr rfl) t f ht ha hw hd⟩
  case dec =>
    have ha := decFault_eq_none.1 hv
    rcases Nat.eq_zero_or_pos t.n with hn | hn
    · exact ⟨_, .decEmpty .dec (.inl rfl) t f ht ha hn⟩
    · rcases Nat.lt_or_ge (t.d + 1) t.n with hd | hd
      · exact ⟨_, .decSmall t f ht ha (by omega) (by omega)⟩
      · obtain ⟨o, m, he, -⟩ := decodeCore_ends s.mem hn
        exact ⟨_, .decode .dec (.inl rfl) t f ht ha hn hd o m he⟩
  case decu =>
    obtain ⟨ha, hd⟩ := decuFault_eq_none.1 hv
    rcases Nat.eq_zero_or_pos t.n with hn | hn
    · exact ⟨_, .decEmpty .decu (.inr rfl) t f ht ha hn⟩
    · obtain ⟨o, m, he, -⟩ := decodeCore_ends s.mem hn
      exact ⟨_, .decode .decu (.inr rfl) t f ht ha hn hd o m he⟩

/-- A command that a CMD write starts completes as one transition. -/
theorem IssueNext.execNext {s v : State} {i : Instr} (h : IssueNext s (encode i) v) : ∃ u, ExecNext s i u := by
  cases h with
  | illegal hc => cases (decodeCmd_encode i).symm.trans hc
  | sizing j hc hi n f hn hv =>
    cases (decodeCmd_encode i).symm.trans hc
    exact execNext_of_lengthFault hi hn hv
  | transform j hc hi t f ht hv =>
    cases (decodeCmd_encode i).symm.trans hc
    exact execNext_of_transferFault hi ht hv

/-- The two views of a command: its CMD write starts it and as one transition it completes, or both are the same fault (R52, R125). -/
theorem issue_and_exec (i : Instr) (s : State) :
    (∃ v u, issueCmd (encode i) s = .next v ∧ exec i s = .next u) ∨ ∃ f, issueCmd (encode i) s = .fault f ∧ exec i s = .fault f := by
  cases hb : s.core.status.busy with
  | true =>
    refine .inr ⟨.commandWhileBusy, whenIdle_of_busy _ hb, ?_⟩
    rw [← writeCmd_legal (decodeCmd_encode i), writeCmd_busy _ hb]
  | false =>
    have hissue := issueCmd_legal (decodeCmd_encode i) hb
    rcases startCommand_next_or_fault hb (encode i) i with ⟨v, hv⟩ | ⟨f, hf, hx⟩
    · obtain ⟨u, hu⟩ := (issueCmd_next (hissue.trans hv)).2.execNext
      exact .inl ⟨v, u, hissue.trans hv, hu.exec hb⟩
    · exact .inr ⟨f, hissue.trans hf, hx⟩

/-- Settles O41: a command that completes does so in core steps as well, and one that faults does so at its CMD write. -/
theorem atomicViewIsTheStepView : Obligations.AtomicViewIsTheStepView := by
  refine ⟨fun i s => ?_, fun i s f => ?_⟩ <;> rcases issue_and_exec i s with ⟨v, u, hv, hu⟩ | ⟨g, hg, hx⟩
  · rw [hu]
    exact (exec_next hu).steps (exec_idle hu)
  · exact ⟨0, by rw [issueThenSteps, hg, hx]⟩
  · rw [hu, hv]
    exact iff_of_false nofun nofun
  · rw [hx, hg]

end Sys2Proof.Machine
end

section
/-! SUPPORT. The region checks (20_memory.md R43 to R45), one condition at a time: which fault of a transform each is, and that a sizing
command takes none of them. -/

namespace Sys2Proof.Machine

/-! ### The faults of REGION_CHECKS -/

/-- A region past the top of the address space (R43). -/
theorem regionFault_wrap {s : State} {t : Transfer} (h : 2 ^ s.plat.width < t.src + t.n ∨ 2 ^ s.plat.width < t.dst + t.d) :
    regionFault s t = some .regionWrap := by
  unfold regionFault wraps
  rcases h with h | h <;> simp [h]

section
variable {s : State} {t : Transfer} (hsrc : t.src + t.n ≤ 2 ^ s.plat.width) (hdst : t.dst + t.d ≤ 2 ^ s.plat.width)
include hsrc hdst

/-- Regions that fit the address space are judged by the checks of R44 and R45. -/
theorem regionFault_of_fits : regionFault s t =
    if overlaps t.src t.n t.dst t.d then some .regionOverlap
    else if !(List.range t.n).all fun i => readableAt s.plat (t.src + i) then some .unbackedRegion
    else if !(List.range t.d).all fun i => writableAt s.plat (t.dst + i) then some .unbackedRegion
    else if meetsOthers s t then some .regionAccessWhileBusy
    else none := by
  have h1 : wraps s.plat t.src t.n = false := by simpa [wraps] using hsrc
  have h2 : wraps s.plat t.dst t.d = false := by simpa [wraps] using hdst
  unfold regionFault
  rw [h1, h2]
  rfl

/-- Regions that intersect (R44). -/
theorem regionFault_overlap (h : overlaps t.src t.n t.dst t.d = true) : regionFault s t = some .regionOverlap := by
  rw [regionFault_of_fits hsrc hdst, if_pos h]

/-- A byte that is not ordinary memory of the kind its region needs (R45). -/
theorem regionFault_unbacked (h : overlaps t.src t.n t.dst t.d = false) {a : Nat}
    (ha : InSource t a ∧ readableAt s.plat a = false ∨ InDest t a ∧ writableAt s.plat a = false) :
    regionFault s t = some .unbackedRegion := by
  have offset {p : Nat → Bool} {base k : Nat} (hlow : base ≤ a) (hhigh : a < base + k) (hp : p a = false) :
      (!(List.range k).all fun i => p (base + i)) = true := by
    simp only [Bool.not_eq_true', List.all_eq_false, List.mem_range]
    exact ⟨a - base, by omega, by rw [Nat.add_sub_cancel' hlow, hp]; simp⟩
  rw [regionFault_of_fits hsrc hdst, h, if_neg (by simp)]
  rcases ha with ⟨⟨hlow, hhigh⟩, hr⟩ | ⟨⟨hlow, hhigh⟩, hw⟩
  · rw [if_pos (offset hlow hhigh hr)]
  · rw [if_pos (offset hlow hhigh hw), ite_self]

end

/-! ### The faults of a command -/

/-- The region checks come before a transform's other faults (log entry 20). -/
theorem transferFault_of_regionFault {i : Instr} {s : State} {t : Transfer} {f : Fault} (hi : i.isTransform = true)
    (h : regionFault s t = some f) : transferFault i s t = some f := by
  have henc : encFault s t = some f := by rw [encFault, h, Option.some_or]
  cases i <;> cases hi
  case enc => exact henc
  case encu => rw [transferFault, encuFault, henc, Option.some_or]
  case dec => exact h
  case decu => rw [transferFault, decuFault, decFault, h, Option.some_or]

/-- A fault of the region checks is the fault of the transform, as one transition and at its CMD write (R125 step 1). -/
theorem Ready.fault_of_regionFault {i : Instr} {s : State} {t : Transfer} {f : Fault} (hr : Ready s t) (hi : i.isTransform = true)
    (h : regionFault s t = some f) : exec i s = .fault f ∧ issueCmd (encode i) s = .fault f := by
  have hf := transferFault_of_regionFault hi h
  obtain ⟨go, hgo⟩ := exec_transform hi
  refine ⟨?_, ?_⟩
  · rw [hgo, whenIdle_of_idle _ hr.idle, withTransfer_of_some _ _ hr.transfer, hf, unlessFault_some]
  · rw [issueCmd_legal (decodeCmd_encode i) hr.idle, startCommand, if_pos hi, withTransfer_of_some _ _ hr.transfer, hf, unlessFault_some]

theorem whenIdle_fault {s : State} {x : Out} {f : Fault} (h : whenIdle s x = .fault f) : f = .commandWhileBusy ∨ x = .fault f := by
  unfold whenIdle at h
  split at h
  · cases h; exact .inl rfl
  · exact .inr h

theorem unlessFault_fault {e : Option Fault} {x : Out} {f : Fault} (h : unlessFault e x = .fault f) : e = some f ∨ x = .fault f := by
  cases e with
  | none => exact .inr h
  | some g => cases h; exact .inl rfl

/-- The faults of ENCCAP and DECCAP (R75, R140 H1). -/
theorem exec_sizing_fault {i : Instr} {s : State} {f : Fault} (hi : i.isTransform = false) (h : exec i s = .fault f) :
    f = .commandWhileBusy ∨ f = .capacityOverflow := by
  cases i <;> cases hi
  case enccap =>
    rcases whenIdle_fault h with rfl | h
    · exact .inl rfl
    · rcases unlessFault_fault h with h | h
      · unfold capacityFault at h
        split at h <;> cases h
        exact .inr rfl
      · cases h
  case deccap =>
    rcases whenIdle_fault h with rfl | h
    · exact .inl rfl
    · cases h

/-- Settles O39: each condition is the fault of REGION_CHECKS named for it, which a transform takes first and a sizing command never. -/
theorem regionChecks : Obligations.RegionChecks := by
  refine ⟨fun i s t hi hr => ⟨fun h => ?_, fun hs hd hn hd0 h1 h2 => ?_, fun hs hd hap ⟨a, ha⟩ => ?_⟩, fun i s f hi h => ?_⟩
  · exact hr.fault_of_regionFault hi (regionFault_wrap h)
  · exact hr.fault_of_regionFault hi (regionFault_overlap hs hd (overlaps_eq_true.2 ⟨hn, hd0, h1, h2⟩))
  · exact hr.fault_of_regionFault hi (regionFault_unbacked hs hd (overlaps_eq_false.2 hap) ha)
  · rcases exec_sizing_fault hi h with rfl | rfl <;> exact ⟨nofun, nofun, nofun⟩

end Sys2Proof.Machine
end

section
/-! SUPPORT. Single accesses of the host: to a register with a wrong width (20_memory.md R50), and to a byte of memory (R40, R51, R52). -/

namespace Sys2Proof.Machine

/-! ### Widths of the registers by number -/

theorem Reg.ofNumber_width {k : BitVec 4} (h : k.toNat < 0xC) (w : Nat) :
    (Reg.ofNumber k).map (Reg.width w) = some (if k = 0x0#4 ∨ k = 0x8#4 then 8 else if k = 0x1#4 then 16 else w) := by
  obtain ⟨n, rfl⟩ : ∃ n : Fin 12, k = BitVec.ofNat 4 n := ⟨⟨k.toNat, h⟩, by simp⟩
  fin_cases n <;> rfl

/-- Settles O54: the width is judged first, against the width of the register with the number. -/
theorem partialAccessesFault : Obligations.PartialAccessesFault := by
  intro s k bits v hk hbits
  obtain ⟨r, hr, hwidth⟩ := Option.map_eq_some_iff.1 (Reg.ofNumber_width hk s.plat.width)
  rw [← hwidth] at hbits
  unfold hostRead hostWrite
  rw [hr]
  exact ⟨if_pos hbits, if_pos hbits⟩

/-! ### A byte of memory -/

/-- An address in no region of a running transform meets no running region (R52). -/
theorem meetsRunning_of_outside {cores : List CodecCore} {a : Nat}
    (h : ∀ c ∈ cores, ∀ t, c.runningTransfer = some t → ¬ InSource t a ∧ ¬ InDest t a) : meetsRunning cores a 1 = false := by
  rw [meetsRunning_eq_false]
  intro c hc r hr
  obtain ⟨t, ht, hregion⟩ := CodecCore.mem_runningRegions.1 hr
  obtain ⟨hsrc, hdst⟩ := h c hc t ht
  unfold InSource at hsrc
  unfold InDest at hdst
  rw [overlaps_eq_false]
  rcases hregion with rfl | rfl <;> dsimp only <;> omega

theorem readableAt_eq_true {p : Config.Platform} {a : Nat} (h : readableAt p a = true) :
    ∃ e, entryAt p a = some e ∧ e.kind = .ordinary ∧ e.readable = true := by
  unfold readableAt at h
  cases he : entryAt p a with
  | none => rw [he] at h; cases h
  | some e => rw [he] at h; exact ⟨e, rfl, by simpa using h⟩

theorem writableAt_eq_true {p : Config.Platform} {a : Nat} (h : writableAt p a = true) :
    ∃ e, entryAt p a = some e ∧ e.kind = .ordinary ∧ e.writable = true := by
  unfold writableAt at h
  cases he : entryAt p a with
  | none => rw [he] at h; cases h
  | some e => rw [he] at h; exact ⟨e, rfl, by simpa using h⟩

/-- An access to ordinary memory that allows it, outside every running region, goes on (R45, R51). -/
theorem atMemory_ordinary {a : Nat} {allowed : Config.MapEntry → Bool} {s : State} {e : Config.MapEntry} (next : Out)
    (hrun : meetsRunning s.allCores a 1 = false) (ha : a < 2 ^ s.plat.width) (he : entryAt s.plat a = some e)
    (hk : e.kind = .ordinary) (hal : allowed e = true) : atMemory a allowed s next = next := by
  simp only [atMemory, hrun, Bool.false_eq_true, if_false, Nat.not_le.2 ha, he, hk, hal, if_true]

/-- Settles O57: the access reaches memory, where the laws of memory say what a write and a read do. -/
theorem hostPlacesBytes : Obligations.HostPlacesBytes := by
  intro s a v ha hs hout
  have hrun := meetsRunning_of_outside hout
  refine ⟨fun hw => ?_, fun hr => ?_⟩
  · obtain ⟨e, he, hk, hal⟩ := writableAt_eq_true hw
    exact ⟨_, atMemory_ordinary _ hrun ha he hk hal, rfl, Memory.wf_write a v hs.memForm, fun b => Memory.read_write s.mem a b v⟩
  · obtain ⟨e, he, hk, hal⟩ := readableAt_eq_true hr
    exact atMemory_ordinary _ hrun ha he hk hal

end Sys2Proof.Machine
end

section
/-! SUPPORT. The source region is never written (20_memory.md R54): a command and a core step write in the destination region only, which
lies apart from it. -/

namespace Sys2Proof.Machine

/-- Regions that are apart share no address (R44). -/
theorem Transfer.Apart.not_inDest {t : Transfer} (h : t.Apart) {a : Nat} (ha : InSource t a) : ¬ InDest t a := by
  unfold Transfer.Apart at h
  unfold InSource at ha
  unfold InDest
  omega

/-! ### A command as one transition -/

/-- A transform that completes has admitted regions (R125 step 1). -/
theorem ExecNext.admitted {s u : State} {i : Instr} {t : Transfer} (h : ExecNext s i u) (hi : i.isTransform = true)
    (ht : s.core.operands.transfer = some t) : Admitted s t := by
  have hread := Operands.readTransfer_of_some s.plat.width s.fresh ht
  cases h with
  | enccap n f hn hw => cases hi
  | deccap n f hn => cases hi
  | encSmall t' f ht' ha hw hd => cases hread.symm.trans ht'; exact ha
  | encode i hi t' f ht' ha hw hd => cases hread.symm.trans ht'; exact ha
  | decEmpty i hi t' f ht' ha hn => cases hread.symm.trans ht'; exact ha
  | decSmall t' f ht' ha hn hd => cases hread.symm.trans ht'; exact ha
  | decode i hi t' f ht' ha hn hd o m he => cases hread.symm.trans ht'; exact ha

theorem ExecNext.source_kept {s u : State} {i : Instr} {t : Transfer} (h : ExecNext s i u) (ht : s.core.operands.transfer = some t)
    {a : Nat} (ha : InSource t a) : u.mem.read a = s.mem.read a := by
  cases hi : i.isTransform with
  | false => rw [h.mem_kept (.inl hi)]
  | true =>
    obtain ⟨t', hg, hout⟩ := h.outsideKept hi
    cases hg.eq ht
    exact hout a ((h.admitted hi ht).apart.not_inDest ha)

/-! ### One core step -/

/-- A step of the encoder past its checks writes in the destination region (R92). -/
theorem encByteStep_outsideDest {t : Transfer} {e : EncRegs} (m : Memory) (he : e.Ok t) (hi : e.i < t.n)
    (hd : encodeCapacity t.n ≤ t.d) {a : Nat} (ha : ¬ InDest t a) : (encByteStep t e m).2.read a = m.read a := by
  have hc := (encByteStep_ok m he hi).cursor_lt.1
  unfold InDest at ha
  exact encByteStep_outside m he a (by omega)

theorem encFinalize_outsideDest {t : Transfer} {e : EncRegs} (m : Memory) (he : e.Ok t) (hd : encodeCapacity t.n ≤ t.d) {a : Nat}
    (ha : ¬ InDest t a) : (encFinalize t e m).2.read a = m.read a := by
  have hc := he.cursor_lt.1
  have hslot := he.slot
  have hlow := he.lenLow
  unfold InDest at ha
  unfold encFinalize
  split
  · exact Memory.read_write_other _ _ (by omega)
  · rfl

theorem encodeCore_outsideDest {t : Transfer} (m : Memory) (hd : encodeCapacity t.n ≤ t.d) {a : Nat} (ha : ¬ InDest t a) :
    (encodeCore t m).2.read a = m.read a := by
  have hle := encodeCore_le t m
  unfold InDest at ha
  exact encodeCore_outside t m (by omega)

/-- A step of the walk past its checks writes in the destination region (R108). -/
theorem decStep_outsideDest {t : Transfer} {d : DecRegs} (m : Memory) (hok : d.Ok t) (hd : t.n ≤ t.d + 1) {a : Nat}
    (ha : ¬ InDest t a) : (decStep t d m).mem.read a = m.read a := by
  unfold InDest at ha
  rcases decStep_mem m hok with hm | ⟨o, v, ho, hm⟩ <;> rw [hm]
  exact Memory.read_write_other _ _ (by omega)

theorem State.read_afterWalk_outside (s : State) (t : Transfer) (w : Walk) {a : Nat} (ha : ¬ InDest t a) :
    (s.afterWalk t w).mem.read a = w.mem.read a := by
  cases w with
  | running d m => rfl
  | ended o m => exact read_settle_outside s t o m ha

/-- In the invariant a core step of a transform in flight writes in its destination region, and nowhere else (R59). -/
theorem CoreNext.outsideKept {s u : State} (hs : s.Inv) (h : CoreNext s u) {t : Transfer} (hrun : s.core.runningTransfer = some t) :
    OutsideKept s u t := by
  intro a ha
  cases h with
  | idle h => rfl
  | illegal fl h hw hc => rfl
  | enccap fl h hw hc n f hn => rfl
  | deccap fl h hw hc n f hn => rfl
  | encSmall fl h hw hc t' f ht hd => rfl
  | encEmpty fl h hw t' f ht hc hn =>
    have he := hs.encodes_first h ht hc
    cases hrun.symm.trans he.runs.running
    rw [read_settle_outside _ t _ _ ha, encEmpty_eq_encodeCore hn]
    exact encodeCore_outsideDest s.mem he.room ha
  | encStart fl h hw t' f ht hc hn => rfl
  | encByte fl h e hw t' f ht hi =>
    obtain ⟨he, -, hok⟩ := hs.encodes_next h ht hw
    cases hrun.symm.trans he.runs.running
    exact encByteStep_outsideDest s.mem hok hi he.room ha
  | encFinal fl h e hw t' f ht hi =>
    obtain ⟨he, -, hok⟩ := hs.encodes_next h ht hw
    cases hrun.symm.trans he.runs.running
    rw [read_settle_outside _ t _ _ ha]
    exact encFinalize_outsideDest s.mem hok he.room ha
  | decEmpty fl h hw hc t' f ht hn => rfl
  | decSmall fl h hw hc t' f ht hn hd => rfl
  | decStart fl h hw t' f ht hc hn =>
    have hd := hs.decodes_first h ht hc hn
    cases hrun.symm.trans hd.runs.running
    rw [State.read_afterWalk_outside _ t _ ha, decFirst_mem]
  | decWalk fl h d hw t' f ht =>
    obtain ⟨hd, hok⟩ := hs.decodes_next h ht hw
    cases hrun.symm.trans hd.runs.running
    rw [State.read_afterWalk_outside _ t _ ha]
    exact decStep_outsideDest s.mem hok hd.room ha

/-- The regions of a transform in flight are apart in the invariant. -/
theorem State.Inv.running_apart {s : State} (hs : s.Inv) {t : Transfer} (hrun : s.core.runningTransfer = some t) : t.Apart :=
  overlaps_eq_false.1 (hs.core_ok.regionsApart t hrun)

/-- Settles O34: what is written lies in the destination region, which is apart from the source. -/
theorem sourceIsNeverWritten : Obligations.SourceIsNeverWritten :=
  ⟨fun _ _ _ _ ht h _ ha => (exec_next h).source_kept ht ha,
    fun _ _ _ hs hrun h a ha => (coreStep_next h).outsideKept hs hrun a ((hs.running_apart hrun).not_inDest ha)⟩

end Sys2Proof.Machine
end

section
/-! SUPPORT. What a completed transform leaves in its destination (20_memory.md R42, R53): the bytes below RESULT, as a function of the source
bytes alone. -/

namespace Sys2Proof.Machine

/-! ### The core procedures as functions of the source bytes -/

/-- DECODE_CORE on a frame that is not empty: its outcome is the payload of the chunks the frame splits into, or an error of the frame,
whatever else memory holds (R107, R116 to R118). -/
theorem decodeCore_of_source {t : Transfer} (ha : t.Apart) (hd : t.n ≤ t.d + 1) {f : List Byte} (hf : f ≠ []) :
    (∃ cs : List Chunk, cs ≠ [] ∧ (∀ c ∈ cs, c.wf = true) ∧ chunkBytes cs = f ∧ ∀ m : Memory, m.readBytes t.src t.n = f →
      decodeCore t m = some (.ok (payloadOf cs).length, m.writeBytes t.dst (payloadOf cs))) ∨
    ∃ o : OpOutcome, o.isFrameError = true ∧ ∀ m : Memory, m.readBytes t.src t.n = f → ∃ m', decodeCore t m = some (o, m') := by
  cases frameKind_of_ne_nil f hf with
  | good cs c h => exact .inl ⟨cs ++ [c], by simp, h, rfl, fun m hm => decodeCore_good ha hd cs c h hm⟩
  | zeroMarker cs rest h => exact .inr ⟨_, rfl, fun m hm => decodeCore_zeroMarker ha hd cs rest h hm⟩
  | overflow cs mk rest h hmk hr => exact .inr ⟨_, rfl, fun m hm => decodeCore_overflow ha hd cs mk rest h hmk hr hm⟩
  | zeroBinary cs mk data rest h hmk hz hl hr =>
    exact .inr ⟨_, rfl, fun m hm => decodeCore_zeroBinary ha hd cs mk data rest h hmk hz hl hr hm⟩

theorem OpOutcome.result_of_frameError {o : OpOutcome} (h : o.isFrameError = true) : o.result = none := by
  cases o
  case ok => cases h
  all_goals rfl

theorem readBytes_ne_nil {m : Memory} {a k : Nat} (h : 1 ≤ k) : m.readBytes a k ≠ [] := by
  rw [ne_eq, ← List.length_eq_zero_iff, Memory.readBytes_length]
  omega

/-- DECODE_CORE with a result has walked a sequence of chunks, and wrote their payload (R107). -/
theorem decodeCore_result {t : Transfer} (ha : t.Apart) (hn : 1 ≤ t.n) (hd : t.n ≤ t.d + 1) {m m' : Memory} {o : OpOutcome} {r : Nat}
    (he : decodeCore t m = some (o, m')) (hr : o.result = some r) :
    ∃ cs : List Chunk, cs ≠ [] ∧ (∀ c ∈ cs, c.wf = true) ∧ chunkBytes cs = m.readBytes t.src t.n ∧
      m'.readBytes t.dst r = payloadOf cs := by
  rcases decodeCore_of_source ha hd (readBytes_ne_nil (m := m) hn) with ⟨cs, hne, hwf, hbytes, hrun⟩ | ⟨o', herr, hrun⟩
  · cases (hrun m rfl).symm.trans he
    cases hr
    exact ⟨cs, hne, hwf, hbytes, Memory.readBytes_writeBytes m t.dst (payloadOf cs)⟩
  · obtain ⟨m₂, h₂⟩ := hrun m rfl
    cases h₂.symm.trans he
    cases (OpOutcome.result_of_frameError herr).symm.trans hr

/-- DECODE_CORE reads the source and nothing else (R42): on the same frame it ends with the same outcome and the same payload. -/
theorem decodeCore_congr {t : Transfer} (ha : t.Apart) (hn : 1 ≤ t.n) (hd : t.n ≤ t.d + 1) {m m₁ m₂ : Memory} {o : OpOutcome}
    (he : decodeCore t m = some (o, m₁)) (hsrc : m₂.readBytes t.src t.n = m.readBytes t.src t.n) :
    ∃ m₃, decodeCore t m₂ = some (o, m₃) ∧ ∀ r, o.result = some r → m₃.readBytes t.dst r = m₁.readBytes t.dst r := by
  rcases decodeCore_of_source ha hd (readBytes_ne_nil (m := m) hn) with ⟨cs, -, -, -, hrun⟩ | ⟨o', herr, hrun⟩
  · cases (hrun m rfl).symm.trans he
    refine ⟨_, hrun m₂ hsrc, ?_⟩
    rintro r ⟨⟩
    rw [Memory.readBytes_writeBytes, Memory.readBytes_writeBytes]
  · obtain ⟨m₄, h₄⟩ := hrun m rfl
    cases h₄.symm.trans he
    obtain ⟨m₃, h₃⟩ := hrun m₂ hsrc
    exact ⟨m₃, h₃, fun r hr => by cases (OpOutcome.result_of_frameError herr).symm.trans hr⟩

/-- So does ENCODE_CORE: on the same payload it answers the same length and writes the same frame. -/
theorem encodeCore_congr {t : Transfer} (ha : t.Apart) (hd : encodeCapacity t.n ≤ t.d) {m m₂ : Memory}
    (hsrc : m₂.readBytes t.src t.n = m.readBytes t.src t.n) : (encodeCore t m₂).1 = (encodeCore t m).1 ∧
      (encodeCore t m₂).2.readBytes t.dst (encodeCore t m).1 = (encodeCore t m).2.readBytes t.dst (encodeCore t m).1 := by
  obtain ⟨hlen, hbytes, -⟩ := encodeCore_spec m hd ha
  obtain ⟨hlen₂, hbytes₂, -⟩ := encodeCore_spec m₂ hd ha
  rw [hsrc] at hlen₂ hbytes₂
  rw [hlen, hlen₂, hbytes, hbytes₂]
  exact ⟨rfl, rfl⟩

/-! ### After completion -/

@[simp] theorem State.settle_result (s : State) (t : Transfer) (o : OpOutcome) (m : Memory) : (s.settle t o m).core.result = o.result := by
  rw [State.settle_core]
  rfl

/-- The bytes below RESULT are those the core procedure left. -/
theorem destBytes_settle (s : State) (t : Transfer) {o : OpOutcome} (m : Memory) {r : Nat} (hr : o.result = some r) :
    destBytes (s.settle t o m) t r = m.readBytes t.dst r := by
  cases o <;> cases hr
  exact Memory.readBytes_congr fun i hi => read_settle_result s t r m (by omega)

/-- ENC and ENCU with RESULT leave the frame of the payload (R91). -/
theorem ExecNext.frame_written {s u : State} {i : Instr} {t : Transfer} {r : Nat} (h : ExecNext s i u) (hi : i ∈ [Instr.enc, .encu])
    (ht : s.core.operands.transfer = some t) (hr : u.core.result = some r) : destBytes u t r = frameOf (sourceBytes s t) := by
  have hread := Operands.readTransfer_of_some s.plat.width s.fresh ht
  cases h with
  | enccap n f hn hw => simp at hi
  | deccap n f hn => simp at hi
  | encSmall t' f ht' ha hw hd => cases hr
  | encode i hi t' f ht' ha hw hd =>
    cases hread.symm.trans ht'
    obtain ⟨hlen, hbytes, -⟩ := encodeCore_spec s.mem hd ha.apart
    rw [State.settle_result] at hr
    rw [destBytes_settle _ t _ hr]
    cases hr
    rw [hlen]
    exact hbytes
  | decEmpty i hi' t' f ht' ha hn => rcases hi' with rfl | rfl <;> simp at hi
  | decSmall t' f ht' ha hn hd => cases hr
  | decode i hi' t' f ht' ha hn hd o m he => rcases hi' with rfl | rfl <;> simp at hi

/-- DEC and DECU with RESULT leave the payload of the chunks the frame splits into (R107). -/
theorem ExecNext.payload_written {s u : State} {i : Instr} {t : Transfer} {r : Nat} (h : ExecNext s i u) (hi : i ∈ [Instr.dec, .decu])
    (ht : s.core.operands.transfer = some t) (hr : u.core.result = some r) :
    ∃ cs : List Chunk, cs ≠ [] ∧ (∀ c ∈ cs, c.wf = true) ∧ chunkBytes cs = sourceBytes s t ∧ destBytes u t r = payloadOf cs := by
  have hread := Operands.readTransfer_of_some s.plat.width s.fresh ht
  cases h with
  | enccap n f hn hw => simp at hi
  | deccap n f hn => simp at hi
  | encSmall t' f ht' ha hw hd => cases hr
  | encode i hi' t' f ht' ha hw hd => rcases hi' with rfl | rfl <;> simp at hi
  | decEmpty i hi t' f ht' ha hn => cases hr
  | decSmall t' f ht' ha hn hd => cases hr
  | decode i hi t' f ht' ha hn hd o m he =>
    cases hread.symm.trans ht'
    rw [State.settle_result] at hr
    rw [destBytes_settle _ t _ hr]
    exact decodeCore_result ha.apart hn hd he hr

/-- A legal command never ends with ILLEGAL_COMMAND (R120). -/
theorem ExecNext.code_ne_illegal {s u : State} {i : Instr} (h : ExecNext s i u) : u.core.status.code ≠ some 0x07#8 := by
  cases h with
  | enccap n f hn hw => simp [enccapOutcome, OpOutcome.code]
  | deccap n f hn =>
    unfold deccapOutcome
    cases decodeCapacity n <;> simp [OpOutcome.code]
  | encSmall t f ht ha hw hd => simp [OpOutcome.code]
  | encode i hi t f ht ha hw hd => simp [OpOutcome.code]
  | decEmpty i hi t f ht ha hn => simp [OpOutcome.code]
  | decSmall t f ht ha hn hd => simp [OpOutcome.code]
  | decode i hi t f ht ha hn hd o m he =>
    have hok := decodeCore_ended hn he
    cases o
    case illegalCommand => exact hok.elim
    all_goals simp [OpOutcome.code]

/-- Settles O32: the frame and the payload are what the core procedures write, and every other row keeps memory. -/
theorem destinationAfterCompletion : Obligations.DestinationAfterCompletion := by
  refine ⟨fun i s u t r hi ht h hr => (exec_next h).frame_written hi ht hr,
    fun i s u t r hi ht h hr => (exec_next h).payload_written hi ht hr, fun c s u h hk => ?_⟩
  rcases writeCmd_next h with ⟨i, hc, hx⟩ | ⟨-, -, rfl⟩
  · have hn := exec_next hx
    rw [hc, Option.some_inj, Option.some_inj] at hk
    apply hn.mem_kept
    rcases hk with hk | hk | hk | rfl | rfl
    · exact .inr (.inl hk)
    · exact .inr (.inr hk)
    · exact absurd hk hn.code_ne_illegal
    · exact .inl rfl
    · exact .inl rfl
  · rfl

/-- A command on another memory with the same source bytes completes with the same core, and below RESULT with the same destination. -/
theorem ExecNext.store {s u : State} {i : Instr} {t : Transfer} {m : Memory} (h : ExecNext s i u)
    (ht : s.core.operands.transfer = some t) (hsrc : m.readBytes t.src t.n = sourceBytes s t) :
    ∃ u', ExecNext (s.store m) i u' ∧ u'.core = u.core ∧
      ∀ r, i.isTransform = true → u.core.result = some r → destBytes u' t r = destBytes u t r := by
  have hread := Operands.readTransfer_of_some s.plat.width s.fresh ht
  have admitted {t' : Transfer} (ha : Admitted s t') : Admitted (s.store m) t' := ha.congr rfl rfl
  cases h with
  | enccap n f hn hw => exact ⟨_, .enccap n f hn hw, rfl, nofun⟩
  | deccap n f hn => exact ⟨_, .deccap n f hn, rfl, nofun⟩
  | encSmall t' f ht' ha hw hd => exact ⟨_, .encSmall t' f ht' (admitted ha) hw hd, rfl, nofun⟩
  | encode i hi t' f ht' ha hw hd =>
    cases hread.symm.trans ht'
    obtain ⟨hlen, hbytes⟩ := encodeCore_congr ha.apart hd hsrc
    refine ⟨_, .encode i hi t s.fresh ht' (admitted ha) hw hd, ?_, fun r _ hr => ?_⟩
    · rw [State.settle_core, State.settle_core]
      exact congrArg (fun l => s.core.complete (.ok l)) hlen
    · rw [State.settle_result] at hr
      cases hr
      have hr : (OpOutcome.ok (encodeCore t m).1).result = some (encodeCore t s.mem).1 := congrArg some hlen
      exact (destBytes_settle _ t _ hr).trans (hbytes.trans (destBytes_settle _ t _ rfl).symm)
  | decEmpty i hi t' f ht' ha hn => exact ⟨_, .decEmpty i hi t' f ht' (admitted ha) hn, rfl, nofun⟩
  | decSmall t' f ht' ha hn hd => exact ⟨_, .decSmall t' f ht' (admitted ha) hn hd, rfl, nofun⟩
  | decode i hi t' f ht' ha hn hd o m₁ he =>
    cases hread.symm.trans ht'
    obtain ⟨m₂, he₂, hbytes⟩ := decodeCore_congr ha.apart hn hd he hsrc
    refine ⟨_, .decode (s := s.store m) i hi t s.fresh ht' (admitted ha) hn hd o m₂ he₂, ?_, fun r _ hr => ?_⟩
    · rw [State.settle_core, State.settle_core]
      rfl
    · rw [State.settle_result] at hr
      rw [destBytes_settle _ t _ hr, destBytes_settle _ t _ hr]
      exact hbytes r hr

/-- Settles O35: a command's outcome and the bytes below RESULT come from the source bytes. -/
theorem onlyTheSourceIsRead : Obligations.OnlyTheSourceIsRead := by
  intro i s u t m ht hsrc h
  obtain ⟨u', hn, hcore, hdest⟩ := (exec_next h).store ht hsrc
  have hb : s.core.status.busy = false := exec_idle h
  exact ⟨u', hn.exec hb, hcore, hdest⟩

end Sys2Proof.Machine
end

section
/-! SUPPORT. The free values a command draws (20_memory.md R53; 10_state.md R28; log entries 5 and 10): unspecified destination bytes, and operand
registers that hold no value. -/

namespace Sys2Proof.Machine

/-! ### Unspecified destination bytes -/

/-- With RESULT `r` the destination bytes from `r` on are free values, each its own draw. -/
theorem settle_free_from_result (s : State) {t : Transfer} {o : OpOutcome} (m : Memory) {r : Nat} (hr : o.result = some r) :
    (s.settle t o m).fresh = s.fresh + (t.d - r) ∧
      ∀ k, r + k < t.d → (s.settle t o m).mem.read (t.dst + (r + k)) = Config.freeByte (s.fresh + k) := by
  cases o <;> cases hr
  refine ⟨rfl, fun k hk => ?_⟩
  rw [← Nat.add_assoc]
  exact Memory.read_scramble_inside m (t.dst + r) (t.d - r) s.fresh (by omega)

/-- After an error of the frame every destination byte is its own draw. -/
theorem settle_free_after_error (s : State) {t : Transfer} {o : OpOutcome} (m : Memory) (he : o.errAt.isSome = true) :
    (s.settle t o m).fresh = s.fresh + t.d ∧ ∀ k < t.d, (s.settle t o m).mem.read (t.dst + k) = Config.freeByte (s.fresh + k) := by
  have key (k : Nat) (hk : k < t.d) : (m.scramble t.dst t.d s.fresh).read (t.dst + k) = Config.freeByte (s.fresh + k) :=
    Memory.read_scramble_inside m t.dst t.d s.fresh hk
  cases o
  case zeroMarker => exact ⟨rfl, key⟩
  case zeroBinary => exact ⟨rfl, key⟩
  case chunkOverflow => exact ⟨rfl, key⟩
  all_goals cases he

theorem ExecNext.free_from_result {s u : State} {i : Instr} {t : Transfer} {r : Nat} (h : ExecNext s i u) (hi : i.isTransform = true)
    (ht : s.core.operands.transfer = some t) (hr : u.core.result = some r) :
    r ≤ t.d ∧ u.fresh = s.fresh + (t.d - r) ∧ ∀ k, r + k < t.d → u.mem.read (t.dst + (r + k)) = Config.freeByte (s.fresh + k) := by
  have hread := Operands.readTransfer_of_some s.plat.width s.fresh ht
  cases h with
  | enccap n f hn hw => cases hi
  | deccap n f hn => cases hi
  | encSmall t' f ht' ha hw hd => cases hr
  | encode i hi t' f ht' ha hw hd =>
    cases hread.symm.trans ht'
    rw [State.settle_result] at hr
    refine ⟨?_, settle_free_from_result _ _ hr⟩
    cases hr
    exact Nat.le_trans (encodeCore_le t s.mem) hd
  | decEmpty i hi t' f ht' ha hn => cases hr
  | decSmall t' f ht' ha hn hd => cases hr
  | decode i hi t' f ht' ha hn hd o m he =>
    cases hread.symm.trans ht'
    rw [State.settle_result] at hr
    refine ⟨?_, settle_free_from_result _ _ hr⟩
    have hok := decodeCore_ended hn he
    cases o <;> cases hr
    exact Nat.le_trans hok (by omega)

theorem ExecNext.free_after_error {s u : State} {i : Instr} {t : Transfer} (h : ExecNext s i u) (ht : s.core.operands.transfer = some t)
    (hr : u.core.errAt.isSome = true) :
    u.fresh = s.fresh + t.d ∧ ∀ k < t.d, u.mem.read (t.dst + k) = Config.freeByte (s.fresh + k) := by
  have hread := Operands.readTransfer_of_some s.plat.width s.fresh ht
  cases h with
  | enccap n f hn hw => cases hr
  | deccap n f hn =>
    rw [State.complete_core, CodecCore.complete_errAt, deccapOutcome] at hr
    cases hd : decodeCapacity n <;> rw [hd] at hr <;> cases hr
  | encSmall t' f ht' ha hw hd => cases hr
  | encode i hi t' f ht' ha hw hd => cases hr
  | decEmpty i hi t' f ht' ha hn => cases hr
  | decSmall t' f ht' ha hn hd => cases hr
  | decode i hi t' f ht' ha hn hd o m he =>
    cases hread.symm.trans ht'
    rw [State.settle_core, CodecCore.complete_errAt] at hr
    exact settle_free_after_error _ m hr

/-! ### Operand registers without a value -/

/-- The state with other operand registers in the addressed core. -/
def State.withOperands (s : State) (o : Operands) : State := { s with core := { s.core with operands := o } }

/-- What a transform does once its operands are latched commutes with every update the operation ignores (R38). -/
theorem exec_afterLatch {i : Instr} (hi : i.isTransform = true) : ∃ go : Transfer → State → Out,
    (∀ s, exec i s = whenIdle s (withTransfer s.core.operands s go)) ∧
    ∀ g, Ignored g → ∀ t v, regionFault (g v) t = regionFault v t → go t (g v) = mapNext g (go t v) := by
  cases i <;> cases hi <;> refine ⟨_, fun s => rfl, fun g h t v hf => ?_⟩
  case enc =>
    exact unlessFault_mapNext (h.transferFault hf .enc) (h.raiseOr _ _ (congrArg Host.Outcome.next (h.encodeAll v t)))
  case encu => exact unlessFault_mapNext (h.transferFault hf .encu) (congrArg Host.Outcome.next (h.encodeAll v t))
  case dec => exact unlessFault_mapNext (h.transferFault hf .dec) (h.raiseOr _ _ (h.decodeAll v t))
  case decu => exact unlessFault_mapNext (h.transferFault hf .decu) (h.raiseOr _ _ (h.decodeAll v t))

/-- A transform answers what it answers on operand registers that hold what it latched; only those registers stay as they were (R24, R31). -/
theorem exec_on_latched {i : Instr} {s : State} {t : Transfer} {f : Nat} (hi : i.isTransform = true) (hb : s.core.status.busy = false)
    (ht : s.core.operands.readTransfer s.plat.width s.fresh = (t, f)) :
    exec i s = mapNext (·.withOperands s.core.operands) (exec i ((s.drawn f).withOperands t.operands)) := by
  obtain ⟨go, hexec, hgo⟩ := exec_afterLatch hi
  have hb' : ((s.drawn f).withOperands t.operands).core.status.busy = false := hb
  have hlatched : ((s.drawn f).withOperands t.operands).core.operands.transfer = some t := rfl
  rw [hexec, hexec, whenIdle_of_idle _ hb, whenIdle_of_idle _ hb', withTransfer_of_some _ _ hlatched, withTransfer, ht]
  exact hgo _ (ignored_operands s.core.operands) t ((s.drawn f).withOperands t.operands) (regionFault_congr t rfl rfl)

/-- Latching only advances the free-value counter. -/
theorem Operands.readTransfer_le (o : Operands) (w f : Nat) : f ≤ (o.readTransfer w f).2 :=
  calc f ≤ _ := latchWord_le w f o.srcBase
    _ ≤ _ := latchWord_le w _ o.srcLen
    _ ≤ _ := latchWord_le w _ o.dstBase
    _ ≤ _ := latchWord_le w _ o.dstLen

/-- Where no operand register holds a value, each operand is its own draw. -/
theorem Operands.readTransfer_empty (w f : Nat) : Operands.empty.readTransfer w f =
    ({ src := (Config.freeWord w f).toNat, n := (Config.freeWord w (f + 1)).toNat,
       dst := (Config.freeWord w (f + 2)).toNat, d := (Config.freeWord w (f + 3)).toNat }, f + 4) := rfl

/-- A sizing command's SRC_LEN without a value is a draw. -/
theorem Operands.readLength_of_none {o : Operands} (w f : Nat) (h : o.srcLen = none) :
    o.readLength w f = ((Config.freeWord w f).toNat, f + 1) := by
  rw [readLength, h]
  rfl

theorem exec_enccap_overflow {s : State} {n f : Nat} (hb : s.core.status.busy = false)
    (hn : s.core.operands.readLength s.plat.width s.fresh = (n, f)) (hw : 2 ^ s.plat.width ≤ encodeCapacity n) :
    exec .enccap s = .fault .capacityOverflow := by
  have hf : capacityFault s n = some .capacityOverflow := if_pos hw
  simp only [exec, execEnccap, whenIdle_of_idle _ hb, withLength, hn, capacityFault_drawn, hf, unlessFault_some]

theorem deccapOutcome_eq (n : Nat) : deccapOutcome n = if n = 0 then .invalidArgument else .ok (n - 1) := by
  by_cases hn : n = 0 <;> simp [deccapOutcome, decodeCapacity, hn]

/-- Settles O33: completion draws the bytes R53 leaves unspecified, and a register without a value is latched as a draw. -/
theorem unspecifiedValuesAreFree : Obligations.UnspecifiedValuesAreFree := by
  refine ⟨fun i s u t ht h => ?_, fun i s hi hb => ?_, fun i s hi hb hnone => ?_⟩
  · have hn := exec_next h
    exact ⟨fun r hi hr => hn.free_from_result hi ht hr, hn.free_after_error ht⟩
  · have hg := s.core.operands.readTransfer_gives s.plat.width s.fresh
    have hle := s.core.operands.readTransfer_le s.plat.width s.fresh
    have hx := exec_on_latched (s := s) hi hb rfl
    refine ⟨_, _, hg, hle, fun hempty => ?_, fun u hu => hx.trans (congrArg (mapNext _) hu), fun x hf => hx.trans (congrArg (mapNext _) hf)⟩
    rw [hempty, Operands.readTransfer_empty]
    exact ⟨rfl, rfl, rfl, rfl, rfl⟩
  · have hn := Operands.readLength_of_none s.plat.width s.fresh hnone
    refine ⟨_, rfl, ?_, ?_, ?_⟩
    · rintro rfl hw
      exact ⟨_, (ExecNext.enccap _ _ hn hw).exec hb, completed_complete _ _, (sameFrame_complete _ _).of_drawn, rfl⟩
    · rintro rfl hw
      exact exec_enccap_overflow hb hn hw
    · rintro rfl
      rw [← deccapOutcome_eq]
      exact ⟨_, (ExecNext.deccap _ _ hn).exec hb, completed_complete _ _, (sameFrame_complete _ _).of_drawn, rfl⟩

end Sys2Proof.Machine
end

section
/-! SUPPORT. Command words (30_encoding.md R60 to R62, R66): a word is put together from its fields, so the decoder and the encoder are
inverse to each other, and the words that select no operation complete with ILLEGAL_COMMAND. -/

namespace Sys2Proof.Machine

/-! ### The words of R61 -/

@[simp] theorem encode_enccap : encode .enccap = 0x01#8 := rfl
@[simp] theorem encode_enc : encode .enc = 0x02#8 := rfl
@[simp] theorem encode_encu : encode .encu = 0x03#8 := rfl
@[simp] theorem encode_deccap : encode .deccap = 0x05#8 := rfl
@[simp] theorem encode_dec : encode .dec = 0x06#8 := rfl
@[simp] theorem encode_decu : encode .decu = 0x07#8 := rfl

/-! ### The decoder and the encoder -/

/-- A command word is what its fields put together (R60). -/
theorem assembleFields_cmdFields (c : Byte) : assembleFields (cmdFields c) = c := by
  apply BitVec.eq_of_toNat_eq
  simp only [assembleFields, cmdFields, toNat_append_eq, BitVec.extractLsb'_toNat, Nat.shiftRight_eq_div_pow]
  have := c.isLt
  omega

/-- The decoder answers a command only for a word with that command's fields (R61, R62). -/
theorem cmdFields_of_decode {c : Byte} {i : Instr} (h : decode c = .ok i) : cmdFields c = i.fields := by
  unfold decode at h
  generalize cmdFields c = f at h ⊢
  obtain ⟨rsv, dir, op⟩ := f
  have hop : ∀ x : BitVec 2, x = 0b00#2 ∨ x = 0b01#2 ∨ x = 0b10#2 ∨ x = 0b11#2 := by decide
  by_cases hrsv : rsv = 0b00000#5
  · subst hrsv
    rcases BitVec.eq_zero_or_eq_one dir with rfl | rfl <;> rcases hop op with rfl | rfl | rfl | rfl <;> cases h <;> rfl
  · simp [hrsv] at h

theorem decodeCmd_eq_some {c : Byte} {i : Instr} : decodeCmd c = some i ↔ decode c = .ok i := by
  unfold decodeCmd
  cases decode c <;> simp

/-- The encoder and the decoder are inverse to each other (R61, R62). -/
theorem decodeCmd_iff {c : Byte} {i : Instr} : decodeCmd c = some i ↔ c = encode i := by
  refine ⟨fun h => ?_, fun h => h ▸ decodeCmd_encode i⟩
  rw [encode, ← cmdFields_of_decode (decodeCmd_eq_some.1 h), assembleFields_cmdFields]

/-- Settles O1: each row of the table is the encoding of its command. -/
theorem commandWordsDecode : Obligations.CommandWordsDecode := by
  intro c i
  rw [decodeCmd_iff]
  cases i <;> simp

/-- The opcode table numbers a command word as the core reads it (R67). -/
theorem decodeTableWord_toNat (c : Byte) : decodeTableWord 8 c.toNat = decodeCmd c := by
  rw [decodeTableWord, if_pos ⟨rfl, c.isLt⟩, BitVec.ofNat_toNat, BitVec.setWidth_eq]

theorem instr_wf (i : Instr) : i.wf = true := by
  cases i <;> rfl

/-- Settles O2: the decoder undoes the encoder, and a word that decodes is its command's encoding. -/
theorem encodedCommandsDecode : Obligations.EncodedCommandsDecode :=
  ⟨fun i => ⟨instr_wf i, decodeCmd_eq_some.1 (decodeCmd_encode i), (decodeTableWord_toNat _).trans (decodeCmd_encode i)⟩,
    fun _ _ h => (decodeCmd_iff.1 h).symm⟩

/-! ### Illegal words -/

/-- The words of R66 select no operation: none of them is the encoding of a command. -/
theorem decodeCmd_illegal {c : Byte} (h : c = 0x00#8 ∨ c = 0x04#8 ∨ 0x08 ≤ c.toNat) : decodeCmd c = none := by
  refine Option.eq_none_iff_forall_ne_some.2 fun i hi => ?_
  rw [decodeCmd_iff.1 hi] at h
  exact absurd h (by cases i <;> decide)

theorem execIllegal_idle {s : State} (h : s.core.status.busy = false) : execIllegal s = .next (s.complete .illegalCommand) :=
  whenIdle_of_idle _ h

/-- Settles O3: such a word completes without a look at operands or memory. -/
theorem illegalWordsComplete : Obligations.IllegalWordsComplete := by
  intro c s hc hb
  refine ⟨s.complete .illegalCommand, ?_, completed_complete s _, sameFrame_complete s _, rfl, rfl⟩
  rw [hostWrite_cmd, writeCmd_illegal (decodeCmd_illegal hc), execIllegal_idle hb]

end Sys2Proof.Machine
end

section
/-! SUPPORT. Which command words raise which outcome (30_encoding.md R65). -/

namespace Sys2Proof.Machine

/-- The "raised by" column of R65: the outcomes a word that decodes to `d` may complete with. -/
def OpOutcome.RaisedBy (d : Option Instr) : OpOutcome → Prop
  | .ok _ => ∃ i, d = some i
  | .emptyInput => d = some .dec ∨ d = some .decu
  | .bufferTooSmall _ _ => d = some .enc ∨ d = some .dec
  | .zeroMarker _ => d = some .dec ∨ d = some .decu
  | .zeroBinary _ => d = some .dec ∨ d = some .decu
  | .chunkOverflow _ _ _ => d = some .dec ∨ d = some .decu
  | .invalidArgument => d = some .deccap
  | .illegalCommand => d = none

theorem deccapOutcome_raisedBy (n : Nat) : (deccapOutcome n).RaisedBy (some .deccap) := by
  rw [deccapOutcome_eq]
  split
  · exact rfl
  · exact ⟨_, rfl⟩

/-- DECODE_CORE ends with OK or an error of the frame (R107, R116 to R118). -/
theorem Walk.Ok.raisedBy {t : Transfer} {o : OpOutcome} {m : Memory} (h : (Walk.ended o m).Ok t) {i : Instr} (hi : i = .dec ∨ i = .decu) :
    o.RaisedBy (some i) := by
  have hd : some i = some Instr.dec ∨ some i = some Instr.decu := hi.imp (congrArg some) (congrArg some)
  cases o
  case ok => exact ⟨i, rfl⟩
  case zeroMarker => exact hd
  case zeroBinary => exact hd
  case chunkOverflow => exact hd
  all_goals exact h.elim

theorem ExecNext.raisedBy {s u : State} {i : Instr} (h : ExecNext s i u) : ∃ o, Completed u o ∧ o.RaisedBy (some i) := by
  cases h with
  | enccap n f hn hw => exact ⟨_, completed_complete _ _, ⟨_, rfl⟩⟩
  | deccap n f hn => exact ⟨_, completed_complete _ _, deccapOutcome_raisedBy n⟩
  | encSmall t f ht ha hw hd => exact ⟨_, completed_complete _ _, .inl rfl⟩
  | encode i hi t f ht ha hw hd => exact ⟨_, completed_settle _ t _ _, ⟨_, rfl⟩⟩
  | decEmpty i hi t f ht ha hn => exact ⟨_, completed_complete _ _, hi.imp (congrArg some) (congrArg some)⟩
  | decSmall t f ht ha hn hd => exact ⟨_, completed_complete _ _, .inr rfl⟩
  | decode i hi t f ht ha hn hd o m he => exact ⟨_, completed_settle _ t _ _, (decodeCore_ended hn he).raisedBy hi⟩

theorem writeCmd_raisedBy {c : Byte} {s u : State} (h : writeCmd c s = .next u) : ∃ o, Completed u o ∧ o.RaisedBy (decodeCmd c) := by
  rcases writeCmd_next h with ⟨i, hi, hx⟩ | ⟨hc, -, rfl⟩
  · exact hi ▸ (exec_next hx).raisedBy
  · exact ⟨_, completed_complete s _, hc⟩

/-- Settles O30: a code belongs to one kind of outcome, and that kind to its commands. -/
theorem statusCodesByCommand : Obligations.StatusCodesByCommand := by
  intro c s u h
  obtain ⟨o, hc, hr⟩ := writeCmd_raisedBy h
  refine ⟨o.code, by rw [hc.status], o.code_le, ?_⟩
  cases o <;> simpa [OpOutcome.code, OpOutcome.RaisedBy] using hr

end Sys2Proof.Machine
end

section
/-! SUPPORT. Command lines (30_encoding.md R70): the operand writes of a line set the operand registers, its CMD write runs the command, and
one poll of the completed core reads its STATUS. -/

namespace Sys2Proof.Machine

/-! ### Runs -/

/-- A run of `k + 1` steps to a next state is a step and a run of `k`. -/
theorem run_succ_eq_next (M : Host.Core) (k : Nat) (s v : M.State) :
    M.run (k + 1) s = .next v ↔ ∃ u, M.step s = .next u ∧ M.run k u = .next v := by
  rw [Host.Core.run]
  cases M.step s <;> simp

theorem runsTo_succ {k : Nat} {s v : State} : RunsTo (k + 1) s v ↔ ∃ u, step s = .next u ∧ RunsTo k u v :=
  run_succ_eq_next Sys2Proof.core k s v

theorem RunsTo.append {j k : Nat} {s u v : State} (hj : RunsTo j s u) (hk : RunsTo k u v) : RunsTo (j + k) s v := by
  induction j generalizing s with
  | zero => cases hj; rwa [Nat.zero_add]
  | succ j ih =>
    obtain ⟨w, hw, hj⟩ := runsTo_succ.1 hj
    rw [Nat.succ_add]
    exact runsTo_succ.2 ⟨w, hw, ih hj⟩

/-! ### The operand writes -/

/-- The operand registers after a write of `v` to the register `r`: the others keep their values (R24). -/
def Operands.set (o : Operands) (v : Nat) : Reg → Operands
  | .srcBase => { o with srcBase := some v }
  | .srcLen => { o with srcLen := some v }
  | .dstBase => { o with dstBase := some v }
  | .dstLen => { o with dstLen := some v }
  | _ => o

/-- The operand registers after the write `x`, a register number and a value. -/
def Operands.afterWrite (o : Operands) (x : BitVec 4 × Nat) : Operands :=
  match Reg.ofNumber x.1 with
  | some r => o.set x.2 r
  | none => o

/-- The numbers of the operand registers (R21). -/
def operandNumbers : List (BitVec 4) := [0x2#4, 0x3#4, 0x4#4, 0x5#4]

/-- Each of these numbers is that of a register of W bits whose write sets that register alone (R24). -/
theorem exists_operandRegister {k : BitVec 4} (hk : k ∈ operandNumbers) :
    ∃ r, Reg.ofNumber k = some r ∧ (∀ w, r.width w = w) ∧ ∀ v s, writeReg r v s = writeOperands (s.core.operands.set v r) s := by
  simp only [operandNumbers, List.mem_cons, List.not_mem_nil, or_false] at hk
  rcases hk with rfl | rfl | rfl | rfl
  · exact ⟨.srcBase, rfl, fun _ => rfl, fun _ _ => rfl⟩
  · exact ⟨.srcLen, rfl, fun _ => rfl, fun _ _ => rfl⟩
  · exact ⟨.dstBase, rfl, fun _ => rfl, fun _ _ => rfl⟩
  · exact ⟨.dstLen, rfl, fun _ => rfl, fun _ _ => rfl⟩

/-- A write of a W-bit value to an operand register of an idle core sets that register. -/
theorem hostWrite_operand {s : State} {x : BitVec 4 × Nat} (hx : x.1 ∈ operandNumbers) (hfit : fits s.plat.width x.2)
    (hb : s.core.status.busy = false) :
    hostWrite x.1 s.plat.width (BitVec.ofNat s.plat.width x.2) s =
      .next { s with core := { s.core with operands := s.core.operands.afterWrite x } } := by
  obtain ⟨r, hr, hw, hwrite⟩ := exists_operandRegister hx
  have hv : x.2 % 2 ^ s.plat.width = x.2 := Nat.mod_eq_of_lt hfit
  simp [hostWrite, hr, hw, hv, hwrite, writeOperands_idle hb, Operands.afterWrite]

theorem step_operandWrite {s : State} {x : BitVec 4 × Nat} {rest : List HostEvent}
    (hhost : s.host = .write x.1 s.plat.width (BitVec.ofNat s.plat.width x.2) :: rest) (hx : x.1 ∈ operandNumbers)
    (hfit : fits s.plat.width x.2) (hb : s.core.status.busy = false) :
    step s = .next { s with host := rest, core := { s.core with operands := s.core.operands.afterWrite x } } :=
  (step_event hhost).trans (hostWrite_operand (s := { s with host := rest }) hx hfit hb)

/-- Operand writes at the head of the schedule, one step each, set the operand registers in their order. -/
theorem runsTo_operandWrites (ws : List (BitVec 4 × Nat)) {s : State} {rest : List HostEvent} (hb : s.core.status.busy = false)
    (hws : ∀ x ∈ ws, x.1 ∈ operandNumbers ∧ fits s.plat.width x.2)
    (hhost : s.host = (ws.map fun x => HostEvent.write x.1 s.plat.width (BitVec.ofNat s.plat.width x.2)) ++ rest) :
    RunsTo ws.length s
      { s with host := rest, core := { s.core with operands := ws.foldl Operands.afterWrite s.core.operands } } := by
  induction ws generalizing s with
  | nil => subst hhost; rfl
  | cons x ws ih =>
    obtain ⟨hx, hfit⟩ := hws x List.mem_cons_self
    have hrest := fun y hy => hws y (List.mem_cons_of_mem x hy)
    exact runsTo_succ.2 ⟨_, step_operandWrite hhost hx hfit hb, ih (s := { s with host := _, core := _ }) hb hrest rfl⟩

/-! ### A line -/

/-- The registers a line writes are operand registers, and where the line fits it writes W-bit values (R70). -/
theorem Line.operandWrites_ok {l : Line} {w : Nat} (h : l.fits w = true) :
    ∀ x ∈ l.operandWrites, x.1 ∈ operandNumbers ∧ Sys2Proof.fits w x.2 := by
  have hnum : ∀ x ∈ l.operandWrites, x.1 ∈ operandNumbers := by
    cases l <;> simp [Line.operandWrites, operandNumbers]
  exact fun x hx => ⟨hnum x hx, of_decide_eq_true (List.all_eq_true.1 h x hx)⟩

/-- The writes of a line leave the operand registers as `operandsAfter` says. -/
theorem Line.foldl_operandWrites (l : Line) (o : Operands) : l.operandWrites.foldl Operands.afterWrite o = l.operandsAfter o := by
  cases l <;> rfl

/-- One poll of a completed core: STATUS reads DONE = 1, BUSY = 0 and the code, and `rest` is left to do (R23, R70). -/
theorem step_poll_completed {s : State} {rest : List HostEvent} {o : OpOutcome} (hhost : s.host = .poll :: rest) (hc : Completed s o) :
    step s = .next { s with host := rest, reply := some (.value (512 + o.code.toNat)) } := by
  have hdone : s.core.status.done = true := by rw [hc.status]
  have hword : ({ s with host := rest } : State).statusRead = (s.core.status.word (Config.freeCode s.fresh), s.fresh) := by
    simp [State.statusRead, hc.status]
  rw [step_event hhost]
  refine (pollStatus_done hdone rest).trans ((hostRead_status _).trans ?_)
  simp only [hword, Status.word_toNat, Status.codeField, hc.status, Bool.toNat_true, Bool.toNat_false]

/-- Settles O60: the operand writes, the CMD write as the command's own transition, and the poll of the completed core. -/
theorem commandLinesRun : Obligations.CommandLinesRun := by
  refine ⟨fun w a b c d => ⟨?_, ?_, fun l x hx => ?_⟩, fun s u l rest k hb hfit hhost hexec hk => ?_⟩
  · simp [Line.events, Line.operandWrites, Line.instr]
  · simp [Line.events, Line.operandWrites, Line.instr]
  · simp only [List.mem_cons, List.not_mem_nil, or_false, Prod.mk.injEq] at hx
    rcases hx with ⟨rfl, rfl⟩ | ⟨rfl, rfl⟩ | ⟨rfl, rfl⟩ | ⟨rfl, rfl⟩ <;> simp [Line.events, Line.operandWrites, Line.instr]
  · rw [Line.events, List.append_assoc] at hhost
    have hwrites := runsTo_operandWrites l.operandWrites hb (Line.operandWrites_ok hfit) hhost
    rw [l.foldl_operandWrites] at hwrites
    obtain ⟨o, hc, hframe⟩ := (exec_next hexec).completed
    have hcode : o.code = k := Option.some.inj ((congrArg Status.code hc.status).symm.trans hk)
    have hcmd := (writeCmd_legal (decodeCmd_encode l.instr) _).trans hexec
    have hstep := (step_cmdWrite (s := { s with host := _, core := _ }) rfl).trans hcmd
    exact hwrites.append (runsTo_succ.2 ⟨u, hstep, runsTo_succ.2 ⟨_, hcode ▸ step_poll_completed hframe.host hc, rfl⟩⟩)

end Sys2Proof.Machine
end

section
/-! SUPPORT. Sizing (40_capacity.md R72 to R77): what ENCCAP and DECCAP answer as a function of the length operand, and where the capacity
does not fit W bits. -/

namespace Sys2Proof.Machine

/-! ### The capacity as a number (R72) -/

/-- ⌈n / 254⌉ is the least `q` with n ≤ 254 q. -/
theorem encodeCapacity_eq {n q : Nat} (hle : n ≤ 254 * q) (hlt : 254 * q < n + 254) : encodeCapacity n = n + q + 1 := by
  unfold encodeCapacity ceilDiv Config.maxData
  omega

/-! ### ENCCAP and DECCAP on a length that SRC_LEN holds -/

theorem capacityFault_of_ge {s : State} {n : Nat} (h : 2 ^ s.plat.width ≤ encodeCapacity n) :
    capacityFault s n = some .capacityOverflow := if_pos h

/-- CapacityOverflow looks at W only (R75). -/
theorem capacityFault_congr {s s' : State} (h : s'.plat.width = s.plat.width) (n : Nat) : capacityFault s' n = capacityFault s n := by
  unfold capacityFault
  rw [h]

section
variable {s : State} {n : Nat} (hb : s.core.status.busy = false) (hn : s.core.operands.srcLen = some n)
include hb hn

theorem exec_enccap_eq : exec .enccap s = unlessFault (capacityFault s n) (.next (s.complete (enccapOutcome n))) := by
  rw [exec, execEnccap, whenIdle_of_idle _ hb, withLength_of_some _ _ hn]

theorem exec_deccap_eq : exec .deccap s = .next (s.complete (deccapOutcome n)) := by
  rw [exec, execDeccap, whenIdle_of_idle _ hb, withLength_of_some _ _ hn]

end

/-- A completion with `o` and nothing stored: what a sizing command leaves (R76, R77). -/
theorem complete_leaves (s : State) (o : OpOutcome) :
    Completed (s.complete o) o ∧ SameFrame s (s.complete o) ∧ MemoryKept s (s.complete o) :=
  ⟨completed_complete s o, sameFrame_complete s o, rfl, rfl⟩

/-- Settles O5: the outcome is the capacity, and the fault its not fitting W bits. -/
theorem enccapComputesTheCapacity : Obligations.EnccapComputesTheCapacity := by
  intro s n q hb hn hle hlt
  rw [exec_enccap_eq hb hn, enccapOutcome, encodeCapacity_eq hle hlt]
  refine ⟨fun hw => ⟨_, ?_, complete_leaves s _⟩, fun hw => ?_⟩
  · rw [capacityFault_eq_none.2 (encodeCapacity_eq hle hlt ▸ hw), unlessFault_none]
  · rw [capacityFault_of_ge (encodeCapacity_eq hle hlt ▸ hw), unlessFault_some]

/-- Settles O6: DECCAP has no fault, and its outcome is a case split on n = 0. -/
theorem deccapComputesTheCapacity : Obligations.DeccapComputesTheCapacity := by
  intro s n hb hn
  rw [exec_deccap_eq hb hn, deccapOutcome_eq]
  refine ⟨fun hpos => ?_, fun hzero => ?_⟩
  · rw [if_neg (by omega)]
    exact ⟨_, rfl, complete_leaves s _⟩
  · rw [if_pos hzero]
    exact ⟨_, rfl, complete_leaves s _⟩

/-- A completion with the same outcome leaves the same core but for the operand registers, and a fault is the same fault (R19, R74). -/
theorem complete_sameAnswer {s s' : State} (e : Option Fault) (o : OpOutcome) :
    (∀ u, unlessFault e (.next (s.complete o)) = .next u →
      ∃ u', unlessFault e (.next (s'.complete o)) = .next u' ∧ u'.core = { u.core with operands := s'.core.operands }) ∧
    (∀ f, unlessFault e (.next (s.complete o)) = .fault f → unlessFault e (.next (s'.complete o)) = .fault f) := by
  cases e with
  | none =>
    refine ⟨?_, ?_⟩
    · rintro u ⟨⟩
      exact ⟨_, rfl, rfl⟩
    · rintro f ⟨⟩
  | some x =>
    refine ⟨?_, fun f hf => hf⟩
    rintro u ⟨⟩

/-- Settles O7: the outcome is a function of the length, and the fault of the length and W. -/
theorem sizingReadsOnlyTheLength : Obligations.SizingReadsOnlyTheLength := by
  intro i s s' n hi hb hb' hn hn' hw
  simp only [List.mem_cons, List.not_mem_nil, or_false] at hi
  rcases hi with rfl | rfl
  · rw [exec_enccap_eq hb hn, exec_enccap_eq hb' hn', capacityFault_congr hw]
    exact complete_sameAnswer _ _
  · rw [exec_deccap_eq hb hn, exec_deccap_eq hb' hn']
    exact complete_sameAnswer none _

/-! ### CapacityOverflow (R75) -/

/-- The fault a transform's operands establish is the fault of the transform as one transition (R125 step 1). -/
theorem Ready.exec_fault {i : Instr} {s : State} {t : Transfer} {f : Fault} (hr : Ready s t) (hi : i.isTransform = true)
    (h : transferFault i s t = some f) : exec i s = .fault f := by
  obtain ⟨go, hgo⟩ := exec_transform hi
  rw [hgo, whenIdle_of_idle _ hr.idle, withTransfer_of_some _ _ hr.transfer, h, unlessFault_some]

theorem encFault_overflow {s : State} {t : Transfer} (ha : Admitted s t) (hw : 2 ^ s.plat.width ≤ encodeCapacity t.n) :
    encFault s t = some .capacityOverflow := by
  rw [encFault, regionFault_eq_none.2 ha, Option.none_or, capacityFault_of_ge hw]

theorem encuFault_overflow {s : State} {t : Transfer} (ha : Admitted s t) (hw : 2 ^ s.plat.width ≤ encodeCapacity t.n) :
    encuFault s t = some .capacityOverflow := by
  rw [encuFault, encFault_overflow ha hw, Option.some_or]

/-- Settles O8: past the region checks the capacity is judged first, and the thresholds are arithmetic. -/
theorem capacityOverflowFaults : Obligations.CapacityOverflowFaults := by
  refine ⟨fun s n hb hn hw => ?_, fun i s t hi hr ha hw => ?_, fun w first hwf n => ?_, fun w n v hn hv => ?_⟩
  · exact exec_enccap_overflow hb (Operands.readLength_of_some _ _ hn) hw
  · simp only [List.mem_cons, List.not_mem_nil, or_false] at hi
    rcases hi with rfl | rfl
    · exact hr.exec_fault rfl (encFault_overflow ha hw)
    · exact hr.exec_fault rfl (encuFault_overflow ha hw)
  · simp only [List.mem_cons, List.not_mem_nil, or_false, Prod.mk.injEq] at hwf
    unfold encodeCapacity ceilDiv Config.maxData
    rcases hwf with ⟨rfl, rfl⟩ | ⟨rfl, rfl⟩ | ⟨rfl, rfl⟩ <;> omega
  · unfold decodeCapacity at hv
    split at hv <;> cases hv
    omega

end Sys2Proof.Machine
end

section
/-! SUPPORT. The length of a frame (40_capacity.md R72, R78, R79): the payload and one marker byte for every 254 bytes or part of them, which
a payload without 0x00 attains. -/

namespace Sys2Proof.Machine

/-! ### Byte by byte -/

/-- The frame bytes to come hold the open chunk and its marker, unless the chunk is empty and finalization retracts it (R86). -/
theorem streamed_covers (cur : List Byte) (lastz : Bool) (q : List Byte) :
    (cur = [] ∧ streamed cur lastz q = []) ∨ cur.length + 1 ≤ (streamed cur lastz q).length := by
  induction q generalizing cur lastz with
  | nil =>
    rw [streamed_nil, closing]
    split
    · exact .inr (by simp [shortChunk])
    · rename_i h
      exact .inl ⟨by simpa using (not_or.1 h).1, rfl⟩
  | cons b q ih =>
    right
    by_cases hb : b = 0x00#8
    · rw [hb, streamed_zero]
      simp [shortChunk]
    · by_cases hfull : cur.length = 253
      · rw [streamed_full cur lastz q hb hfull]
        simp
      · rw [streamed_data cur lastz q hb hfull]
        rcases ih (cur ++ [b]) false with ⟨h, -⟩ | h
        · simp at h
        · rw [List.length_append] at h
          omega

/-- Each 254 bytes or part of them take one marker at most; a 0x00 just read leaves a chunk to close. -/
theorem length_streamed_le (cur : List Byte) (lastz : Bool) (q : List Byte) (hc : cur.length ≤ 253) :
    (streamed cur lastz q).length ≤ cur.length + q.length + ceilDiv (cur.length + q.length + lastz.toNat) 254 := by
  unfold ceilDiv
  induction q generalizing cur lastz with
  | nil =>
    rw [streamed_nil, closing]
    split
    · rename_i h
      have hpos : 1 ≤ cur.length + lastz.toNat := by
        rcases h with h | rfl
        · have := List.length_pos_iff.2 h
          omega
        · simp
      simp only [shortChunk, List.length_cons, List.length_nil]
      omega
    · simp
  | cons b q ih =>
    by_cases hb : b = 0x00#8
    · have hrest := ih [] true (by simp)
      rw [hb, streamed_zero]
      simp only [shortChunk, List.length_append, List.length_cons, List.length_nil, Bool.toNat_true] at hrest ⊢
      omega
    · by_cases hfull : cur.length = 253
      · have hrest := ih [] false (by simp)
        rw [streamed_full cur lastz q hb hfull]
        simp only [List.length_append, List.length_cons, List.length_nil, Bool.toNat_false] at hrest ⊢
        omega
      · have hrest := ih (cur ++ [b]) false (by simp; omega)
        rw [streamed_data cur lastz q hb hfull]
        simp only [List.length_append, List.length_cons, List.length_nil, Bool.toNat_false] at hrest ⊢
        omega

/-- Without a 0x00 they take no less. -/
theorem le_length_streamed (cur : List Byte) (lastz : Bool) (q : List Byte) (hc : cur.length ≤ 253) (hq : 0x00#8 ∉ q) :
    cur.length + q.length + ceilDiv (cur.length + q.length) 254 ≤ (streamed cur lastz q).length := by
  unfold ceilDiv
  induction q generalizing cur lastz with
  | nil =>
    rw [streamed_nil, closing]
    split
    · simp only [shortChunk, List.length_cons, List.length_nil]
      omega
    · rename_i h
      simp [show cur = [] by simpa using (not_or.1 h).1]
  | cons b q ih =>
    have hb : b ≠ 0x00#8 := fun h => hq (by simp [h])
    have hq' : 0x00#8 ∉ q := fun h => hq (by simp [h])
    by_cases hfull : cur.length = 253
    · have hrest := ih [] false (by simp) hq'
      rw [streamed_full cur lastz q hb hfull]
      simp only [List.length_append, List.length_cons, List.length_nil] at hrest ⊢
      omega
    · have hrest := ih (cur ++ [b]) false (by simp; omega) hq'
      rw [streamed_data cur lastz q hb hfull]
      simp only [List.length_append, List.length_cons, List.length_nil] at hrest ⊢
      omega

/-! ### The whole frame -/

theorem length_frameOf_le {p : List Byte} (hp : p ≠ []) : (frameOf p).length ≤ p.length + ceilDiv p.length 254 := by
  rw [← streamed_eq_frameOf hp]
  simpa using length_streamed_le [] false p (by simp)

theorem length_frameOf_of_no_zero {p : List Byte} (hp : p ≠ []) (hz : 0x00#8 ∉ p) :
    (frameOf p).length = p.length + ceilDiv p.length 254 := by
  refine Nat.le_antisymm (length_frameOf_le hp) ?_
  rw [← streamed_eq_frameOf hp]
  simpa using le_length_streamed [] false p (by simp) hz

theorem sourceBytes_length (s : State) (t : Transfer) : (sourceBytes s t).length = t.n := Memory.readBytes_length _ _ _

theorem sourceBytes_ne_nil {s : State} {t : Transfer} (hn : 1 ≤ t.n) : sourceBytes s t ≠ [] := readBytes_ne_nil hn

/-- For n ≥ 1 the frame stays below the capacity (R79). -/
theorem length_frameOf_lt_capacity {s : State} {t : Transfer} (hn : 1 ≤ t.n) :
    (frameOf (sourceBytes s t)).length ≤ t.n + ceilDiv t.n 254 ∧ (frameOf (sourceBytes s t)).length < encodeCapacity t.n := by
  have h := length_frameOf_le (sourceBytes_ne_nil (s := s) hn)
  rw [sourceBytes_length] at h
  exact ⟨h, Nat.lt_succ_of_le h⟩

theorem sourceBytes_empty {s : State} {t : Transfer} (hn : t.n = 0) : sourceBytes s t = [] := by
  rw [sourceBytes, hn, Memory.readBytes_zero]

/-- "the frame the encoder produces has length ≤ encode_capacity(n)" (R78). -/
theorem length_frameOf_le_capacity (s : State) (t : Transfer) : (frameOf (sourceBytes s t)).length ≤ encodeCapacity t.n := by
  rcases Nat.eq_zero_or_pos t.n with hn | hn
  · rw [sourceBytes_empty hn, hn]
    decide
  · exact (length_frameOf_lt_capacity hn).2.le

/-- RESULT of ENC and ENCU is the length of the payload's frame (R91). -/
theorem ExecNext.result_eq_frame_length {s u : State} {i : Instr} {t : Transfer} {r : Nat} (h : ExecNext s i u)
    (hi : i ∈ [Instr.enc, .encu]) (ht : s.core.operands.transfer = some t) (hr : u.core.result = some r) :
    r = (frameOf (sourceBytes s t)).length := by
  rw [← h.frame_written hi ht hr]
  exact (Memory.readBytes_length _ _ _).symm

/-- Settles O14: RESULT is the length of the frame, whose bounds are those above; a destination of the frame's length lacks the capacity. -/
theorem largestFrame : Obligations.LargestFrame := by
  refine ⟨fun i s u t r hi ht h hr => ?_, fun s t hr ha hw hn hd => ?_⟩
  · rw [(exec_next h).result_eq_frame_length hi ht hr]
    refine ⟨fun hn => ?_, length_frameOf_lt_capacity, fun hn hz => ?_⟩
    · rw [sourceBytes_empty hn]
      rfl
    · have hlen := length_frameOf_of_no_zero (sourceBytes_ne_nil hn) hz
      rw [sourceBytes_length] at hlen
      exact ⟨hlen, congrArg (· + 1) hlen⟩
  · have hsmall : t.d < encodeCapacity t.n := hd ▸ (length_frameOf_lt_capacity hn).2
    exact ⟨_, (ExecNext.encSmall t s.fresh (Operands.readTransfer_of_some _ _ hr.transfer) ha hw hsmall).exec hr.idle,
      completed_complete _ _⟩

end Sys2Proof.Machine
end

section
/-! SUPPORT. Where a transform in flight has stored so far (40_capacity.md R78, R80): the stages of the encoder and of the decoder between the
CMD write and the completion. -/

namespace Sys2Proof.Machine

/-! ### Core steps up to the completion -/

/-- What every core step keeps until the completion holds of a core that is still busy. -/
theorem coreSteps_busy {P : State → Prop} (hstep : ∀ s, P s → ∃ u, coreStep s = .next u ∧ (P u ∨ ∃ o, Completed u o)) {s v : State}
    {k : Nat} (hs : P s) (h : coreSteps k s = .next v) (hb : v.core.status.busy = true) : P v := by
  induction k generalizing s with
  | zero => cases h; exact hs
  | succ k ih =>
    obtain ⟨u, hu, hnext⟩ := hstep s hs
    rw [coreSteps_succ_next k hu] at h
    rcases hnext with hp | ⟨o, hc⟩
    · exact ih hp h
    · rw [coreSteps_idle hc.op] at h
      cases h
      cases hc.idle.1.symm.trans hb

/-- A transform in flight, no core step of it taken. -/
def Transfer.inFlight (t : Transfer) (i : Instr) : InFlight := { cmd := encode i, latched := t.operands, work := .started }

/-- On a ready core the CMD write of a transform without a fault starts it on its operands. -/
theorem Ready.issueThenSteps_eq {i : Instr} {s : State} {t : Transfer} (hr : Ready s t) (hi : i.isTransform = true)
    (h : transferFault i s t = none) (k : Nat) : issueThenSteps i k s = coreSteps k (s.start (encode i) t.operands) :=
  issueThenSteps_of hr.idle
    (.transform i (decodeCmd_encode i) hi t s.fresh (Operands.readTransfer_of_some _ _ hr.transfer) h) k

section
variable {i : Instr} {s : State} {t : Transfer}

/-! ### The encoder -/

/-- The encoder between the CMD write and its completion, from the state `s`: the frame is what it has closed and what is to come. -/
inductive EncoderStage (s : State) (fl : InFlight) (t : Transfer) : State → Prop where
  | started : EncoderStage s fl t s
  | running (m : Memory) (e : EncRegs) (done cur : List Byte) (h : Encoded t s.mem e m done cur)
      (hf : done ++ streamed cur e.lastz (s.mem.readBytes (t.src + e.i) (t.n - e.i)) = frameOf (sourceBytes s t)) :
      EncoderStage s fl t (s.working m fl (.encoding e))

/-- Nothing is stored at or beyond the frame length: the open chunk and its slot are part of the frame, unless the slot is retracted. -/
theorem EncoderStage.outside {fl : InFlight} {v : State} (h : EncoderStage s fl t v) {a : Nat}
    (ha : a < t.dst ∨ t.dst + (frameOf (sourceBytes s t)).length ≤ a) : v.mem.read a = s.mem.read a := by
  cases h with
  | started => rfl
  | running m e done cur h hf =>
    have hslot := h.ok.slot
    have hm := h.slot
    have hl := h.len
    rw [← hf, List.length_append] at ha
    refine h.outside a ?_
    rcases streamed_covers cur e.lastz (s.mem.readBytes (t.src + e.i) (t.n - e.i)) with ⟨rfl, hnil⟩ | hcover
    · rw [hnil] at ha
      simp only [List.length_nil] at ha hl
      omega
    · omega

theorem coreStep_encodeFirst (hi : i = .enc ∨ i = .encu) (hd : encodeCapacity t.n ≤ t.d) :
    coreStep (s.start (encode i) t.operands) = .next (encodeFirst (s.start (encode i) t.operands) t) := by
  rw [coreStep_start]
  rcases hi with rfl | rfl
  · have he : encError t = none := if_neg (by omega)
    exact congrArg (fun e => State.raiseOr _ e _) he
  · rfl

/-- A payload byte moves from what is to come into the open or a closed chunk. -/
theorem EncoderStage.byte {fl : InFlight} (hd : encodeCapacity t.n ≤ t.d) (ha : t.Apart) {m : Memory} {e : EncRegs}
    {done cur : List Byte} (h : Encoded t s.mem e m done cur)
    (hf : done ++ streamed cur e.lastz (s.mem.readBytes (t.src + e.i) (t.n - e.i)) = frameOf (sourceBytes s t)) (hi : e.i < t.n) :
    EncoderStage s fl t (s.working (encByteStep t e m).2 fl (.encoding (encByteStep t e m).1)) := by
  obtain ⟨done', cur', hnext, hbytes⟩ := h.step hi (s.mem.readBytes (t.src + e.i + 1) (t.n - e.i - 1))
  refine .running _ _ done' cur' hnext ?_
  have hsrc : t.srcRead m e.i = s.mem.read (t.src + e.i) := h.source hd ha hi
  rw [(encByteStep_mono t e m).1, ← Nat.add_assoc, Nat.sub_add_eq, hbytes, hsrc, ← Memory.readBytes_succ, Nat.sub_add_cancel (by omega), hf]

theorem EncoderStage.step {v : State} (hi : i = .enc ∨ i = .encu) (hd : encodeCapacity t.n ≤ t.d) (ha : t.Apart)
    (h : EncoderStage (s.start (encode i) t.operands) (t.inFlight i) t v) :
    ∃ u, coreStep v = .next u ∧ (EncoderStage (s.start (encode i) t.operands) (t.inFlight i) t u ∨ ∃ o, Completed u o) := by
  have hl : (t.inFlight i).latched.transfer = some t := t.operands_transfer
  cases h with
  | started =>
    refine ⟨_, coreStep_encodeFirst hi hd, ?_⟩
    rw [encodeFirst_eq (fl := t.inFlight i) rfl]
    split
    · exact .inr ⟨_, completed_settle _ t _ _⟩
    · have hp : s.mem.readBytes t.src t.n ≠ [] := readBytes_ne_nil (by omega)
      exact .inl (.running _ encInit [] [] ⟨encInit_ok t, rfl, rfl, rfl, rfl, fun _ _ => rfl⟩ (streamed_eq_frameOf hp))
  | running m e done cur h hf =>
    rcases Nat.lt_or_ge e.i t.n with hlt | hge
    · exact ⟨_, coreStep_encByte hl hlt, .inl (.byte hd ha h hf hlt)⟩
    · exact ⟨_, coreStep_encFinalize hl hge, .inr ⟨_, completed_settle _ t _ _⟩⟩

theorem Encodable.transferFault_eq_none (h : Encodable s t) (hi : i = .enc ∨ i = .encu) : transferFault i s t = none := by
  rcases hi with rfl | rfl
  · exact encFault_eq_none.2 ⟨h.admitted, h.capacityFits⟩
  · exact encuFault_eq_none.2 ⟨h.admitted, h.capacityFits, h.room⟩

/-- Settles O15: a busy encoder is at one of its stages, which have stored below the frame length only. -/
theorem capacitySuffices : Obligations.CapacitySuffices := by
  intro i s t hi h
  have hi : i = .enc ∨ i = .encu := by simpa using hi
  have htr : i.isTransform = true := by rcases hi with rfl | rfl <;> rfl
  refine ⟨length_frameOf_le_capacity s t, fun k v hv hb a ha => ?_⟩
  rw [h.ready.issueThenSteps_eq htr (h.transferFault_eq_none hi)] at hv
  have hstage := coreSteps_busy (fun _ hs => EncoderStage.step hi h.room h.admitted.apart hs) .started hv hb
  exact hstage.outside ha

/-! ### The decoder -/

/-- The decoder between the CMD write and its completion, from the state `s`: it has stored below offset n − 1 only. -/
inductive DecoderStage (s : State) (fl : InFlight) (t : Transfer) : State → Prop where
  | started : DecoderStage s fl t s
  | running (m : Memory) (d : DecRegs) (hok : d.Ok t)
      (hm : ∀ a, a < t.dst ∨ t.dst + (t.n - 1) ≤ a → m.read a = s.mem.read a) :
      DecoderStage s fl t (s.working m fl (.decoding d))

theorem DecoderStage.outside {fl : InFlight} {v : State} (h : DecoderStage s fl t v) {a : Nat}
    (ha : a < t.dst ∨ t.dst + (t.n - 1) ≤ a) : v.mem.read a = s.mem.read a := by
  cases h with
  | started => rfl
  | running m d hok hm => exact hm a ha

/-- A step of the walk leads to the next stage or to the completion. -/
theorem DecoderStage.afterWalk {fl : InFlight} (m : Memory) (k : Work) {w : Walk} (hw : w.Ok t)
    (hm : ∀ a, a < t.dst ∨ t.dst + (t.n - 1) ≤ a → w.mem.read a = s.mem.read a) :
    DecoderStage s fl t ((s.working m fl k).afterWalk t w) ∨ ∃ o, Completed ((s.working m fl k).afterWalk t w) o := by
  cases w with
  | running d m' => exact .inl (.running m' d hw hm)
  | ended o m' => exact .inr ⟨o, completed_settle _ t o m'⟩

/-- A step of the walk stores below offset n − 1 (R80, R108). -/
theorem decStep_belowCapacity {d : DecRegs} (m : Memory) (hok : d.Ok t) {a : Nat} (ha : a < t.dst ∨ t.dst + (t.n - 1) ≤ a) :
    (decStep t d m).mem.read a = m.read a := by
  rcases decStep_mem m hok with hm | ⟨o, v, ho, hm⟩ <;> rw [hm]
  exact Memory.read_write_other _ _ (by omega)

theorem coreStep_decodeFirst (hi : i = .dec ∨ i = .decu) (hn : 1 ≤ t.n) (hd : t.n ≤ t.d + 1) :
    coreStep (s.start (encode i) t.operands) = .next ((s.start (encode i) t.operands).afterWalk t (decFirst t s.mem)) := by
  rw [coreStep_start]
  rcases hi with rfl | rfl
  · exact congrArg (fun e => State.raiseOr _ e _) (decError_eq_none hn hd)
  · exact congrArg (fun e => State.raiseOr _ e _) (decuError_eq_none hn)

theorem DecoderStage.step {v : State} (hi : i = .dec ∨ i = .decu) (hn : 1 ≤ t.n) (hd : t.n ≤ t.d + 1)
    (h : DecoderStage (s.start (encode i) t.operands) (t.inFlight i) t v) :
    ∃ u, coreStep v = .next u ∧ (DecoderStage (s.start (encode i) t.operands) (t.inFlight i) t u ∨ ∃ o, Completed u o) := by
  have hl : (t.inFlight i).latched.transfer = some t := t.operands_transfer
  cases h with
  | started =>
    exact ⟨_, coreStep_decodeFirst hi hn hd, DecoderStage.afterWalk s.mem .started (decFirst_ok s.mem hn) fun a _ => by
      rw [decFirst_mem]; rfl⟩
  | running m d hok hm =>
    exact ⟨_, coreStep_decoding hl m d, DecoderStage.afterWalk m (.decoding d) (decStep_ok m hok) fun a ha =>
      (decStep_belowCapacity m hok ha).trans (hm a ha)⟩

theorem Decodable.transferFault_eq_none (h : Decodable s t) (hi : i = .dec ∨ i = .decu) : transferFault i s t = none := by
  rcases hi with rfl | rfl
  · exact decFault_eq_none.2 h.admitted
  · exact decuFault_eq_none.2 ⟨h.admitted, h.room⟩

/-! ### The length of a payload -/

theorem length_payloadBefore_le (cs : List Chunk) : (payloadBefore cs).length ≤ (chunkBytes cs).length := by
  induction cs with
  | nil => exact Nat.le_refl 0
  | cons c cs ih =>
    have hsep := c.separator_length
    have hcons : payloadBefore (c :: cs) = c.data ++ c.separator ++ payloadBefore cs := rfl
    rw [hcons, chunkBytes_cons]
    simp only [List.length_append, List.length_cons]
    omega

/-- The last chunk has a marker and no separator, so a payload is shorter than its frame. -/
theorem length_payloadOf_lt {cs : List Chunk} (h : cs ≠ []) : (payloadOf cs).length < (chunkBytes cs).length := by
  obtain ⟨init, c, rfl⟩ := (List.eq_nil_or_concat' cs).resolve_left h
  have hinit := length_payloadBefore_le init
  rw [payloadOf_append_last, chunkBytes_append]
  simp only [chunkBytes_cons, chunkBytes_nil, List.length_append, List.length_cons, List.length_nil]
  omega

/-- A frame of chunks decodes to their payload (R107). -/
theorem Decodable.exec_chunks (h : Decodable s t) (hi : i = .dec ∨ i = .decu) {cs : List Chunk} (hne : cs ≠ [])
    (hcs : ∀ c ∈ cs, c.wf = true) (hf : sourceBytes s t = chunkBytes cs) :
    ∃ u, exec i s = .next u ∧ Completed u (.ok (payloadOf cs).length) ∧ destBytes u t (payloadOf cs).length = payloadOf cs := by
  obtain ⟨init, c, rfl⟩ := (List.eq_nil_or_concat' cs).resolve_left hne
  have hcore := decodeCore_good h.admitted.apart h.room init c hcs hf
  have hnext := ExecNext.decode i hi t s.fresh (Operands.readTransfer_of_some _ _ h.ready.transfer) h.admitted h.nonempty h.room _ _ hcore
  refine ⟨_, hnext.exec h.ready.idle, completed_settle _ t _ _, ?_⟩
  rw [destBytes_settle _ t _ rfl]
  exact Memory.readBytes_writeBytes _ _ _

/-- The chunk that is a marker 0x01 alone. -/
def Chunk.one : Chunk := { marker := 0x01#8, data := [] }

theorem chunkBytes_ones (n : Nat) : chunkBytes (List.replicate n Chunk.one) = List.replicate n 0x01#8 := by
  induction n with
  | zero => rfl
  | succ n ih => rw [List.replicate_succ, List.replicate_succ, chunkBytes_cons, ih]; rfl

/-- Each marker 0x01 but the last stands for a 0x00 (R99). -/
theorem payloadOf_ones (n : Nat) : payloadOf (List.replicate n Chunk.one) = List.replicate (n - 1) 0x00#8 := by
  cases n with
  | zero => rfl
  | succ n =>
    rw [List.replicate_succ', payloadOf_append_last, Nat.add_sub_cancel]
    induction n with
    | zero => rfl
    | succ n ih => rw [List.replicate_succ, List.replicate_succ, ← ih]; rfl

end

/-- Settles O25: a payload is shorter than its frame, a busy decoder is at one of its stages, and n markers 0x01 are n chunks. -/
theorem decodeStaysBelowTheCapacity : Obligations.DecodeStaysBelowTheCapacity := by
  refine ⟨fun i s u t r hi ht h hr => ?_, fun i s v t k hi h hv hb a ha => ?_, fun i s t hi h hf => ?_⟩
  · obtain ⟨cs, hne, -, hsrc, hdest⟩ := (exec_next h).payload_written hi ht hr
    have hlt := length_payloadOf_lt hne
    rw [hsrc, ← hdest, sourceBytes_length, destBytes, Memory.readBytes_length] at hlt
    omega
  · have hi : i = .dec ∨ i = .decu := by simpa using hi
    have htr : i.isTransform = true := by rcases hi with rfl | rfl <;> rfl
    rw [h.ready.issueThenSteps_eq htr (h.transferFault_eq_none hi)] at hv
    have hstage := coreSteps_busy (fun _ hs => DecoderStage.step hi h.nonempty h.room hs) .started hv hb
    exact hstage.outside ha
  · have hi : i = .dec ∨ i = .decu := by simpa using hi
    have hwf : ∀ c ∈ List.replicate t.n Chunk.one, c.wf = true := by
      intro c hc
      rw [List.eq_of_mem_replicate hc]
      rfl
    have hne : List.replicate t.n Chunk.one ≠ [] := by simpa [List.replicate_eq_nil_iff] using Nat.one_le_iff_ne_zero.1 h.nonempty
    have hx := h.exec_chunks hi hne hwf (hf.trans (chunkBytes_ones t.n).symm)
    rwa [payloadOf_ones, List.length_replicate] at hx

end Sys2Proof.Machine
end

section
/-! SUPPORT. The chunks of a frame (41_encoder.md R90): the frame of a payload is a sequence of chunks whose payload (42_decoder.md R107) it is, so
the decoder gives the payload back (R93). -/

namespace Sys2Proof.Machine

/-! ### Chunks -/

/-- The chunk that a marker closes behind the data `data` (R84 to R86). -/
def Chunk.closed (data : List Byte) : Chunk := { marker := BitVec.ofNat 8 (data.length + 1), data := data }

@[simp] theorem Chunk.closed_data (data : List Byte) : (Chunk.closed data).data = data := rfl

theorem Chunk.closed_marker {data : List Byte} (hl : data.length ≤ 254) : (Chunk.closed data).marker.toNat = data.length + 1 :=
  (BitVec.toNat_ofNat _ _).trans (Nat.mod_eq_of_lt (by omega))

/-- At most 254 data bytes leave the marker in 1..=255 (R90). -/
theorem Chunk.closed_wf {data : List Byte} (hl : data.length ≤ 254) (hz : ∀ b ∈ data, b ≠ 0x00#8) : (Chunk.closed data).wf = true := by
  have hm := Chunk.closed_marker hl
  refine (Chunk.wf_iff _).2 ⟨fun h0 => ?_, ?_, hz⟩
  · rw [h0] at hm
    cases hm
  · rw [hm, Nat.add_sub_cancel, Chunk.closed_data]

/-- A chunk that is not full stands for the 0x00 that closed it (R99). -/
theorem Chunk.closed_separator {data : List Byte} (hl : data.length ≤ 253) : (Chunk.closed data).separator = [0x00#8] := by
  have hm := Chunk.closed_marker (data := data) (by omega)
  refine if_neg fun hff => ?_
  have : data.length + 1 = 255 := hm.symm.trans (congrArg BitVec.toNat hff)
  omega

theorem Chunk.closed_full {data : List Byte} (hl : data.length = 254) : Chunk.closed data = { marker := 0xFF#8, data := data } := by
  rw [Chunk.closed, hl]

theorem payloadOf_cons {cs : List Chunk} (c : Chunk) (h : cs ≠ []) : payloadOf (c :: cs) = c.data ++ c.separator ++ payloadOf cs := by
  cases cs with
  | nil => exact absurd rfl h
  | cons d cs => rfl

/-- A full chunk has no separator, whether it is the last one or not. -/
theorem payloadOf_cons_full (data : List Byte) (cs : List Chunk) : payloadOf ({ marker := 0xFF#8, data := data } :: cs) = data ++ payloadOf cs := by
  cases cs with
  | nil => simp [payloadOf]
  | cons d cs => simp [payloadOf]

/-- Every data byte of a chunk is a payload byte (R90). -/
theorem mem_payloadOf {cs : List Chunk} {c : Chunk} {b : Byte} (hc : c ∈ cs) (hb : b ∈ c.data) : b ∈ payloadOf cs := by
  induction cs with
  | nil => cases hc
  | cons d cs ih =>
    rcases List.mem_cons.1 hc with rfl | hc
    · cases cs with
      | nil => exact hb
      | cons e cs => exact List.mem_append_left _ (List.mem_append_left _ hb)
    · rw [payloadOf_cons d (List.ne_nil_of_mem hc)]
      exact List.mem_append_right _ (ih hc)

/-- A sequence of chunks holds no 0x00: neither a marker nor a data byte is one (R90). -/
theorem zero_not_mem_chunkBytes {cs : List Chunk} (h : ∀ c ∈ cs, c.wf = true) : 0x00#8 ∉ chunkBytes cs := by
  intro hz
  obtain ⟨c, hc, hb⟩ := List.mem_flatMap.1 hz
  obtain ⟨hm, -, hd⟩ := (Chunk.wf_iff c).1 (h c hc)
  rcases List.mem_cons.1 hb with hb | hb
  · exact hm hb.symm
  · exact hd _ hb rfl

/-! ### The chunks of a frame -/

/-- The frame bytes `f` are the chunks `cs`, which stand for the payload `p` (R90, R107). -/
structure Chunked (f p : List Byte) (cs : List Chunk) : Prop where
  wf : ∀ c ∈ cs, c.wf = true
  bytes : chunkBytes cs = f
  payload : payloadOf cs = p

/-- Chunks that stand for at least one byte are at least one chunk. -/
theorem Chunked.ne_nil {f p : List Byte} {cs : List Chunk} (h : Chunked f p cs) (hp : p ≠ []) : cs ≠ [] := by
  rintro rfl
  exact hp h.payload.symm

section
variable {f p cur : List Byte} {cs : List Chunk} (h : Chunked f p cs) (hz : ∀ b ∈ cur, b ≠ 0x00#8)
include h hz

/-- A 0x00 closes the chunk `cur`, and more follows (R85). -/
theorem Chunked.zero (hl : cur.length ≤ 253) (hne : cs ≠ []) : Chunked (shortChunk cur ++ f) (cur ++ 0x00#8 :: p) (.closed cur :: cs) where
  wf := List.forall_mem_cons.2 ⟨Chunk.closed_wf (by omega) hz, h.wf⟩
  bytes := by rw [chunkBytes_cons, h.bytes]; rfl
  payload := by
    rw [payloadOf_cons _ hne, Chunk.closed_separator hl, h.payload, Chunk.closed_data, List.append_assoc]
    rfl

/-- The chunk `cur` is full and closed, whatever follows (R84). -/
theorem Chunked.full (hl : cur.length = 254) : Chunked (0xFF#8 :: cur ++ f) (cur ++ p) (.closed cur :: cs) where
  wf := List.forall_mem_cons.2 ⟨Chunk.closed_wf (by omega) hz, h.wf⟩
  bytes := by rw [chunkBytes_cons, h.bytes, Chunk.closed_full hl]; rfl
  payload := by rw [Chunk.closed_full hl, payloadOf_cons_full, h.payload]

end

/-- The frame bytes to come are chunks for the data of the open chunk and the payload bytes left; after a 0x00 there is at least one. -/
theorem streamed_chunked (cur : List Byte) (lastz : Bool) (q : List Byte) (hl : cur.length ≤ 253) (hz : ∀ b ∈ cur, b ≠ 0x00#8) :
    ∃ cs, Chunked (streamed cur lastz q) (cur ++ q) cs ∧ (lastz = true → cs ≠ []) := by
  induction q generalizing cur lastz with
  | nil =>
    rw [streamed_nil, closing, List.append_nil]
    split
    · have hwf := Chunk.closed_wf (by omega) hz
      exact ⟨[.closed cur], ⟨by simpa using hwf, by simp [Chunk.closed, shortChunk], rfl⟩, by simp⟩
    · rename_i hc
      obtain ⟨hcur, hlastz⟩ := not_or.1 hc
      exact ⟨[], ⟨by simp, rfl, (not_not.1 hcur).symm⟩, fun h => absurd h hlastz⟩
  | cons b q ih =>
    by_cases hb : b = 0x00#8
    · obtain ⟨cs, hcs, hne⟩ := ih [] true (by simp) (by simp)
      rw [hb, streamed_zero]
      exact ⟨_, hcs.zero hz hl (hne rfl), by simp⟩
    · have hz' : ∀ x ∈ cur ++ [b], x ≠ 0x00#8 := by
        intro x hx
        rcases List.mem_append.1 hx with hx | hx
        · exact hz x hx
        · rwa [List.mem_singleton.1 hx]
      rw [List.append_cons]
      by_cases hfull : cur.length = 253
      · obtain ⟨cs, hcs, -⟩ := ih [] false (by simp) (by simp)
        rw [streamed_full cur lastz q hb hfull]
        exact ⟨_, hcs.full hz' (by simp [hfull]), by simp⟩
      · obtain ⟨cs, hcs, -⟩ := ih (cur ++ [b]) false (by simp; omega) hz'
        rw [streamed_data cur lastz q hb hfull]
        exact ⟨cs, hcs, fun _ => hcs.ne_nil (by simp)⟩

/-- The frame of a payload is a non-empty sequence of chunks that stand for the payload (R90, R93). -/
theorem frameOf_chunked (p : List Byte) : ∃ cs, cs ≠ [] ∧ Chunked (frameOf p) p cs := by
  cases p with
  | nil => exact ⟨[.one], by simp, by simp [Chunk.one, Chunk.wf], rfl, rfl⟩
  | cons b p =>
    obtain ⟨cs, hcs, -⟩ := streamed_chunked [] false (b :: p) (by simp) (by simp)
    rw [streamed_eq_frameOf (by simp), List.nil_append] at hcs
    exact ⟨cs, hcs.ne_nil (by simp), hcs⟩

/-! ### The statements -/

/-- Settles O26: the frame written is chunks that stand for the payload, and the decoder answers what a sequence of chunks stands for. -/
theorem roundTrip : Obligations.RoundTrip := by
  intro i j s u s' t t' r hi hj ht h hr hdec hsrc
  obtain ⟨cs, hne, hcs⟩ := frameOf_chunked (sourceBytes s t)
  have hframe : sourceBytes s' t' = chunkBytes cs := by rw [hsrc, (exec_next h).frame_written hi ht hr, hcs.bytes]
  have hx := hdec.exec_chunks (by simpa using hj) hne hcs.wf hframe
  rwa [hcs.payload, sourceBytes_length] at hx

/-- Settles O13: the frame written is a non-empty sequence of chunks, and their data bytes are payload bytes. -/
theorem framesHoldNoSentinel : Obligations.FramesHoldNoSentinel := by
  intro i s u t r hi ht h hr
  obtain ⟨cs, hne, hcs⟩ := frameOf_chunked (sourceBytes s t)
  have hdest : chunkBytes cs = destBytes u t r := hcs.bytes.trans ((exec_next h).frame_written hi ht hr).symm
  refine ⟨?_, hdest ▸ zero_not_mem_chunkBytes hcs.wf, cs, hne, fun c hc => ⟨hcs.wf c hc, fun b hb => ?_⟩, hdest⟩
  · have hlt := length_payloadOf_lt hne
    rw [hdest, destBytes, Memory.readBytes_length] at hlt
    exact Nat.one_le_of_lt hlt
  · rw [← hcs.payload]
    exact mem_payloadOf hc hb

end Sys2Proof.Machine
end

section
/-! SUPPORT. ENC and ENCU as one transition (41_encoder.md R82, R91): they write the frame of the payload, and differ only where ENC finds the
destination too small. -/

namespace Sys2Proof.Machine

/-- A transfer that is encodable is encoded by either command, and the frame is written (R88, R89). -/
theorem Encodable.execNext {i : Instr} {s : State} {t : Transfer} (h : Encodable s t) (hi : i = .enc ∨ i = .encu) :
    ExecNext s i (s.settle t (.ok (encodeCore t s.mem).1) (encodeCore t s.mem).2) :=
  .encode i hi t s.fresh (Operands.readTransfer_of_some _ _ h.ready.transfer) h.admitted h.capacityFits h.room

/-- Settles O9: ENCODE_CORE answers the frame's length and writes the frame, which the capacity bounds. -/
theorem encodeWritesTheFrame : Obligations.EncodeWritesTheFrame := by
  intro i s t hi h
  have hcmd : i = .enc ∨ i = .encu := by simpa using hi
  have htr : i.isTransform = true := by rcases hcmd with rfl | rfl <;> rfl
  have hnext := h.execNext hcmd
  obtain ⟨hlen, -, -⟩ := encodeCore_spec s.mem h.room h.admitted.apart
  obtain ⟨t', hgives, hout⟩ := hnext.outsideKept htr
  cases hgives.eq h.ready.transfer
  refine ⟨_, hnext.exec h.ready.idle, hlen ▸ completed_settle s t _ _, hnext.frame_written hi h.ready.transfer ?_,
    (length_frameOf_le_capacity s t).trans h.room, hout, sameFrame_settle s t _ _⟩
  rw [State.settle_result, hlen]
  rfl

/-- Where an encode command is past its checks, the other one does the same: ENCU always is, ENC when it completes with OK (R82). -/
theorem ExecNext.encode_other {i j : Instr} {s u : State} (h : ExecNext s i u) (hi : i = .encu ∨ i = .enc ∧ u.core.status.code = some 0x00#8)
    (hj : j = .enc ∨ j = .encu) : ExecNext s j u := by
  cases h with
  | encode i hi t f ht ha hw hd => exact .encode j hj t f ht ha hw hd
  | encSmall t f ht ha hw hd => simp [OpOutcome.code] at hi
  | enccap n f hn hw => simp at hi
  | deccap n f hn => simp at hi
  | decEmpty i hdec t f ht ha hn => rcases hdec with rfl | rfl <;> simp at hi
  | decSmall t f ht ha hn hd => simp at hi
  | decode i hdec t f ht ha hn hd o m he => rcases hdec with rfl | rfl <;> simp at hi

/-- Settles O12: past their checks the two commands complete with the same core procedure. -/
theorem uncheckedEncodeIsTheCheckedOne : Obligations.UncheckedEncodeIsTheCheckedOne :=
  ⟨fun _ _ h => ((exec_next h).encode_other (.inl rfl) (.inl rfl)).exec (exec_idle h),
    fun _ _ h hk => ((exec_next h).encode_other (.inr ⟨rfl, hk⟩) (.inr rfl)).exec (exec_idle h)⟩

end Sys2Proof.Machine
end

section
/-! SUPPORT. The core steps of an encoder in flight (41_encoder.md R84 to R86), and how many core steps each command takes (R87; 42_decoder.md R101;
70_reset_and_hazards.md R144). -/

namespace Sys2Proof.Machine

/-! ### One core step of the encoder -/

section
variable {s : State} {fl : InFlight} {t : Transfer} {e : EncRegs} (hop : s.core.op = some fl) (hw : fl.work = .encoding e)
  (hl : fl.latched.transfer = some t)
include hop hw hl

/-- With payload bytes left, a core step takes one (R83, R87). -/
theorem coreStep_of_encoding_byte (hi : e.i < t.n) :
    coreStep s = .next (s.working (encByteStep t e s.mem).2 fl (.encoding (encByteStep t e s.mem).1)) := by
  have hstep := coreStep_encByte (s := s) hl (m := s.mem) hi
  rwa [← hw, State.working_self hop] at hstep

/-- With none left, a core step finalizes (R83, R86). -/
theorem coreStep_of_encoding_end (hi : t.n ≤ e.i) :
    coreStep s = .next (s.settle t (.ok (encFinalize t e s.mem).1) (encFinalize t e s.mem).2) := by
  have hstep := coreStep_encFinalize (s := s) hl (m := s.mem) hi
  rwa [← hw, State.working_self hop] at hstep

theorem State.Inv.encoding_ok (hs : s.Inv) : e.Ok t := by
  obtain ⟨-, -, hok⟩ := hs.encodes_next hop (Operands.readTransfer_of_some _ _ hl) hw
  exact hok

end

/-- The last marker is written for a chunk with data and after a 0x00 (R86). -/
theorem encFinalize_marker {t : Transfer} {e : EncRegs} (m : Memory) (h : 1 < e.l ∨ e.lastz = true) :
    encFinalize t e m = (e.c, t.dstWrite m e.m (BitVec.ofNat 8 e.l)) := if_pos h

/-- An empty slot behind a full chunk is given back (R86). -/
theorem encFinalize_retract {t : Transfer} {e : EncRegs} (m : Memory) (hl : e.l = 1) (hz : e.lastz = false) :
    encFinalize t e m = (e.c - 1, m) := if_neg (by simp [hl, hz])

/-- Settles O10: the three cases of one payload byte, in a state where E_L is in 1..=254. -/
theorem encoderSteps : Obligations.EncoderSteps := by
  intro s fl t e b hop hw hl hi hb
  have hstep := coreStep_of_encoding_byte hop hw hl hi
  have hsrc : t.srcRead s.mem e.i = b := hb
  refine ⟨fun hne => ?_, fun hz => ?_, fun hs => ?_⟩
  · rw [hstep]
    have hne : t.srcRead s.mem e.i ≠ 0x00#8 := hsrc ▸ hne
    split
    · rw [encByteStep_full hne (by omega), hsrc]
      rfl
    · rw [encByteStep_data hne (by omega), hsrc]
      rfl
  · rw [hstep, encByteStep_zero (hsrc.trans hz)]
    rfl
  · have hok := hs.encoding_ok hop hw hl
    exact ⟨hok.lenLow, hok.lenHigh⟩

/-- Settles O11: the two ways finalization goes; the completion keeps what stands below RESULT. -/
theorem encoderFinalizes : Obligations.EncoderFinalizes := by
  intro s fl t e _ hop hw hl hi
  refine ⟨_, coreStep_of_encoding_end hop hw hl hi.ge, sameFrame_settle s t _ _, fun h => ?_, fun h1 hz => ?_⟩
  · rw [encFinalize_marker s.mem h]
    exact ⟨completed_settle s t _ _, fun k hk => read_settle_result s t e.c _ (by omega)⟩
  · rw [encFinalize_retract s.mem h1 hz]
    exact ⟨completed_settle s t _ _, fun k hk => read_settle_result s t (e.c - 1) _ (by omega)⟩

/-! ### How many core steps -/

/-- `k` core steps are the atomic transition where they come to each completion of the command: a fault is one of the CMD write (R125). -/
theorem issueThenSteps_eq_exec {i : Instr} {s : State} {k : Nat}
    (h : ∀ u, s.core.status.busy = false → ExecNext s i u → issueThenSteps i k s = .next u) : issueThenSteps i k s = exec i s := by
  rcases issue_and_exec i s with ⟨-, u, -, hu⟩ | ⟨f, hf, hx⟩
  · rw [hu]
    exact h u (exec_idle hu) (exec_next hu)
  · rw [issueThenSteps, hf, hx]

/-- A sizing command is done after its first core step (R144). -/
theorem issueThenSteps_sizing {i : Instr} (hi : i ∈ [Instr.enccap, .deccap]) (s : State) : issueThenSteps i 1 s = exec i s := by
  refine issueThenSteps_eq_exec fun u hb h => ?_
  cases h with
  | enccap n f hn hw =>
    rw [issueThenSteps_of hb (.sizing .enccap (decodeCmd_encode _) rfl n f hn (capacityFault_eq_none.2 hw))]
    exact coreSteps_one (coreStep_start _)
  | deccap n f hn =>
    rw [issueThenSteps_of hb (.sizing .deccap (decodeCmd_encode _) rfl n f hn rfl)]
    exact coreSteps_one (coreStep_start _)
  | encSmall t f ht ha hw hd => simp at hi
  | encode i henc t f ht ha hw hd => rcases henc with rfl | rfl <;> simp at hi
  | decEmpty i hdec t f ht ha hn => rcases hdec with rfl | rfl <;> simp at hi
  | decSmall t f ht ha hn hd => simp at hi
  | decode i hdec t f ht ha hn hd o m he => rcases hdec with rfl | rfl <;> simp at hi

/-- An illegal word is done after its first core step (R66). -/
theorem coreSteps_illegal {c : Byte} {s v : State} (hc : decodeCmd c = none) (h : issueCmd c s = .next v) : coreSteps 1 v = execIllegal s := by
  obtain ⟨hb, hn⟩ := issueCmd_next h
  rw [execIllegal, whenIdle_of_idle _ hb]
  cases hn with
  | illegal _ =>
    apply coreSteps_one
    simp only [coreStep, State.start_core, CodecCore.start_op, hc]
    rfl
  | sizing i hi _ n f hn hv => cases hc.symm.trans hi
  | transform i hi _ t f ht hv => cases hc.symm.trans hi

section
variable {i : Instr} {s : State} {t : Transfer}

theorem Encodable.issueThenSteps_eq (h : Encodable s t) (hi : i = .enc ∨ i = .encu) (k : Nat) :
    issueThenSteps i k s = coreSteps k (s.start (encode i) t.operands) :=
  h.ready.issueThenSteps_eq (by rcases hi with rfl | rfl <;> rfl) (h.transferFault_eq_none hi) k

/-- The empty payload takes the init step alone (R87). -/
theorem Encodable.steps_empty (h : Encodable s t) (hi : i = .enc ∨ i = .encu) (hn : t.n = 0) : issueThenSteps i 1 s = exec i s := by
  rw [(h.execNext hi).exec h.ready.idle, h.issueThenSteps_eq hi, coreSteps_one (coreStep_encodeFirst hi h.room), encodeFirst_eq rfl, if_pos hn,
    encEmpty_eq_encodeCore hn, State.settle_start]
  rfl

/-- After the init step the encoder stands at its first payload byte (R83). -/
theorem Encodable.coreStep_init (h : Encodable s t) (hi : i = .enc ∨ i = .encu) (hn : 1 ≤ t.n) :
    coreStep (s.start (encode i) t.operands) = .next ((s.start (encode i) t.operands).working s.mem (t.inFlight i) (.encoding encInit)) := by
  rw [coreStep_encodeFirst hi h.room, encodeFirst_eq (fl := t.inFlight i) rfl, if_neg (by omega)]
  rfl

/-- A payload that is not empty takes the init step, a step for each byte and the finalization (R87). -/
theorem Encodable.steps (h : Encodable s t) (hi : i = .enc ∨ i = .encu) (hn : 1 ≤ t.n) : issueThenSteps i (t.n + 2) s = exec i s := by
  have hrest := coreSteps_encInit (s := s.start (encode i) t.operands) (fl := t.inFlight i) t.operands_transfer hn s.mem
  rw [State.settle_start] at hrest
  rw [(h.execNext hi).exec h.ready.idle, h.issueThenSteps_eq hi]
  exact coreSteps_cons (h.coreStep_init hi hn) hrest

/-- Before the finalization the core is busy. -/
theorem Encodable.busy_before (h : Encodable s t) (hi : i = .enc ∨ i = .encu) (hn : 1 ≤ t.n) :
    ∃ v, issueThenSteps i (t.n + 1) s = .next v ∧ v.core.status.busy = true := by
  have hloop := coreSteps_encLoop (s := s.start (encode i) t.operands) (fl := t.inFlight i) t.operands_transfer t.n encInit s.mem
    (Nat.zero_add t.n).le
  rw [h.issueThenSteps_eq hi]
  exact ⟨_, coreSteps_cons (h.coreStep_init hi hn) hloop, rfl⟩

/-- The walk ends one step before its bound of 3n: the first step is one of the 3n (R101). -/
theorem decLoop_of_decodeCore (hn : 1 ≤ t.n) {m m' : Memory} {o : OpOutcome} (h : decodeCore t m = some (o, m')) :
    decLoop t (3 * t.n - 1) (decFirst t m) = some (o, m') := by
  have hleft := decFirst_left m hn
  obtain ⟨o₂, m₂, h₂, -⟩ := decLoop_ends (3 * t.n - 1) (decFirst t m) (decFirst_ok m hn) (by omega)
  have hlater := decLoop_mono h₂ 1
  rw [Nat.sub_add_cancel (by omega)] at hlater
  rw [h₂, ← hlater]
  exact h

/-- A decoder past its checks completes within 3n core steps, its first READ_MARKER_STEP among them (R101). -/
theorem coreSteps_decode_bound (hi : i = .dec ∨ i = .decu) (hn : 1 ≤ t.n) (hd : t.n ≤ t.d + 1) {o : OpOutcome} {m : Memory}
    (he : decodeCore t s.mem = some (o, m)) : coreSteps (3 * t.n) (s.start (encode i) t.operands) = .next (s.settle t o m) := by
  have hwalk := coreSteps_walk (s := s.start (encode i) t.operands) t.operands_transfer rfl _ _ (decLoop_of_decodeCore hn he)
  rw [State.settle_start] at hwalk
  have hrun := coreSteps_cons (coreStep_decodeFirst hi hn hd) hwalk
  rwa [Nat.sub_add_cancel (by omega)] at hrun

end

/-- Core steps after the completion change nothing. -/
theorem coreSteps_past_end {s u : State} {k j : Nat} (h : coreSteps k s = .next u) (hop : u.core.op = none) (hk : k ≤ j) :
    coreSteps j s = .next u := by
  rw [← Nat.add_sub_cancel' hk, coreSteps_add _ h, coreSteps_idle hop]

/-- DEC's BUFFER_TOO_SMALL is found in the first core step (R125 step 3; log entry 11). -/
theorem coreStep_decSmall {s : State} {t : Transfer} (hn : 1 < t.n) (hd : t.d < t.n - 1) :
    coreStep (s.start (encode .dec) t.operands) = .next (s.complete (.bufferTooSmall t.d (t.n - 1))) := by
  have he : decError t = some (.bufferTooSmall t.d (t.n - 1)) := by rw [decError_eq, if_neg (by omega), if_pos ⟨hn, hd⟩]
  exact (coreStep_start _).trans (congrArg (fun e => State.raiseOr _ e _) he)

/-- DEC and DECU complete within 3n core steps (R101). -/
theorem issueThenSteps_decode {i : Instr} {s : State} {t : Transfer} (hi : i ∈ [Instr.dec, .decu])
    (ht : s.core.operands.transfer = some t) (hn : 1 ≤ t.n) : issueThenSteps i (3 * t.n) s = exec i s := by
  have hread := Operands.readTransfer_of_some s.plat.width s.fresh ht
  refine issueThenSteps_eq_exec fun u hb h => ?_
  cases h with
  | decSmall t' f ht' ha hn' hd =>
    cases hread.symm.trans ht'
    rw [issueThenSteps_of hb (.transform .dec (decodeCmd_encode _) rfl t s.fresh ht' (decFault_eq_none.2 ha))]
    exact coreSteps_past_end (coreSteps_one (coreStep_decSmall hn' hd)) rfl (by omega)
  | decode i hi t' f ht' ha hn' hd o m he =>
    cases hread.symm.trans ht'
    have hissue : IssueNext s (encode i) (s.start (encode i) t.operands) := by
      rcases hi with rfl | rfl
      · exact .transform _ (decodeCmd_encode _) rfl t s.fresh ht' (decFault_eq_none.2 ha)
      · exact .transform _ (decodeCmd_encode _) rfl t s.fresh ht' (decuFault_eq_none.2 ⟨ha, hd⟩)
    rw [issueThenSteps_of hb hissue]
    exact coreSteps_decode_bound hi hn hd he
  | decEmpty i hi t' f ht' ha hn' =>
    cases hread.symm.trans ht'
    omega
  | enccap n f hn' hw => simp at hi
  | deccap n f hn' => simp at hi
  | encSmall t' f ht' ha hw hd => simp at hi
  | encode i henc t' f ht' ha hw hd => rcases henc with rfl | rfl <;> simp at hi

/-- Settles O42: a step for each part of the command, the walk being bounded. -/
theorem coreStepCounts : Obligations.CoreStepCounts := by
  refine ⟨fun i s hi => issueThenSteps_sizing hi s, fun c s v hc h => coreSteps_illegal hc h, fun i s t hi h => ?_,
    fun i s t hi ht hn => issueThenSteps_decode hi ht hn⟩
  have hi : i = .enc ∨ i = .encu := by simpa using hi
  exact ⟨h.steps_empty hi, fun hn => ⟨h.steps hi hn, h.busy_before hi hn⟩⟩

end Sys2Proof.Machine
end

section
/-! SUPPORT. DEC and DECU as one transition (42_decoder.md R95, R102 to R107, R110): they answer the outcome of DECODE_CORE, and differ only where DEC
finds the destination too small. -/

namespace Sys2Proof.Machine

section
variable {i : Instr} {s : State} {t : Transfer}

/-- A decode leaves memory outside the destination region and all but the addressed core's outcome alone (R42, R53). -/
theorem Decodable.keeps (h : Decodable s t) (hi : i = .dec ∨ i = .decu) {u : State} (hx : exec i s = .next u) :
    OutsideKept s u t ∧ SameFrame s u := by
  have htr : i.isTransform = true := by rcases hi with rfl | rfl <;> rfl
  obtain ⟨t', hgives, hout⟩ := (exec_next hx).outsideKept htr
  cases hgives.eq h.ready.transfer
  obtain ⟨o, -, hframe⟩ := (exec_next hx).completed
  exact ⟨hout, hframe⟩

/-- A decode completes with the outcome of DECODE_CORE (R105, R106). -/
theorem Decodable.exec_decodeCore (h : Decodable s t) (hi : i = .dec ∨ i = .decu) {o : OpOutcome} (he : ∃ m, decodeCore t s.mem = some (o, m)) :
    ∃ u, exec i s = .next u ∧ Completed u o ∧ OutsideKept s u t ∧ SameFrame s u := by
  obtain ⟨m, he⟩ := he
  have hnext := ExecNext.decode i hi t s.fresh (Operands.readTransfer_of_some _ _ h.ready.transfer) h.admitted h.nonempty h.room o m he
  have hx := hnext.exec h.ready.idle
  exact ⟨_, hx, completed_settle _ t o m, h.keeps hi hx⟩

end

/-- A decode command that completes with RESULT was past its checks (R105, R106). -/
theorem ExecNext.decodable {s u : State} {i : Instr} {t : Transfer} {r : Nat} (h : ExecNext s i u) (hb : s.core.status.busy = false)
    (hi : i = .dec ∨ i = .decu) (ht : s.core.operands.transfer = some t) (hr : u.core.result = some r) : Decodable s t := by
  have hread := Operands.readTransfer_of_some s.plat.width s.fresh ht
  cases h with
  | enccap n f hn hw => simp at hi
  | deccap n f hn => simp at hi
  | encSmall t' f ht' ha hw hd => cases hr
  | encode i henc t' f ht' ha hw hd => rcases henc with rfl | rfl <;> simp at hi
  | decEmpty i hi t' f ht' ha hn => cases hr
  | decSmall t' f ht' ha hn hd => cases hr
  | decode i hi t' f ht' ha hn hd o m he =>
    cases hread.symm.trans ht'
    exact ⟨⟨hb, Operands.transfer_eq_some.1 ht⟩, ha, hn, hd⟩

/-- A decode command that completes with OK has walked a sequence of chunks (R107). -/
theorem exec_chunks_of_ok {i : Instr} {s u : State} {t : Transfer} (hi : i ∈ [Instr.dec, .decu]) (ht : s.core.operands.transfer = some t)
    (h : exec i s = .next u) (hk : u.core.status.code = some 0x00#8) :
    ∃ cs : List Chunk, cs ≠ [] ∧ (∀ c ∈ cs, c.wf = true) ∧ chunkBytes cs = sourceBytes s t := by
  obtain ⟨o, hc, -⟩ := (exec_next h).completed
  rw [hc.status] at hk
  obtain ⟨r, hr⟩ := Option.isSome_iff_exists.1 (o.result_isSome.2 (Option.some.inj hk))
  obtain ⟨cs, hne, hwf, hbytes, -⟩ := (exec_next h).payload_written hi ht (hc.result.trans hr)
  exact ⟨cs, hne, hwf, hbytes⟩

/-! ### The length of a payload (R107) -/

theorem length_payloadBefore {cs : List Chunk} (hwf : ∀ c ∈ cs, c.wf = true) :
    (payloadBefore cs).length = (cs.map fun c => c.marker.toNat - 1).sum + (cs.filter fun c => decide (c.marker ≠ 0xFF#8)).length := by
  induction cs with
  | nil => rfl
  | cons c cs ih =>
    obtain ⟨-, hlen, -⟩ := (Chunk.wf_iff c).1 (hwf c (by simp))
    have hrest := ih fun d hd => hwf d (by simp [hd])
    have hcons : payloadBefore (c :: cs) = c.data ++ c.separator ++ payloadBefore cs := rfl
    rw [hcons, List.length_append, List.length_append, hrest, hlen, List.map_cons, List.sum_cons]
    by_cases hf : c.marker = 0xFF#8
    · have hsep : c.separator = [] := if_pos hf
      rw [hsep, List.filter_cons_of_neg (by simpa using hf), List.length_nil]
      omega
    · have hsep : c.separator = [0x00#8] := if_neg hf
      rw [hsep, List.filter_cons_of_pos (by simpa using hf), List.length_singleton, List.length_cons]
      omega

theorem length_payloadOf {cs : List Chunk} (hne : cs ≠ []) (hwf : ∀ c ∈ cs, c.wf = true) :
    (payloadOf cs).length =
      (cs.map fun c => c.marker.toNat - 1).sum + (cs.dropLast.filter fun c => decide (c.marker ≠ 0xFF#8)).length := by
  obtain ⟨init, c, rfl⟩ := (List.eq_nil_or_concat' cs).resolve_left hne
  obtain ⟨-, hlen, -⟩ := (Chunk.wf_iff c).1 (hwf c (by simp))
  rw [payloadOf_append_last, List.length_append, length_payloadBefore fun d hd => hwf d (by simp [hd]), hlen, List.dropLast_concat, List.map_append,
    List.sum_append, List.map_singleton, List.sum_singleton]
  omega

/-! ### The statements -/

/-- Settles O18: a frame of chunks decodes to their payload, and OK comes from a frame of chunks only. -/
theorem decodeAcceptsExactlyTheWellFormed : Obligations.DecodeAcceptsExactlyTheWellFormed := by
  intro i s t hi h
  have hcmd : i = .dec ∨ i = .decu := by simpa using hi
  refine ⟨fun cs hne hwf hbytes => ⟨length_payloadOf hne hwf, ?_⟩, fun u hx hk => exec_chunks_of_ok hi h.ready.transfer hx hk⟩
  obtain ⟨u, hx, hc, hdest⟩ := h.exec_chunks hcmd hne hwf hbytes.symm
  exact ⟨u, hx, hc, hdest, h.keeps hcmd hx⟩

/-- Settles O19: the walk over the chunks comes to the 0x00 (R97). -/
theorem zeroMarkerIsReported : Obligations.ZeroMarkerIsReported := by
  intro i s t cs rest hi h hwf hf
  exact h.exec_decodeCore (by simpa using hi) (decodeCore_zeroMarker h.admitted.apart h.room cs rest hwf hf)

/-- Settles O20: the walk over the chunks comes to a marker that declares more than remains (R97). -/
theorem chunkOverflowIsReported : Obligations.ChunkOverflowIsReported := by
  intro i s t cs mk rest hi h hwf hm hr hf
  exact ⟨by omega, h.exec_decodeCore (by simpa using hi) (decodeCore_overflow h.admitted.apart h.room cs mk rest hwf hm hr hf)⟩

/-- Settles O21: the chunk fits the frame, so its data are copied up to the 0x00 (R98). -/
theorem zeroBinaryIsReported : Obligations.ZeroBinaryIsReported := by
  intro i s t cs mk data rest hi h hwf hz hl hr hf
  have hm : mk ≠ 0x00#8 := by
    rintro rfl
    simp at hl
  have hz : ∀ b ∈ data, b ≠ 0x00#8 := fun b hb h0 => hz (h0 ▸ hb)
  exact h.exec_decodeCore (by simpa using hi) (decodeCore_zeroBinary h.admitted.apart h.room cs mk data rest hwf hm hz hl hr hf)

/-- Settles O28: the frame that decodes is chunks, so its delimiter stands where a marker is expected. -/
theorem delimiterIsAZeroMarker : Obligations.DelimiterIsAZeroMarker := by
  intro i j s u s' t t' hi hj ht h hk hdec hsrc
  obtain ⟨cs, -, hwf, hbytes⟩ := exec_chunks_of_ok hi ht h hk
  rw [← hbytes] at hsrc
  obtain ⟨v, hv, hc, -⟩ := zeroMarkerIsReported j s' t' cs [] hj hdec hwf hsrc
  rw [hbytes, sourceBytes_length] at hc
  exact ⟨v, hv, hc⟩

/-- Where a decode command is past its checks, the other one does the same: DECU always is, DEC unless it completes with BUFFER_TOO_SMALL (R95). -/
theorem ExecNext.decode_other {i j : Instr} {s u : State} (h : ExecNext s i u) (hi : i = .decu ∨ i = .dec ∧ u.core.status.code ≠ some 0x02#8)
    (hj : j = .dec ∨ j = .decu) : ExecNext s j u := by
  cases h with
  | decEmpty i hdec t f ht ha hn => exact .decEmpty j hj t f ht ha hn
  | decode i hdec t f ht ha hn hd o m he => exact .decode j hj t f ht ha hn hd o m he
  | decSmall t f ht ha hn hd => simp [OpOutcome.code] at hi
  | enccap n f hn hw => simp at hi
  | deccap n f hn => simp at hi
  | encSmall t f ht ha hw hd => simp at hi
  | encode i henc t f ht ha hw hd => rcases henc with rfl | rfl <;> simp at hi

/-- Settles O24: past their checks the two commands complete with the same core procedure. -/
theorem uncheckedDecodeIsTheCheckedOne : Obligations.UncheckedDecodeIsTheCheckedOne :=
  ⟨fun _ _ h => ((exec_next h).decode_other (.inl rfl) (.inl rfl)).exec (exec_idle h),
    fun _ _ h hk => ((exec_next h).decode_other (.inr ⟨rfl, hk⟩) (.inr rfl)).exec (exec_idle h)⟩

end Sys2Proof.Machine
end

section
/-! SUPPORT. One core step of a decoder in flight (42_decoder.md R97 to R99). -/

namespace Sys2Proof.Machine

/-! ### The steps of the walk, one case at a time -/

section
variable {t : Transfer} {d : DecRegs} (m : Memory)

theorem decStep_readMarker (hs : d.state = .readMarker) : decStep t d m = readMarkerStep t d.i d.o m := by
  simp only [decStep, hs]

theorem decStep_copyChunk (hs : d.state = .copyChunk) : decStep t d m = copyStep t d m := by
  simp only [decStep, hs]

theorem decStep_maybeInsert (hs : d.state = .maybeInsertSentinel) : decStep t d m = maybeInsertStep t d m := by
  simp only [decStep, hs]

theorem copyStep_exhausted (hk : d.k = 0) : copyStep t d m = .running { d with state := .maybeInsertSentinel } m := if_pos hk

theorem copyStep_zero (hk : d.k ≠ 0) (hb : t.srcRead m d.i = 0x00#8) : copyStep t d m = .ended (.zeroBinary d.i) m :=
  (if_neg hk).trans (if_pos hb)

theorem copyStep_data (hk : d.k ≠ 0) (hb : t.srcRead m d.i ≠ 0x00#8) :
    copyStep t d m = .running { d with i := d.i + 1, o := d.o + 1, k := d.k - 1 } (t.dstWrite m d.o (t.srcRead m d.i)) :=
  (if_neg hk).trans (if_neg hb)

theorem maybeInsertStep_end (hi : d.i = t.n) : maybeInsertStep t d m = .ended (.ok d.o) m := if_pos hi

theorem maybeInsertStep_separator (hi : d.i ≠ t.n) (hm : d.marker ≠ 0xFF#8) :
    maybeInsertStep t d m = .running { d with state := .readMarker, o := d.o + 1 } (t.dstWrite m d.o 0x00#8) :=
  (if_neg hi).trans (if_pos fun h => hm (BitVec.eq_of_toNat_eq h))

theorem maybeInsertStep_full (hi : d.i ≠ t.n) (hm : d.marker = 0xFF#8) :
    maybeInsertStep t d m = .running { d with state := .readMarker } m :=
  (if_neg hi).trans (if_neg (not_not.2 (congrArg BitVec.toNat hm)))

end

/-! ### One core step -/

section
variable {s : State} {fl : InFlight} {t : Transfer} {d : DecRegs} (hop : s.core.op = some fl) (hw : fl.work = .decoding d)
  (hl : fl.latched.transfer = some t)
include hop hw hl

/-- A core step of a decode is a step of its walk (R96). -/
theorem coreStep_of_decoding : coreStep s = .next (s.afterWalk t (decStep t d s.mem)) := by
  have hstep := coreStep_decoding (s := s) hl s.mem d
  rwa [← hw, State.working_self hop] at hstep

theorem coreStep_of_decoding_running {d' : DecRegs} {m : Memory} (h : decStep t d s.mem = .running d' m) :
    coreStep s = .next (s.working m fl (.decoding d')) := by
  rw [coreStep_of_decoding hop hw hl, h, State.afterWalk_eq hop]

theorem coreStep_of_decoding_ended {o : OpOutcome} {m : Memory} (h : decStep t d s.mem = .ended o m) :
    ∃ u, coreStep s = .next u ∧ Completed u o := by
  rw [coreStep_of_decoding hop hw hl, h]
  exact ⟨_, rfl, completed_settle s t o m⟩

end

/-- Settles O23: a core step of a decode does what its walk's step does in each case. -/
theorem decoderSteps : Obligations.DecoderSteps := by
  intro s fl t d b hop hw hl hb
  have running {d' : DecRegs} {m : Memory} := coreStep_of_decoding_running (d' := d') (m := m) hop hw hl
  have ended {o : OpOutcome} {m : Memory} := coreStep_of_decoding_ended (o := o) (m := m) hop hw hl
  have hsrc : t.srcRead s.mem d.i = b := hb
  subst hsrc
  refine ⟨fun hs => ?_, fun hs => ?_, fun hs => ?_⟩
  · have hstep := decStep_readMarker (t := t) s.mem hs
    refine ⟨fun h0 => ended (hstep.trans (readMarkerStep_zero d.o h0)), fun h0 hlen => ?_, fun h0 hlen => ?_⟩
    · have hpos := byte_pos h0
      exact ended (hstep.trans (readMarkerStep_overflow d.o h0 (by omega)))
    · have hpos := byte_pos h0
      exact running (hstep.trans (readMarkerStep_chunk d.o h0 (by omega)))
  · have hstep := decStep_copyChunk (t := t) s.mem hs
    exact ⟨fun hk => running (hstep.trans (copyStep_exhausted s.mem hk)), fun hk h0 => ended (hstep.trans (copyStep_zero s.mem hk h0)),
      fun hk h0 => running (hstep.trans (copyStep_data s.mem hk h0))⟩
  · have hstep := decStep_maybeInsert (t := t) s.mem hs
    exact ⟨fun hi => ended (hstep.trans (maybeInsertStep_end s.mem hi)),
      fun hi hm => running (hstep.trans (maybeInsertStep_separator s.mem hi hm)),
      fun hi hm => running (hstep.trans (maybeInsertStep_full s.mem hi hm))⟩

end Sys2Proof.Machine
end

section
/-! SUPPORT. Encoding what a frame of chunks decodes to (42_decoder.md R109): the encoder's chunks are those of the frame, but for a last chunk 0x01
behind a full one, which stands for nothing. -/

namespace Sys2Proof.Machine

/-! ### Well-formed chunks -/

/-- A well-formed chunk is the one that closes its data (R84 to R86, R107). -/
theorem Chunk.closed_of_wf {c : Chunk} (hc : c.wf = true) : Chunk.closed c.data = c := by
  obtain ⟨hm, hlen, -⟩ := (Chunk.wf_iff c).1 hc
  have hpos := byte_pos hm
  have hle := byte_le c.marker
  have hmark : (Chunk.closed c.data).marker = c.marker :=
    BitVec.eq_of_toNat_eq ((Chunk.closed_marker (by omega)).trans (by omega))
  exact congrArg (Chunk.mk · c.data) hmark

theorem Chunk.length_data_full {c : Chunk} (hc : c.wf = true) (hf : c.marker = 0xFF#8) : c.data.length = 254 := by
  obtain ⟨-, hlen, -⟩ := (Chunk.wf_iff c).1 hc
  rw [hlen, hf]
  rfl

theorem Chunk.length_data_short {c : Chunk} (hc : c.wf = true) (hf : c.marker ≠ 0xFF#8) : c.data.length ≤ 253 := by
  obtain ⟨-, hlen, -⟩ := (Chunk.wf_iff c).1 hc
  have hle := byte_le c.marker
  have hne : c.marker.toNat ≠ 255 := fun h => hf (BitVec.eq_of_toNat_eq h)
  omega

theorem Chunk.length_data_le {c : Chunk} (hc : c.wf = true) : c.data.length ≤ 254 := by
  by_cases hf : c.marker = 0xFF#8
  · exact (Chunk.length_data_full hc hf).le
  · exact (Chunk.length_data_short hc hf).trans (by decide)

theorem Chunk.eq_one {c : Chunk} (hc : c.wf = true) (hd : c.data = []) : c = .one := by
  rw [← Chunk.closed_of_wf hc, hd]
  rfl

theorem shortChunk_data {c : Chunk} (hc : c.wf = true) : shortChunk c.data = c.marker :: c.data :=
  congrArg (fun d : Chunk => d.marker :: d.data) (Chunk.closed_of_wf hc)

/-- Only the chunk 0x01 alone stands for nothing. -/
theorem eq_one_of_payloadOf_eq_nil {cs : List Chunk} (hne : cs ≠ []) (hwf : ∀ c ∈ cs, c.wf = true) (hp : payloadOf cs = []) : cs = [.one] := by
  cases cs with
  | nil => exact absurd rfl hne
  | cons c cs =>
    have hc : c.wf = true := hwf c (by simp)
    by_cases hcs : cs = []
    · rw [hcs] at hp ⊢
      rw [Chunk.eq_one hc hp]
    · rw [payloadOf_cons c hcs, List.append_eq_nil_iff, List.append_eq_nil_iff] at hp
      obtain ⟨⟨hdata, hsep⟩, -⟩ := hp
      rw [Chunk.eq_one hc hdata] at hsep
      cases hsep

/-! ### The frame bytes of a chunk's data -/

/-- Data that fill the open chunk close it with the marker 0xFF (R84). -/
theorem streamed_fill (data : List Byte) (hz : ∀ b ∈ data, b ≠ 0x00#8) (cur : List Byte) (lastz : Bool) (q : List Byte)
    (hc : cur.length ≤ 253) (hl : cur.length + data.length = 254) :
    streamed cur lastz (data ++ q) = 0xFF#8 :: (cur ++ data) ++ streamed [] false q := by
  induction data generalizing cur lastz with
  | nil => simp at hl; omega
  | cons b data ih =>
    have hb : b ≠ 0x00#8 := hz b (by simp)
    rw [List.length_cons] at hl
    by_cases hfull : cur.length = 253
    · have hnil : data = [] := List.length_eq_zero_iff.1 (by omega)
      rw [hnil, List.singleton_append, streamed_full cur lastz q hb hfull]
    · have hrest := ih (fun x hx => hz x (by simp [hx])) (cur ++ [b]) false (by simp; omega) (by simp; omega)
      rw [List.cons_append, streamed_data cur lastz _ hb hfull, hrest, List.append_assoc, List.singleton_append]

/-- The last chunk's data give the chunk (R86), unless there are none and no 0x00 came before. -/
theorem streamed_lastChunk {c : Chunk} (hc : c.wf = true) {lastz : Bool} (ho : lastz = true ∨ c ≠ .one) :
    streamed [] lastz c.data = c.marker :: c.data := by
  obtain ⟨-, -, hz⟩ := (Chunk.wf_iff c).1 hc
  have hopen : [] ++ c.data ≠ [] ∨ lastz = true := ho.symm.imp_left fun hne hd => hne (Chunk.eq_one hc hd)
  rw [streamed_last c.data hz [] lastz (by simp) hopen c.data.length (by simp), List.nil_append, ← shortChunk_data hc]
  split
  · rename_i hd
    rw [hd]
    rfl
  · exact chunksLastLoop_short _ (Chunk.length_data_le hc)

/-- A full chunk's data give the chunk, and what follows starts afresh (R84). -/
theorem streamed_fullChunk {c : Chunk} (hc : c.wf = true) (hf : c.marker = 0xFF#8) (lastz : Bool) (q : List Byte) :
    streamed [] lastz (c.data ++ c.separator ++ q) = c.marker :: (c.data ++ streamed [] false q) := by
  obtain ⟨-, -, hz⟩ := (Chunk.wf_iff c).1 hc
  have hsep : c.separator = [] := if_pos hf
  rw [hsep, List.append_nil, streamed_fill c.data hz [] lastz q (by simp) (by simpa using Chunk.length_data_full hc hf), hf]
  rfl

/-- The data of a chunk that is not full, and the 0x00 it stands for, give the chunk (R85). -/
theorem streamed_shortChunk {c : Chunk} (hc : c.wf = true) (hf : c.marker ≠ 0xFF#8) (lastz : Bool) (q : List Byte) :
    streamed [] lastz (c.data ++ c.separator ++ q) = c.marker :: (c.data ++ streamed [] true q) := by
  obtain ⟨-, -, hz⟩ := (Chunk.wf_iff c).1 hc
  have hlen := Chunk.length_data_short hc hf
  have hsep : c.separator = [0x00#8] := if_neg hf
  rw [hsep, List.append_assoc, List.singleton_append, streamed_segment c.data hz [] lastz q (by simp) c.data.length (by simp), List.nil_append,
    chunksOpen_short _ (by omega), shortChunk_data hc]
  rfl

/-! ### The whole frame -/

/-- The one non-canonical form (R109): the last chunk is the byte 0x01 alone, behind a full one. -/
def EndsRedundantly (cs : List Chunk) : Prop := ∃ before c, cs = before ++ [c, .one] ∧ c.marker = 0xFF#8

theorem not_endsRedundantly_tail {c : Chunk} {cs : List Chunk} (h : ¬ EndsRedundantly (c :: cs)) : ¬ EndsRedundantly cs :=
  fun ⟨before, d, hcs, hd⟩ => h ⟨c :: before, d, by rw [hcs]; rfl, hd⟩

/-- Chunk by chunk, the payload's frame bytes to come are those of the chunks left. -/
theorem streamed_payloadOf {cs : List Chunk} (hne : cs ≠ []) (hwf : ∀ c ∈ cs, c.wf = true) (hcan : ¬ EndsRedundantly cs) {lastz : Bool}
    (ho : lastz = true ∨ cs ≠ [.one]) : streamed [] lastz (payloadOf cs) = chunkBytes cs := by
  induction cs generalizing lastz with
  | nil => exact absurd rfl hne
  | cons c cs ih =>
    have hc : c.wf = true := hwf c (by simp)
    have hwf' : ∀ d ∈ cs, d.wf = true := fun d hd => hwf d (by simp [hd])
    have hcan' := not_endsRedundantly_tail hcan
    rw [chunkBytes_cons]
    by_cases hcs : cs = []
    · rw [hcs] at ho ⊢
      rw [chunkBytes_nil, List.append_nil]
      exact streamed_lastChunk hc (ho.imp_right fun hone h => hone (by rw [h]))
    · rw [payloadOf_cons c hcs]
      by_cases hf : c.marker = 0xFF#8
      · have hone : cs ≠ [.one] := fun h => hcan ⟨[], c, by rw [h]; rfl, hf⟩
        rw [streamed_fullChunk hc hf, ih hcs hwf' hcan' (.inr hone)]
      · rw [streamed_shortChunk hc hf, ih hcs hwf' hcan' (.inl rfl)]

/-- The frame of what a canonical sequence of chunks stands for is that sequence (R109). -/
theorem frameOf_payloadOf {cs : List Chunk} (hne : cs ≠ []) (hwf : ∀ c ∈ cs, c.wf = true) (hcan : ¬ EndsRedundantly cs) :
    frameOf (payloadOf cs) = chunkBytes cs := by
  by_cases hp : payloadOf cs = []
  · rw [eq_one_of_payloadOf_eq_nil hne hwf hp]
    rfl
  · rw [← streamed_eq_frameOf hp]
    exact streamed_payloadOf hne hwf hcan (.inr fun h => hp (by rw [h]; rfl))

/-- The redundant last chunk stands for nothing, and the encoder does not write it (R109). -/
theorem frameOf_payloadOf_redundant {cs : List Chunk} (hwf : ∀ c ∈ cs, c.wf = true) (h : EndsRedundantly cs) :
    frameOf (payloadOf cs) ++ [0x01#8] = chunkBytes cs := by
  obtain ⟨before, c, rfl, hf⟩ := h
  have hsplit : before ++ [c, .one] = (before ++ [c]) ++ [.one] := by simp
  have hpay : payloadOf (before ++ [c, .one]) = payloadOf (before ++ [c]) := by
    have hsep : c.separator = [] := if_pos hf
    rw [hsplit, payloadOf_append_last, payloadOf_append_last]
    simp [payloadBefore, hsep, Chunk.one]
  have hcan : ¬ EndsRedundantly (before ++ [c]) := by
    rintro ⟨before', d, heq, -⟩
    have hone : c = .one := by simpa using congrArg List.getLast? heq
    rw [hone] at hf
    cases hf
  rw [hpay, frameOf_payloadOf (by simp) (fun d hd => hwf d (by rw [hsplit]; exact List.mem_append_left _ hd)) hcan, hsplit,
    chunkBytes_append _ [.one]]
  rfl

/-! ### The statement -/

/-- Settles O27: the payload decoded is the chunks', and its frame is the chunks, or the chunks without a redundant last one. -/
theorem reencodingGivesTheFrame : Obligations.ReencodingGivesTheFrame := by
  intro j i s u s' t t' r cs hj hi ht h hr hwf hbytes henc hsrc
  have hj : j = .dec ∨ j = .decu := by simpa using hj
  have hdec := (exec_next h).decodable (exec_idle h) hj ht hr
  have hne : cs ≠ [] := by
    rintro rfl
    exact sourceBytes_ne_nil hdec.nonempty hbytes.symm
  obtain ⟨u', hu, hc, hdest⟩ := hdec.exec_chunks hj hne hwf hbytes.symm
  cases h.symm.trans hu
  cases hr.symm.trans hc.result
  obtain ⟨v, hv, hcv, hframe, -⟩ := encodeWritesTheFrame i s' t' hi henc
  refine ⟨v, _, hv, hcv, fun hred => ?_, fun hcan => ?_⟩
  · rw [hframe, hsrc, hdest, ← hbytes]
    exact frameOf_payloadOf_redundant hwf hred
  · rw [hframe, hsrc, hdest, ← hbytes]
    exact frameOf_payloadOf hne hwf hcan

end Sys2Proof.Machine
end

section
/-! SUPPORT. Which outcome the operands decide (60_exceptions.md R114, R115, R124, R125): a fault where they establish one, then EMPTY_INPUT, then
BUFFER_TOO_SMALL, all before the payload or the frame is looked at. -/

namespace Sys2Proof.Machine

/-! ### The codes a completion has -/

section
variable {s u : State} {t : Transfer} {f : Nat} (hread : s.core.operands.readTransfer s.plat.width s.fresh = (t, f))
include hread

/-- An ENC that completes has BUFFER_TOO_SMALL or OK, by DST_LEN against the capacity (R88, R125 step 3). -/
theorem ExecNext.enc_code (h : ExecNext s .enc u) :
    (u.core.status.code = some 0x02#8 ↔ t.d < encodeCapacity t.n) ∧ (u.core.status.code = some 0x00#8 ↔ encodeCapacity t.n ≤ t.d) := by
  cases h with
  | encSmall t' f' ht ha hw hd =>
    cases hread.symm.trans ht
    simpa [OpOutcome.code] using hd
  | encode i hi t' f' ht ha hw hd =>
    cases hread.symm.trans ht
    simpa [OpOutcome.code] using hd
  | decEmpty i hi => simp at hi
  | decode i hi => simp at hi

/-- A decode command that completes has EMPTY_INPUT for a frame of length 0 and BUFFER_TOO_SMALL for a destination below n − 1 bytes, and neither
where the frame is walked (R105, R106, R125 steps 2 to 4). -/
theorem ExecNext.decode_code {i : Instr} (h : ExecNext s i u) (hi : i = .dec ∨ i = .decu) :
    (u.core.status.code = some 0x01#8 ↔ t.n = 0) ∧ (u.core.status.code = some 0x02#8 ↔ 1 < t.n ∧ t.d < t.n - 1) := by
  cases h with
  | decEmpty i hdec t' f' ht ha hn =>
    cases hread.symm.trans ht
    simp [OpOutcome.code, hn]
  | decSmall t' f' ht ha hn hd =>
    cases hread.symm.trans ht
    have hpos : t.n ≠ 0 := by omega
    simp [OpOutcome.code, hpos, hn, hd]
  | decode i hdec t' f' ht ha hn hd o m he =>
    cases hread.symm.trans ht
    have hcode := (decodeCore_ended hn he).code_ne
    have hpos : t.n ≠ 0 := by omega
    have hroom : ¬ (1 < t.n ∧ t.d < t.n - 1) := by omega
    simp [hcode, hpos, hroom]
  | enccap n f' hn hw => simp at hi
  | deccap n f' hn => simp at hi
  | encSmall t' f' ht ha hw hd => simp at hi
  | encode i henc => rcases henc with rfl | rfl <;> simp at hi

end

/-! ### Error statuses found in the operands (R114, R115) -/

/-- Settles O22: it is the first thing a decode command finds past the region checks, and nothing else raises it. -/
theorem emptyInputIsReported : Obligations.EmptyInputIsReported := by
  refine ⟨fun i s t hi hr ha hn => ?_, fun c s u h hk => ?_⟩
  · have hnext := ExecNext.decEmpty i (by simpa using hi) t s.fresh (Operands.readTransfer_of_some _ _ hr.transfer) ha hn
    exact ⟨_, hnext.exec hr.idle, complete_leaves s _⟩
  · obtain ⟨k, hk', -, -, hempty, -⟩ := statusCodesByCommand c s u h
    cases hk'.symm.trans hk
    have hc := hempty rfl
    refine ⟨hc, fun n hn => ?_⟩
    have length_zero {i : Instr} (hi : i = .dec ∨ i = .decu) (hc : decodeCmd c = some i) : n = 0 := by
      rw [writeCmd_legal hc] at h
      exact ((s.core.operands.readTransfer_gives s.plat.width s.fresh).n n hn).trans (((exec_next h).decode_code rfl hi).1.1 hk)
    exact hc.elim (length_zero (.inl rfl)) (length_zero (.inr rfl))

/-- Settles O16: ENC and DEC compare DST_LEN with the capacity before their core procedures, and nothing else raises the code. -/
theorem checkedCommandsReportSmallBuffers : Obligations.CheckedCommandsReportSmallBuffers := by
  refine ⟨fun s t hr ha hw hd => ?_, fun s t hr ha hn hd => ?_, fun c s u h hk => ?_⟩
  · have hnext := ExecNext.encSmall t s.fresh (Operands.readTransfer_of_some _ _ hr.transfer) ha hw hd
    exact ⟨_, hnext.exec hr.idle, complete_leaves s _⟩
  · have hnext := ExecNext.decSmall t s.fresh (Operands.readTransfer_of_some _ _ hr.transfer) ha hn hd
    exact ⟨_, hnext.exec hr.idle, complete_leaves s _⟩
  · obtain ⟨k, hk', -, -, -, hsmall, -⟩ := statusCodesByCommand c s u h
    cases hk'.symm.trans hk
    have hc := hsmall rfl
    refine ⟨hc, fun t ht => ?_⟩
    have hread := Operands.readTransfer_of_some s.plat.width s.fresh ht
    refine hc.imp (fun hc => ⟨hc, ?_⟩) fun hc => ⟨hc, ?_⟩ <;> rw [writeCmd_legal hc] at h
    · exact ((exec_next h).enc_code hread).1.1 hk
    · exact ((exec_next h).decode_code hread (.inl rfl)).2.1 hk

/-! ### Faults before error statuses (R124, R125 step 1) -/

/-- ENCU's precondition is judged on the lengths alone (R124). -/
theorem encuFault_small {s : State} {t : Transfer} (ha : Admitted s t) (hw : encodeCapacity t.n < 2 ^ s.plat.width)
    (hd : t.d < encodeCapacity t.n) : encuFault s t = some .uncheckedPrecondition := by
  rw [encuFault, encFault_eq_none.2 ⟨ha, hw⟩, Option.none_or, if_pos hd]

/-- DECU's precondition is judged on the lengths alone (R124). -/
theorem decuFault_small {s : State} {t : Transfer} (ha : Admitted s t) (hd : 1 < t.n ∧ t.d < t.n - 1) :
    decuFault s t = some .uncheckedPrecondition := by
  rw [decuFault, decFault_eq_none.2 ha, Option.none_or, if_pos hd]

/-- Settles O17: past the other checks of ENCU and DECU the precondition is the fault, and memory has no part in it. -/
theorem uncheckedPreconditionFaults : Obligations.UncheckedPreconditionFaults :=
  ⟨fun _ _ hr ha hw hd => hr.exec_fault rfl (encuFault_small ha hw hd),
    fun _ _ hr ha hn hd => hr.exec_fault rfl (decuFault_small ha ⟨hn, hd⟩)⟩

/-- A transform faults on operands that establish any fault at all (R125 step 1). -/
theorem Ready.exists_fault {i : Instr} {s : State} {t : Transfer} (hr : Ready s t) (hi : i.isTransform = true)
    (h : transferFault i s t ≠ none) : ∃ f, exec i s = .fault f := by
  obtain ⟨f, hf⟩ := Option.ne_none_iff_exists'.1 h
  exact ⟨f, hr.exec_fault hi hf⟩

/-- Settles O40: operands past every fault satisfy its complement, and the operands of a completion decide its code. -/
theorem priorityOfOutcomes : Obligations.PriorityOfOutcomes := by
  refine ⟨fun i s t hi hr hna => ?_, fun i s t hi hr hw => ?_, fun s t hr => ⟨fun hd => ?_, fun hd => ?_⟩,
    fun i s u t hi ht h => ?_, fun s u t ht h => ?_⟩
  · exact hr.exists_fault hi fun hv => hna (transferFault_admitted hi hv)
  · simp only [List.mem_cons, List.not_mem_nil, or_false] at hi
    rcases hi with rfl | rfl
    · refine hr.exists_fault rfl fun hv => ?_
      obtain ⟨-, hfits⟩ := encFault_eq_none.1 hv
      omega
    · refine hr.exists_fault rfl fun hv => ?_
      obtain ⟨-, hfits, -⟩ := encuFault_eq_none.1 hv
      omega
  · refine hr.exists_fault rfl fun hv => ?_
    obtain ⟨-, -, hroom⟩ := encuFault_eq_none.1 hv
    omega
  · refine hr.exists_fault rfl fun hv => ?_
    obtain ⟨-, hroom⟩ := decuFault_eq_none.1 hv
    omega
  · exact (exec_next h).decode_code (Operands.readTransfer_of_some _ _ ht) (by simpa using hi)
  · exact (exec_next h).enc_code (Operands.readTransfer_of_some _ _ ht)

end Sys2Proof.Machine
end

section
/-! SUPPORT. The faults of a command and what each says of the operands (60_exceptions.md R122), and the three ways an operation ends (R112). -/

namespace Sys2Proof.Machine

/-! ### Inversion of a fault -/

/-- Every way a command faults: on a busy core, or by a fault that the operands it reads from the operand registers establish (R31, R125 step 1). -/
inductive ExecFault (s : State) (i : Instr) (f : Fault) : Prop where
  | busy (hf : f = .commandWhileBusy) (hb : s.core.status.busy = true)
  | length (hi : i.isTransform = false) (n : Nat) (hn : s.core.operands.GivesLength s.plat.width n) (hv : lengthFault i s n = some f)
  | transfer (hi : i.isTransform = true) (t : Transfer) (ht : s.core.operands.Gives s.plat.width t) (hv : transferFault i s t = some f)

/-- On an idle core every fault is one of the operands: past them the command completes. -/
theorem exec_fault {i : Instr} {s : State} {f : Fault} (h : exec i s = .fault f) : ExecFault s i f := by
  cases hb : s.core.status.busy with
  | true =>
    rw [← writeCmd_legal (decodeCmd_encode i), writeCmd_busy _ hb] at h
    cases h
    exact .busy rfl hb
  | false =>
    have hstops : ¬ ∃ u, ExecNext s i u := fun ⟨u, hu⟩ => by cases h.symm.trans (hu.exec hb)
    cases hi : i.isTransform with
    | false =>
      obtain ⟨go, hgo⟩ := exec_sizing hi
      have hg := s.core.operands.readLength_gives s.plat.width s.fresh
      obtain ⟨n, g, hn, hx⟩ := withLength_eq s.core.operands s
      rw [hn] at hg
      rw [hgo, whenIdle_of_idle _ hb, hx, lengthFault_drawn] at h
      cases hv : lengthFault i s n with
      | none => exact absurd (execNext_of_lengthFault hi hn hv) hstops
      | some x =>
        rw [hv] at h
        cases h
        exact .length hi n hg hv
    | true =>
      obtain ⟨go, hgo⟩ := exec_transform hi
      have hg := s.core.operands.readTransfer_gives s.plat.width s.fresh
      obtain ⟨t, g, ht, hx⟩ := withTransfer_eq s.core.operands s
      rw [ht] at hg
      rw [hgo, whenIdle_of_idle _ hb, hx, transferFault_drawn] at h
      cases hv : transferFault i s t with
      | none => exact absurd (execNext_of_transferFault hi ht hv) hstops
      | some x =>
        rw [hv] at h
        cases h
        exact .transfer hi t hg hv

/-! ### What each fault says of the operands (R122) -/

theorem capacityFault_eq_some {s : State} {n : Nat} {f : Fault} :
    capacityFault s n = some f ↔ f = .capacityOverflow ∧ 2 ^ s.plat.width ≤ encodeCapacity n := by
  rw [capacityFault, Option.ite_none_right_eq_some, Option.some_inj, and_comm, eq_comm]

/-- A region check that fails at some offset fails at that address. -/
theorem exists_offset_of_not_all {p : Nat → Bool} {base k : Nat} (h : (!(List.range k).all fun i => p (base + i)) = true) :
    ∃ a, (base ≤ a ∧ a < base + k) ∧ p a = false := by
  simp only [Bool.not_eq_true', List.all_eq_false, List.mem_range, Bool.not_eq_true] at h
  obtain ⟨j, hj, hp⟩ := h
  exact ⟨base + j, ⟨by omega, by omega⟩, hp⟩

/-- A transform meets a region of a running operation of some other core, with its source or with its destination (R133). -/
theorem exists_running_of_meetsOthers {s : State} {t : Transfer} (h : meetsOthers s t = true) :
    ∃ c ∈ s.others, ∃ r ∈ c.runningRegions, overlaps t.src t.n r.1 r.2 = true ∨ overlaps t.dst t.d r.1 r.2 = true := by
  rw [meetsOthers, Bool.or_eq_true, meetsRunning_eq_true, meetsRunning_eq_true] at h
  rcases h with ⟨r, ⟨c, hc, hr⟩, ho⟩ | ⟨r, ⟨c, hc, hr⟩, ho⟩
  · exact ⟨c, hc, r, hr, .inl ho⟩
  · exact ⟨c, hc, r, hr, .inr ho⟩

/-- The faults of REGION_CHECKS (R43 to R45, R133). -/
theorem condition_of_regionFault {s : State} {t : Transfer} {f : Fault} (h : regionFault s t = some f) :
    (f = .regionWrap ∧ (2 ^ s.plat.width < t.src + t.n ∨ 2 ^ s.plat.width < t.dst + t.d)) ∨
    (f = .regionOverlap ∧ overlaps t.src t.n t.dst t.d = true) ∨
    (f = .unbackedRegion ∧ ∃ a, InSource t a ∧ readableAt s.plat a = false ∨ InDest t a ∧ writableAt s.plat a = false) ∨
    (f = .regionAccessWhileBusy ∧ ∃ c ∈ s.others, ∃ r ∈ c.runningRegions,
      overlaps t.src t.n r.1 r.2 = true ∨ overlaps t.dst t.d r.1 r.2 = true) := by
  unfold regionFault at h
  split at h
  case isTrue hwrap => cases h; exact .inl ⟨rfl, .inl (by simpa [wraps] using hwrap)⟩
  split at h
  case isTrue hwrap => cases h; exact .inl ⟨rfl, .inr (by simpa [wraps] using hwrap)⟩
  split at h
  case isTrue hoverlap => cases h; exact .inr (.inl ⟨rfl, hoverlap⟩)
  split at h
  case isTrue hsrc =>
    cases h
    obtain ⟨a, ha, hp⟩ := exists_offset_of_not_all hsrc
    exact .inr (.inr (.inl ⟨rfl, a, .inl ⟨ha, hp⟩⟩))
  split at h
  case isTrue hdst =>
    cases h
    obtain ⟨a, ha, hp⟩ := exists_offset_of_not_all hdst
    exact .inr (.inr (.inl ⟨rfl, a, .inr ⟨ha, hp⟩⟩))
  split at h
  case isTrue hmeets => cases h; exact .inr (.inr (.inr ⟨rfl, exists_running_of_meetsOthers hmeets⟩))
  cases h

/-- The only fault a length establishes is ENCCAP's CapacityOverflow (R75). -/
theorem condition_of_lengthFault {i : Instr} {s : State} {n : Nat} {f : Fault} (h : lengthFault i s n = some f) :
    i = .enccap ∧ f = .capacityOverflow ∧ 2 ^ s.plat.width ≤ encodeCapacity n := by
  cases i
  case enccap => exact ⟨rfl, capacityFault_eq_some.1 h⟩
  all_goals cases h

/-- A transform's faults are those of REGION_CHECKS, of its capacity, and of its precondition (R88, R89, R105, R106, R124). -/
theorem condition_of_transferFault {i : Instr} {s : State} {t : Transfer} {f : Fault} (h : transferFault i s t = some f) :
    regionFault s t = some f ∨
    ((i = .enc ∨ i = .encu) ∧ f = .capacityOverflow ∧ 2 ^ s.plat.width ≤ encodeCapacity t.n) ∨
    (f = .uncheckedPrecondition ∧ (i = .encu ∧ t.d < encodeCapacity t.n ∨ i = .decu ∧ 1 < t.n ∧ t.d < t.n - 1)) := by
  have of_encFault (h : encFault s t = some f) :
      regionFault s t = some f ∨ f = .capacityOverflow ∧ 2 ^ s.plat.width ≤ encodeCapacity t.n :=
    (Option.or_eq_some_iff.1 h).imp_right fun ⟨_, h⟩ => capacityFault_eq_some.1 h
  cases i
  case enccap => cases h
  case deccap => cases h
  case enc => exact (of_encFault h).imp_right fun hcap => .inl ⟨.inl rfl, hcap⟩
  case encu =>
    rcases Option.or_eq_some_iff.1 h with h | ⟨-, h⟩
    · exact (of_encFault h).imp_right fun hcap => .inl ⟨.inr rfl, hcap⟩
    · obtain ⟨hd, hf⟩ := Option.ite_none_right_eq_some.1 h
      cases hf
      exact .inr (.inr ⟨rfl, .inl ⟨rfl, hd⟩⟩)
  case dec => exact .inl h
  case decu =>
    rcases Option.or_eq_some_iff.1 h with h | ⟨-, h⟩
    · exact .inl h
    · obtain ⟨hd, hf⟩ := Option.ite_none_right_eq_some.1 h
      cases hf
      exact .inr (.inr ⟨rfl, .inr ⟨rfl, hd⟩⟩)

/-- Settles O38: a fault is one of a busy core or of the operands read, and each check of the operands names its own condition. -/
theorem faultsOnlyUnderTheirCondition : Obligations.FaultsOnlyUnderTheirCondition := by
  intro i s f h
  cases exec_fault h with
  | busy hf hb => exact .inl ⟨hf, hb⟩
  | length hi n hn hv =>
    obtain ⟨rfl, hf, hcap⟩ := condition_of_lengthFault hv
    exact .inr (.inl ⟨hf, by simp, n, hn, hcap⟩)
  | transfer hi t ht hv =>
    rcases condition_of_transferFault hv with hregion | ⟨henc, hf, hcap⟩ | hsmall
    · refine .inr (.inr ⟨hi, t, ht, ?_⟩)
      rcases condition_of_regionFault hregion with hwrap | hoverlap | hunbacked | hmeets
      · exact .inl hwrap
      · exact .inr (.inl hoverlap)
      · exact .inr (.inr (.inl hunbacked))
      · exact .inr (.inr (.inr (.inl hmeets)))
    · exact .inr (.inl ⟨hf, by simp [henc], t.n, ⟨ht.n, ht.nFree⟩, hcap⟩)
    · exact .inr (.inr ⟨hi, t, ht, .inr (.inr (.inr (.inr hsmall)))⟩)

/-! ### The three ways an operation ends (R112) -/

/-- The faults a CMD write can raise (R122). -/
def commandFaults : List Fault :=
  [.uncheckedPrecondition, .capacityOverflow, .regionWrap, .regionOverlap, .unbackedRegion, .commandWhileBusy, .regionAccessWhileBusy]

theorem exec_fault_mem {i : Instr} {s : State} {f : Fault} (h : exec i s = .fault f) : f ∈ commandFaults := by
  rcases faultsOnlyUnderTheirCondition i s f h with
    ⟨rfl, -⟩ | ⟨rfl, -⟩ | ⟨-, t, -, ⟨rfl, -⟩ | ⟨rfl, -⟩ | ⟨rfl, -⟩ | ⟨rfl, -⟩ | ⟨rfl, -⟩⟩ <;> decide

/-- A command word answers a next state or one of those faults: no word is refused. -/
theorem writeCmd_next_or_fault (c : Byte) (s : State) :
    (∃ u, writeCmd c s = .next u) ∨ ∃ f, writeCmd c s = .fault f ∧ f ∈ commandFaults := by
  cases hc : decodeCmd c with
  | some i =>
    rw [writeCmd_legal hc]
    rcases issue_and_exec i s with ⟨-, u, -, hu⟩ | ⟨f, -, hf⟩
    · exact .inl ⟨u, hu⟩
    · exact .inr ⟨f, hf, exec_fault_mem hf⟩
  | none =>
    cases hb : s.core.status.busy with
    | true => exact .inr ⟨_, writeCmd_busy c hb, by decide⟩
    | false => exact .inl ⟨_, (writeCmd_illegal hc s).trans (execIllegal_idle hb)⟩

/-- Settles O37: a word that is no fault completes, and its code is 0x00 exactly with a RESULT. -/
theorem threeOutcomes : Obligations.ThreeOutcomes := by
  intro c s
  rcases writeCmd_next_or_fault c s with ⟨u, hu⟩ | hf
  · obtain ⟨o, hc, -⟩ := writeCmd_completed hu
    have hcode : u.core.status.code = some o.code := by rw [hc.status]
    by_cases hok : o.code = 0x00#8
    · refine .inl ⟨u, hu, hok ▸ hcode, ?_⟩
      rw [hc.result, o.result_isSome, hok]
    · refine .inr (.inl ⟨u, o.code, hu, hcode, byte_pos hok, o.code_le, ?_⟩)
      rw [hc.result, ← Option.not_isSome_iff_eq_none, o.result_isSome]
      exact hok
  · exact .inr (.inr hf)

end Sys2Proof.Machine
end

section
/-! SUPPORT. Reset, power-on and the hazards of a busy core (70_reset_and_hazards.md R136, R137, R140). -/

namespace Sys2Proof.Machine

/-! ### The machine at power-on (R136) -/

theorem State.eq_reset_of_mem_powerOn {p : Config.Platform} {extra : Nat} {m : Memory} {c : CodecCore}
    (h : c ∈ (State.powerOn p extra m).allCores) : c = CodecCore.reset := by
  rcases State.mem_allCores.1 h with rfl | hc
  · rfl
  · exact (List.mem_replicate.1 hc).2

theorem State.powerOn_inv {p : Config.Platform} (extra : Nat) {m : Memory} (hw : 1 ≤ p.width) (hm : m.wf = true)
    (ha : ∀ c ∈ m, c.1 < 2 ^ p.width) : (State.powerOn p extra m).Inv where
  width := hw
  memForm := hm
  memFits := ha
  cores _ hc := State.eq_reset_of_mem_powerOn hc ▸ CodecCore.reset_ok p.width

/-- No core runs anything at power-on, so no two regions meet. -/
theorem State.powerOn_coresDisjoint (p : Config.Platform) (extra : Nat) (m : Memory) : (State.powerOn p extra m).CoresDisjoint :=
  List.pairwise_of_forall_mem_list fun _ hc d _ =>
    CodecCore.apartFrom_idle (State.eq_reset_of_mem_powerOn hc ▸ CodecCore.runningTransfer_reset) d

/-- Settles O44: every core at power-on is a core after reset, which is consistent and runs nothing. -/
theorem invariantAtReset : Obligations.InvariantAtReset :=
  ⟨State.powerOn_inv 0 (by decide) rfl nofun, State.powerOn_coresDisjoint _ _ _,
    fun p extra m hw hm ha => ⟨State.powerOn_inv extra hw hm ha, State.powerOn_coresDisjoint p extra m⟩⟩

/-! ### The reset input (R136, R137) -/

theorem step_reset {s : State} {rest : List HostEvent} (h : s.host = .reset :: rest) :
    step s = .next (resetCore { s with host := rest }) := step_event h

/-- Without a transform in flight a reset changes the addressed core's registers only. -/
theorem resetCore_of_not_running {s : State} (h : s.core.runningTransfer = none) : resetCore s = { s with core := CodecCore.reset } := by
  rw [resetCore, h]

/-- A reset makes the destination of an abandoned transform unspecified. -/
theorem resetCore_mem_of_running {s : State} {t : Transfer} (h : s.core.runningTransfer = some t) :
    (resetCore s).mem = s.mem.scramble t.dst t.d s.fresh := by
  rw [resetCore, h]
  rfl

theorem resetCore_outsideKept {s : State} {t : Transfer} (h : s.core.runningTransfer = some t) : OutsideKept s (resetCore s) t := by
  intro a ha
  unfold InDest at ha
  rw [resetCore_mem_of_running h]
  exact Memory.read_scramble_outside _ _ _ _ (by omega)

/-- Bits [15:10] of STATUS are hard-wired to 0 (R23). -/
theorem Status.word_high_zero (st : Status) (free : Byte) : (st.word free).toNat / 1024 = 0 := by
  have hcode := (st.codeField free).isLt
  have hdone := st.done.toNat_le
  have hbusy := st.busy.toNat_le
  rw [Status.word_toNat]
  omega

/-- Settles O59: every core at power-on is a core after reset, and a reset of an idle core writes that core alone. -/
theorem stateAfterReset : Obligations.StateAfterReset := by
  refine ⟨fun p extra m => ⟨rfl, fun c hc => ?_⟩, fun p extra m s rest hhost hop => ?_⟩
  · obtain rfl := State.eq_reset_of_mem_powerOn hc
    exact ⟨rfl, rfl, rfl, rfl, rfl, rfl, rfl, rfl, rfl, rfl, rfl, rfl, rfl, rfl, Status.word_high_zero _⟩
  · rw [step_reset hhost, resetCore_of_not_running (s := { s with host := rest }) (CodecCore.runningTransfer_idle hop)]
    rfl

/-- Settles O58: a reset writes the core's registers and the destination of its transform, which is apart from the source. -/
theorem resetAbandonsTheOperation : Obligations.ResetAbandonsTheOperation := by
  intro s rest hs _ hhost
  refine ⟨_, step_reset hhost, resetCore_core _, resetCore_plat _, resetCore_before _, resetCore_after _, resetCore_host _,
    fun hidle => ?_, fun t ht => ?_⟩
  · rw [resetCore_of_not_running (s := { s with host := rest }) hidle]
  · have hkept : OutsideKept s (resetCore { s with host := rest }) t := resetCore_outsideKept (s := { s with host := rest }) ht
    refine ⟨hkept, fun a ha => hkept a ((hs.running_apart ht).not_inDest ha), fun k hk => ?_⟩
    rw [resetCore_mem_of_running (s := { s with host := rest }) ht]
    exact Memory.read_scramble_inside _ _ _ _ hk

/-! ### The hazards of a busy core (R140) -/

/-- While BUSY = 1 CODE holds no value (R23). -/
theorem CodecCore.Ok.code_of_busy {w : Nat} {c : CodecCore} (h : c.Ok w) (hb : c.status.busy = true) : c.status.code = none := by
  have hdone : c.status.done = false := by
    rw [← Bool.not_eq_true]
    exact fun hd => h.notBoth ⟨hb, hd⟩
  rw [← Option.not_isSome_iff_eq_none, h.codeDone, hdone]
  exact Bool.false_ne_true

/-- While BUSY = 1 no result register holds a value (R27, R31). -/
theorem CodecCore.Ok.held_of_busy {w : Nat} {c : CodecCore} (h : c.Ok w) (hb : c.status.busy = true) {r : Reg}
    (hr : r ∈ [Reg.result, .errAt, .errMarker, .errLen, .errHave, .errWant]) : c.held r = none := by
  have hcode : ∀ k, c.status.code ≠ some k := by simp [h.code_of_busy hb]
  simp only [List.mem_cons, List.not_mem_nil, or_false] at hr
  rcases hr with rfl | rfl | rfl | rfl | rfl | rfl
  · exact eq_none_of_isSome_iff h.resultCode (hcode _)
  · exact eq_none_of_isSome_iff h.errAtCode (by simp [hcode])
  · exact congrArg (Option.map BitVec.toNat) (eq_none_of_isSome_iff h.errMarkerCode (hcode _))
  · exact eq_none_of_isSome_iff h.errLenCode (hcode _)
  · exact eq_none_of_isSome_iff h.errHaveCode (hcode _)
  · exact eq_none_of_isSome_iff h.errWantCode (hcode _)

/-- Each byte of a running transform's regions meets a running region (R52). -/
theorem meetsRunning_of_inside {cores : List CodecCore} {c : CodecCore} (hc : c ∈ cores) {t : Transfer}
    (ht : c.runningTransfer = some t) {a : Nat} (ha : InSource t a ∨ InDest t a) : meetsRunning cores a 1 = true := by
  unfold InSource InDest at ha
  rw [meetsRunning_eq_true]
  rcases ha with hsrc | hdst
  · exact ⟨(t.src, t.n), ⟨c, hc, CodecCore.mem_runningRegions.2 ⟨t, ht, .inl rfl⟩⟩, overlaps_eq_true.2 (by dsimp only; omega)⟩
  · exact ⟨(t.dst, t.d), ⟨c, hc, CodecCore.mem_runningRegions.2 ⟨t, ht, .inr rfl⟩⟩, overlaps_eq_true.2 (by dsimp only; omega)⟩

/-- Settles O56: H1 and H2 are the faults of a busy core, H3 holds at every byte of a running region, and H4 since no result register
holds a value. -/
theorem busyHazardsFault : Obligations.BusyHazardsFault := by
  intro s hs hb
  obtain ⟨-, -, hwrite, -⟩ := operandsAreLatched
  have hheld {r : Reg} := hs.core_ok.held_of_busy hb (r := r)
  refine ⟨fun c => (hostWrite_cmd c s).trans (writeCmd_busy c hb), fun k hk v => hwrite s k v hb hk,
    fun fl i hop hc hi => ?_, fun k hk => ?_, ?_, _, hostRead_status s⟩
  · obtain ⟨t, hruns⟩ := hs.runs hop hc hi
    refine ⟨t, Operands.eq_operands hruns.latched, fun a ha => ?_⟩
    have hmeets := meetsRunning_of_inside (State.mem_allCores.2 (.inl rfl)) hruns.running ha
    exact ⟨atMemory_running hmeets, fun b => atMemory_running hmeets⟩
  · simp only [List.mem_cons, List.not_mem_nil, or_false] at hk
    rcases hk with rfl | rfl | rfl | rfl | rfl
    · exact hostRead_empty (r := .result) rfl nofun (hheld (by decide))
    · exact hostRead_empty (r := .errAt) rfl nofun (hheld (by decide))
    · exact hostRead_empty (r := .errLen) rfl nofun (hheld (by decide))
    · exact hostRead_empty (r := .errHave) rfl nofun (hheld (by decide))
    · exact hostRead_empty (r := .errWant) rfl nofun (hheld (by decide))
  · exact hostRead_empty (r := .errMarker) rfl nofun (hheld (by decide))

end Sys2Proof.Machine
end
